-- ==== Sys2Proof/Word.lean ====
section
/-!
DEFINITION. The widths of the block's words (00_scope.md R9, 10_state.md, 30_encoding.md R81, R91).
A register is a bit vector. A signed one is read with `BitVec.toInt` (two's complement, R15 and entry G1 of
93_implementation_defined.md), an unsigned one with `BitVec.toNat`.
-/

namespace Sys2Proof

/-- A scaled word: W = 16 bits (R9). -/
abbrev Word := BitVec 16

/-- An error value: WE = 17 bits (R9). -/
abbrev ErrWord := BitVec 17

/-- The accumulator and `PRE`: ACCW = 40 bits (R9). -/
abbrev AccWord := BitVec 40

/-- A word on the bus and in a staging register: 32 bits (R60). -/
abbrev BusWord := BitVec 32

/-- A word address of the register space (R60). -/
abbrev Addr := BitVec 8

/-- A bus frame: 41 bits (R81). -/
abbrev Frame := BitVec 41

/-- The arithmetic unit's operation select: 3 bits (R91). -/
abbrev AluOp := BitVec 3

end Sys2Proof
end

