-- ==== Sys2Proof/Config.lean ====
section
/-!
DEFINITION. The open parameters of the block (00_scope.md R10 to R14; 92_eei_decisions.md, "Open parameters, collected").
The numeric parameters are plain data, `Params`; a machine carries the `Params` it was built with in its state
(assumption log 1), so every statement about a state is a statement about every choice of them. The timing parameters are
constants without a body: no rule of the block reads them (R14, assumption log 12).
-/

namespace Sys2Proof

/-- R11: the rounding of every format shift. -/
inductive Rounding where
  | trunc
  | nearest
  deriving DecidableEq, Repr

/-- R10 to R12: the parameters a block is built with, each in the range the spec gives it. -/
structure Params where
  /-- `F_C`, the coefficient format, 0 to 15. -/
  fC : Fin 16
  /-- `F_S`, the state format, 0 to 15. -/
  fS : Fin 16
  /-- `F_O`, the output format, 0 to `F_C + F_S`. -/
  fO : Fin (fC.val + fS.val + 1)
  /-- `RND`. -/
  rnd : Rounding
  /-- `SS_FRAC`, the guard bits of the soft-start accumulator, 0 to 16. -/
  ssFrac : Fin 17
  /-- `TIME_UNIT` as a number of picoseconds; no rule reads it (assumption log 14). -/
  timeUnitPs : Nat
  deriving DecidableEq, Repr

/-- R10: `SH_U = F_C`, the shift after the accumulation. -/
def Params.shU (p : Params) : Nat := p.fC

/-- R10: `SH_O = F_C + F_S - F_O`, the shift after the gain; never negative, by the range of `F_O`. -/
def Params.shO (p : Params) : Nat := p.fC + p.fS - p.fO

/-- The width of `SS_ACC` and `SS_DELTA`: `W + SS_FRAC` bits (10_state.md R38). -/
def Params.ssWidth (p : Params) : Nat := 16 + p.ssFrac

/-- R13: the reference configuration `REFCFG`. -/
def Params.refCfg : Params :=
  { fC := 13, fS := 15, fO := ⟨15, by decide⟩, rnd := .trunc, ssFrac := 16, timeUnitPs := 1000 }

namespace Config

/-! R14: the timing parameters, each a number of `TIME_UNIT`s, without value. -/

/-- `T_PERIOD`: the switching period. -/
opaque tPeriod : Nat
/-- `T_SAMPLE_OFFSET`: how long before the period edge sampling starts. -/
opaque tSampleOffset : Nat
/-- `T_COMPUTE_DEADLINE`: by when, after sample-ready, the output is written. -/
opaque tComputeDeadline : Nat
/-- `T_RAMP_START`: where the ramp window opens. -/
opaque tRampStart : Nat
/-- `T_RAMP_END`: where the ramp window closes. -/
opaque tRampEnd : Nat
/-- `T_STEP_INTERVAL`: the interval between two ramp writes. -/
opaque tStepInterval : Nat
/-- `T_FIXED_LATENCY`: the ramp's fixed latency. -/
opaque tFixedLatency : Nat
/-- `T_SAFETY_MARGIN`: the margin the ramp must stay under. -/
opaque tSafetyMargin : Nat

end Config

end Sys2Proof
end

