-- ==== Sys2Proof/Syntax.lean ====
section
/-!
DEFINITION. The operations of the block, one constructor per row of spec/opcode_table.json (30_encoding.md R80): thirteen bus
operations with the operands of R87, and seven arithmetic micro-operations, whose operands are on the arithmetic unit's
ports and not in the word (R91, assumption log 5).
-/

namespace Sys2Proof

/-- R80: the operation set. -/
inductive Instr where
  /-- `RD addr` (44_control.md R171). -/
  | rd (addr : Addr)
  /-- `WR addr, v` (44_control.md R170). -/
  | wr (addr : Addr) (data : BusWord)
  /-- `INIT` (44_control.md R172). -/
  | init
  /-- `START` (44_control.md R173). -/
  | start
  /-- `SS_ARM` (42_softstart.md R142). -/
  | ssArm
  /-- `SL_CFG` (43_slope.md R156). -/
  | slCfg
  /-- `ORCH_EN` (44_control.md R174). -/
  | orchEn
  /-- `UPDATE` (41_compensator.md R128). -/
  | update
  /-- `SS_STEP` (42_softstart.md R143). -/
  | ssStep
  /-- `SL_RUN` (43_slope.md R157). -/
  | slRun
  /-- `EV_PERIOD` (44_control.md R175). -/
  | evPeriod
  /-- `EV_SAMPLE imm16` (44_control.md R176). -/
  | evSample (imm : Word)
  /-- `EV_SLOPE` (44_control.md R177). -/
  | evSlope
  /-- `FX_SUB` (40_arith.md R101). -/
  | fxSub
  /-- `FX_MUL` (40_arith.md R102). -/
  | fxMul
  /-- `FX_MAC` (40_arith.md R103). -/
  | fxMac
  /-- `FX_SHIFT` (40_arith.md R104). -/
  | fxShift
  /-- `FX_SAT` (40_arith.md R105). -/
  | fxSat
  /-- `FX_SATW` (40_arith.md R106). -/
  | fxSatw
  /-- `FX_ADDS` (40_arith.md R107). -/
  | fxAdds
  deriving DecidableEq, Repr

end Sys2Proof
end

