-- ==== Sys2Proof/WellFormed.lean ====
section
/-!
DEFINITION. Which terms of `Instr` are operations the encoding can spell (30_encoding.md R82 to R88).
-/

namespace Sys2Proof

/-- R84: the address of a `WR` is not `0x00` (a write to `0x00` is a command). Every other operand form can be encoded
at every value. -/
def Instr.wf : Instr → Bool
  | .wr addr _ => addr != 0
  | .rd _ | .init | .start | .ssArm | .slCfg | .orchEn | .update | .ssStep | .slRun
  | .evPeriod | .evSample _ | .evSlope
  | .fxSub | .fxMul | .fxMac | .fxShift | .fxSat | .fxSatw | .fxAdds => true

end Sys2Proof
end

