-- ==== Sys2Proof/Decode.lean ====
section
/-!
DEFINITION. The encodings of 30_encoding.md: the decoder of R82 and R91, total on every frame and every operation select, and
the encoder of R83 to R88 and R91.
-/

namespace Sys2Proof

/-- A word that stands for one operation: a bus frame (R81) or the arithmetic unit's operation select (R91). -/
inductive CodeWord where
  | frame (f : Frame)
  | alu (op : AluOp)
  deriving DecidableEq, Repr

/-- Why a word stands for no operation (R82 case 5, R89; R91 code 7). -/
inductive DecodeError where
  /-- A write to `0x00` whose `data[7:0]` is no code of R88. -/
  | unassignedCode
  /-- A CMD code with `data[31:8] != 0`. -/
  | commandUpperBits
  /-- Code 0x21 with `data[15:8] != 0`. -/
  | sampleMiddleBits
  /-- The reserved operation select 7. -/
  | reservedAluOp
  deriving DecidableEq, Repr

/-! ## Fields of a frame (R81, R86) -/

/-- `w`, bit 40. -/
def frameW (f : Frame) : Bool := f.getLsbD 40
/-- `addr`, bits 39:32. -/
def frameAddr (f : Frame) : Addr := f.extractLsb' 32 8
/-- `data`, bits 31:0. -/
def frameData (f : Frame) : BusWord := f.extractLsb' 0 32
/-- `data[7:0]`, the command code. -/
def dataCode (d : BusWord) : BitVec 8 := d.extractLsb' 0 8
/-- `data[15:8]`. -/
def dataMiddle (d : BusWord) : BitVec 8 := d.extractLsb' 8 8
/-- `data[31:16]`, the immediate of `EV_SAMPLE`. -/
def dataImm (d : BusWord) : Word := d.extractLsb' 16 16
/-- `data[31:8]`. -/
def dataUpper (d : BusWord) : BitVec 24 := d.extractLsb' 8 24

/-! ## Decoding -/

/-- R88: the code of `EV_SAMPLE`, the only CMDI code. -/
def sampleCode : BitVec 8 := 0x21

/-- R88: the CMD codes and their operations. -/
def commandTable : List (BitVec 8 × Instr) :=
  [(0x01, .init), (0x02, .start), (0x03, .ssArm), (0x04, .slCfg), (0x05, .orchEn),
   (0x10, .update), (0x11, .ssStep), (0x12, .slRun), (0x20, .evPeriod), (0x22, .evSlope)]

/-- R91: the operation selects and their micro-operations. -/
def aluTable : List (AluOp × Instr) :=
  [(0, .fxSub), (1, .fxMul), (2, .fxMac), (3, .fxShift), (4, .fxSat), (5, .fxSatw), (6, .fxAdds)]

/-- R82 cases 3 to 5: a write to `0x00` with data `d`. -/
def decodeCommand (d : BusWord) : Except DecodeError Instr :=
  if dataCode d = sampleCode then
    if dataMiddle d = 0 then .ok (.evSample (dataImm d)) else .error .sampleMiddleBits
  else
    match commandTable.lookup (dataCode d) with
    | some i => if dataUpper d = 0 then .ok i else .error .commandUpperBits
    | none => .error .unassignedCode

/-- R82: the first case that applies decides. -/
def decodeFrame (f : Frame) : Except DecodeError Instr :=
  if frameW f = false then .ok (.rd (frameAddr f))
  else if frameAddr f ≠ 0 then .ok (.wr (frameAddr f) (frameData f))
  else decodeCommand (frameData f)

/-- R91: the operation of an operation select. -/
def decodeAlu (op : AluOp) : Except DecodeError Instr :=
  match aluTable.lookup op with
  | some i => .ok i
  | none => .error .reservedAluOp

/-- The decoder, total on every word. -/
def decode : CodeWord → Except DecodeError Instr
  | .frame f => decodeFrame f
  | .alu op => decodeAlu op

/-! ## Encoding -/

/-- R81: a frame from its three fields. -/
def frameOf (w : BitVec 1) (addr : Addr) (data : BusWord) : Frame := w ++ addr ++ data

/-- R85: the frame of a command code. -/
def commandFrame (code : BitVec 8) : Frame := frameOf 1 0 (code.setWidth 32)

/-- The words of an operation (R83 to R86, R88, R91). `RD`'s ignored data bits are written as zeros (R83). -/
def encode : Instr → CodeWord
  | .rd addr => .frame (frameOf 0 addr 0)
  | .wr addr data => .frame (frameOf 1 addr data)
  | .init => .frame (commandFrame 0x01)
  | .start => .frame (commandFrame 0x02)
  | .ssArm => .frame (commandFrame 0x03)
  | .slCfg => .frame (commandFrame 0x04)
  | .orchEn => .frame (commandFrame 0x05)
  | .update => .frame (commandFrame 0x10)
  | .ssStep => .frame (commandFrame 0x11)
  | .slRun => .frame (commandFrame 0x12)
  | .evPeriod => .frame (commandFrame 0x20)
  | .evSample imm => .frame (frameOf 1 0 (imm ++ sampleCode.setWidth 16))
  | .evSlope => .frame (commandFrame 0x22)
  | .fxSub => .alu 0
  | .fxMul => .alu 1
  | .fxMac => .alu 2
  | .fxShift => .alu 3
  | .fxSat => .alu 4
  | .fxSatw => .alu 5
  | .fxAdds => .alu 6

/-! ## Words numbered as spec/opcode_table.json numbers them (assumption log 17) -/

/-- The code word of a table row's bits: a row of one byte is an operation select, a longer one a frame. The bits above
the row's own 3 or 41 are zero; a number with one of them set is no word of the block. -/
def codeWordOf (nbits w : Nat) : Option CodeWord :=
  if nbits ≤ 8 then
    if w < 2 ^ 3 then some (.alu (BitVec.ofNat 3 w)) else none
  else
    if w < 2 ^ 41 then some (.frame (BitVec.ofNat 41 w)) else none

/-- The instruction the decoder reads from a table row's bits. -/
def decodeTableWord (nbits w : Nat) : Option Instr :=
  match codeWordOf nbits w with
  | some c => (decode c).toOption
  | none => none

end Sys2Proof
end

