-- ==== Sys2Proof/Machine/State.lean ====
section
/-!
DEFINITION. The architectural state of the block (10_state.md R20 to R52), plain data, and its value after reset (R49, R220).
The fields `cfg`, `inputs` and `alu` are the model's own (assumption logs 1, 2, 5).
-/

namespace Sys2Proof.Machine

/-- R31: the compensator's lifecycle. -/
inductive Life where
  | uninit
  | initialized
  | running
  | cfgError
  deriving DecidableEq, Repr

/-- R32: the orchestrator. -/
inductive Orch where
  | idle
  | armed
  | sampleInFlight
  | computeAndActuate
  deriving DecidableEq, Repr

/-- R33: the soft-start sub-state; code 3 is never taken (assumption log 15). -/
inductive SsState where
  | notStarted
  | ramping
  | settled
  deriving DecidableEq, Repr

/-- R34: the latched ramp direction; code 3 is never taken (assumption log 15). -/
inductive SsDir where
  | unset
  | up
  | down
  deriving DecidableEq, Repr

/-- R21: the active configuration. -/
structure ActiveCfg where
  ref : Word
  a1 : Word
  a2 : Word
  b0 : Word
  b1 : Word
  b2 : Word
  k : Word
  min : Word
  max : Word
  deriving DecidableEq, Repr

/-- R22, R23: the recurrence history and the partial sum carried over. -/
structure History where
  e1 : ErrWord
  e2 : ErrWord
  u1 : Word
  u2 : Word
  pre : AccWord
  deriving DecidableEq, Repr

/-- R27 to R29: the staging registers. -/
structure Staging where
  ref : BusWord
  a1 : BusWord
  a2 : BusWord
  b0 : BusWord
  b1 : BusWord
  b2 : BusWord
  k : BusWord
  min : BusWord
  max : BusWord
  ssRampT : BusWord
  ssPeriodT : BusWord
  ssDir : BusWord
  slDelta : BusWord
  slSteps : BusWord
  deriving DecidableEq, Repr

/-- R33, R34, R37, R38: the soft-start registers. `acc` and `delta` are `W + SS_FRAC` bits wide; the 32-bit cell holds
them sign-extended and is read through `Params.ssVal` only (assumption log 9). -/
structure SoftStart where
  state : SsState
  dir : SsDir
  n : BusWord
  count : BusWord
  acc : BusWord
  delta : BusWord
  target : Word
  deriving DecidableEq, Repr

/-- R35, R40: the slope generator's registers. -/
structure Slope where
  delta : Word
  steps : BitVec 16
  cur : Word
  cfgd : Bool
  armed : Bool
  deriving DecidableEq, Repr

/-- R52 (b): the output events. -/
inductive OutEvent where
  /-- One call of the threshold actuator's `setThreshold`. -/
  | threshWrite (v : Word)
  /-- One call of the sampler's `triggerSample`. -/
  | sampleTrigger
  deriving DecidableEq, Repr

/-- R52: one item of the output trace: an output event, or the data a bus read returned (assumption log 4). -/
inductive Output where
  | event (e : OutEvent)
  | readResult (v : BusWord)
  deriving DecidableEq, Repr

/-- The operands the sequencer presents to the arithmetic unit (40_arith.md R101 to R107), as unbounded integers
(R108, assumption log 6). A micro-operation reads the ones its rule names. -/
structure AluOperands where
  /-- `a` of FX_SUB, FX_MUL, FX_MAC, FX_ADDS. -/
  a : Int
  /-- `b` of FX_SUB, FX_MUL, FX_MAC, FX_ADDS. -/
  b : Int
  /-- `acc` of FX_MAC. -/
  acc : Int
  /-- `x` of FX_SHIFT, FX_SAT, FX_SATW. -/
  x : Int
  /-- `s` of FX_SHIFT. -/
  s : Nat
  /-- `lo` of FX_SAT. -/
  lo : Word
  /-- `hi` of FX_SAT. -/
  hi : Word
  deriving DecidableEq, Repr

/-- All operand ports at 0. -/
def AluOperands.zero : AluOperands :=
  { a := 0, b := 0, acc := 0, x := 0, s := 0, lo := 0, hi := 0 }

/-- The arithmetic unit's ports: the operands in place and the last result (assumption log 5). -/
structure AluPorts where
  operands : AluOperands
  result : Int
  deriving DecidableEq, Repr

/-- R48: what can arrive at the block: a bus frame, an assertion of `rst` (R220), or the sequencer's issue of one
micro-operation with its operands (R91, assumption log 5). -/
inductive Input where
  | frame (f : Frame)
  | rst
  | alu (op : AluOp) (operands : AluOperands)
  deriving DecidableEq, Repr

/-- R195: the outcomes with no successor state. All are safe: the model stops where hardware would do something no
source describes. -/
inductive Fault where
  /-- An operation issued in a state where it is not valid; raised by every operation but `RD` and the
  micro-operations (R196). Safe. -/
  | seqFault
  /-- A period event while a sample is in flight; raised by `EV_PERIOD` (R175). Safe. -/
  | timingFault
  /-- A frame that decodes to no operation, or an access to an address without that access; raised by the fetch, `RD`
  and `WR` (R89). Safe. -/
  | illegalFrame
  deriving DecidableEq, Repr

/-- Why the model gives a word no meaning. -/
inductive Refusal where
  /-- An instruction without a meaning yet; raised by the dispatch only. Safe. -/
  | notModelled (mnemonic : String)
  /-- The operation select 7, reserved and never issued (R91); raised by the fetch. Safe (assumption log 7). -/
  | reservedAluOp
  deriving DecidableEq, Repr

/-- R20: the state of the block. -/
structure State where
  /-- The parameters the block was built with (R10 to R12; the model's own field, assumption log 1). -/
  cfg : Params
  /-- `LIFE` (R31). -/
  life : Life
  /-- `ORCH` (R32). -/
  orch : Orch
  /-- The active configuration (R21). -/
  act : ActiveCfg
  /-- `E1, E2, U1, U2, PRE` (R22, R23). -/
  hist : History
  /-- `FDBK` (R24). -/
  fdbk : Word
  /-- `OUT` (R25). -/
  out : Word
  /-- `THRESH` (R26). -/
  thresh : Word
  /-- The staging registers (R27 to R29). -/
  stg : Staging
  /-- The soft-start (R33, R34, R37, R38). -/
  ss : SoftStart
  /-- The slope generator (R35, R40). -/
  sl : Slope
  /-- `ERR` (R42). -/
  err : BusWord
  /-- The output trace, oldest first (R52). -/
  trace : List Output
  /-- The arithmetic unit's ports (the model's own field, assumption log 5). -/
  alu : AluPorts
  /-- The inputs not yet taken, next one first (the model's own field, assumption log 2). -/
  inputs : List Input
  deriving DecidableEq, Repr

/-- The three outcomes of an operation (00_scope.md R17). -/
abbrev Outcome := Host.Outcome State Fault Refusal

def ActiveCfg.zero : ActiveCfg :=
  { ref := 0, a1 := 0, a2 := 0, b0 := 0, b1 := 0, b2 := 0, k := 0, min := 0, max := 0 }

def History.zero : History := { e1 := 0, e2 := 0, u1 := 0, u2 := 0, pre := 0 }

def Staging.zero : Staging :=
  { ref := 0, a1 := 0, a2 := 0, b0 := 0, b1 := 0, b2 := 0, k := 0, min := 0, max := 0,
    ssRampT := 0, ssPeriodT := 0, ssDir := 0, slDelta := 0, slSteps := 0 }

def SoftStart.zero : SoftStart :=
  { state := .notStarted, dir := .unset, n := 0, count := 0, acc := 0, delta := 0, target := 0 }

def Slope.zero : Slope := { delta := 0, steps := 0, cur := 0, cfgd := false, armed := false }

/-- R49, R220: every register at its reset value, for a block built with parameters `p` and inputs still waiting. -/
def State.resetWith (p : Params) (waiting : List Input) : State :=
  { cfg := p
    life := .uninit
    orch := .idle
    act := .zero
    hist := .zero
    fdbk := 0
    out := 0
    thresh := 0
    stg := .zero
    ss := .zero
    sl := .zero
    err := 0
    trace := []
    alu := { operands := .zero, result := 0 }
    inputs := waiting }

/-- The machine right after reset: R49's values, the reference configuration of 00_scope.md R13 (assumption log 1) and no
input waiting (assumption log 2). -/
def State.reset : State := State.resetWith Params.refCfg []

end Sys2Proof.Machine
end

