-- ==== Sys2Proof/Machine/Ops.lean ====
section
/-!
DEFINITION. The operations the meanings share: the fixed-point arithmetic unit's functions (40_arith.md), the output trace
(10_state.md R52), the configuration error (60_exceptions.md R191), the hardware reset (70_reset_and_hazards.md R220), the
soft-start cells (10_state.md R38) and the gates of 44_control.md R178.
-/

namespace Sys2Proof.Machine

/-! ## The arithmetic unit (40_arith.md R101 to R107), on mathematical integers (00_scope.md R18) -/

/-- R101: the exact difference. -/
def fxSub (a b : Int) : Int := a - b

/-- R102: the exact product. -/
def fxMul (a b : Int) : Int := a * b

/-- R103: the exact multiply-accumulate. -/
def fxMac (acc a b : Int) : Int := acc + a * b

/-- R104: drop `s` fraction bits, rounding as `rnd` says. Integer division by a positive number is the floor of the
quotient, for a negative dividend too. -/
def fxShift (rnd : Rounding) (x : Int) (s : Nat) : Int :=
  if s = 0 then x
  else
    match rnd with
    | .trunc => x / 2 ^ s
    | .nearest => (x + 2 ^ (s - 1)) / 2 ^ s

/-- R105: clamp to `[lo, hi]`; the upper bound wins when `lo > hi`. -/
def fxSat (x lo hi : Int) : Int := min (max x lo) hi

/-- R106: saturate to the range of a scaled word. -/
def fxSatw (x : Int) : Int := fxSat x (-32768) 32767

/-- R107: the slope ramp's saturating addition. -/
def fxAdds (a b : Int) : Int := fxSatw (a + b)

/-- R111: unsigned division, rounding down; the callers never pass a zero divisor. -/
def udiv (a b : BusWord) : BusWord := BitVec.ofNat 32 (a.toNat / b.toNat)

/-- R111: signed division by a positive number, rounding toward zero. -/
def sdiv (a : Int) (b : Nat) : Int := Int.tdiv a b

/-- A scaled word holding an integer of its range (two's complement, R15). -/
def toWord (x : Int) : Word := BitVec.ofInt 16 x

/-! ## The soft-start cells (10_state.md R38, assumption log 9) -/

/-- The signed value of a `W + SS_FRAC`-bit cell. -/
def ssVal (p : Params) (cell : BusWord) : Int := (cell.setWidth p.ssWidth).toInt

/-- A `W + SS_FRAC`-bit cell holding an integer, sign-extended to 32 bits. -/
def ssCell (p : Params) (x : Int) : BusWord := (BitVec.ofInt p.ssWidth x).signExtend 32

/-- An output-format integer in the soft-start's scale: `x * 2^SS_FRAC` (42_softstart.md R141). -/
def ssScale (p : Params) (x : Int) : Int := x * 2 ^ p.ssFrac.val

/-! ## The output trace (10_state.md R52) -/

/-- `emit E` (00_scope.md R17). -/
def State.emit (s : State) (e : OutEvent) : State := { s with trace := s.trace ++ [.event e] }

/-- The data of a bus read, returned to the host (44_control.md R171). -/
def State.returnRead (s : State) (v : BusWord) : State := { s with trace := s.trace ++ [.readResult v] }

/-! ## The configuration error (60_exceptions.md R191) and the hardware reset (70_reset_and_hazards.md R220) -/

/-- R191: `raise CfgError(code, info)`: `ERR` and `LIFE` are written and nothing else; the caller ends with it, before
its first write. -/
def State.raiseCfgError (s : State) (code info : BitVec 8) : State :=
  { s with err := code.setWidth 32 + info.setWidth 32 * 256, life := .cfgError }

/-- R220: the only way out of `CfgError`: every register at its reset value. The parameters the block was built with and
the inputs still waiting are no registers and stay (assumption logs 1, 3). -/
def State.resetPin (s : State) : State := State.resetWith s.cfg s.inputs

/-! ## Gates (44_control.md R178) -/

/-- "Running, manual": `LIFE = Running` and `ORCH = Idle`. -/
def State.manual (s : State) : Bool := s.life == .running && s.orch == .idle

/-- "Running, orchestrated": `LIFE = Running` and `ORCH != Idle`; the one enable of the three events (R198). -/
def State.orchestrated (s : State) : Bool := s.life == .running && s.orch != .idle

/-- R178: an operation of manual mode. -/
def manualGate (s : State) (act : Outcome) : Outcome :=
  if s.manual then act else .fault .seqFault

/-- R198: an event faults in `CfgError`, is lost without effect while masked, and otherwise acts. -/
def eventGate (s : State) (act : Outcome) : Outcome :=
  if s.life = .cfgError then .fault .seqFault
  else if s.orchestrated then act
  else .next s

end Sys2Proof.Machine
end

