-- ==== Sys2Proof/Machine/Flags.lean ====
section
/-!
DEFINITION. The views of the flag state and of the soft-start: `STATUS` (10_state.md R41), `SS_LIMIT` (R39) and the upper clamp
bound `ss_hi` (42_softstart.md R144). The block has no arithmetic flag (10_state.md R36): no operation computes one.
-/

namespace Sys2Proof.Machine

/-- R31: the code of `LIFE` in `STATUS[1:0]`. -/
def Life.code : Life → Nat
  | .uninit => 0
  | .initialized => 1
  | .running => 2
  | .cfgError => 3

/-- R32: the code of `ORCH` in `STATUS[3:2]`. -/
def Orch.code : Orch → Nat
  | .idle => 0
  | .armed => 1
  | .sampleInFlight => 2
  | .computeAndActuate => 3

/-- R33: the code of `SS_STATE` in `STATUS[5:4]`. -/
def SsState.code : SsState → Nat
  | .notStarted => 0
  | .ramping => 1
  | .settled => 2

/-- R34: the code of `SS_DIR` in `STATUS[7:6]`. -/
def SsDir.code : SsDir → Nat
  | .unset => 0
  | .up => 1
  | .down => 2

/-- R28: the direction a value of `C_SS_DIR` names; every value but 1 and 2 is undefined. -/
def SsDir.ofStaging (v : BusWord) : Option SsDir :=
  if v = 1 then some .up else if v = 2 then some .down else none

/-- R41: the read-only view `STATUS`; bits 31:10 read as 0. -/
def State.status (s : State) : BusWord :=
  BitVec.ofNat 32 (s.life.code + s.orch.code * 2 ^ 2 + s.ss.state.code * 2 ^ 4 + s.ss.dir.code * 2 ^ 6
    + s.sl.cfgd.toNat * 2 ^ 8 + s.sl.armed.toNat * 2 ^ 9)

/-- R39: `SS_LIMIT = floor(SS_ACC / 2^SS_FRAC)`, always floor (42_softstart.md R141). -/
def State.ssLimit (s : State) : Int := ssVal s.cfg s.ss.acc / 2 ^ s.cfg.ssFrac.val

/-- 42_softstart.md R144: the upper clamp bound of `UPDATE`. -/
def State.ssHi (s : State) : Int :=
  match s.ss.state with
  | .notStarted => s.act.max.toInt
  | .ramping | .settled => min s.act.max.toInt s.ssLimit

end Sys2Proof.Machine
end

