-- ==== Sys2Proof/Machine/Operands.lean ====
section
/-!
DEFINITION. The register space (20_memory.md R60 to R63): the names of the mapped words, the map of R61, and the one read and
the one write through it. An operand of the bus operations is a word address (30_encoding.md R87); there is no other
addressing mode, and no byte access (R64, R65).
-/

namespace Sys2Proof.Machine

/-- R61: the named words of the register space. -/
inductive Reg where
  | cmd | status | err | fdbk | out | thresh
  | cRef | cA1 | cA2 | cB0 | cB1 | cB2 | cK | cMin | cMax
  | cSsRampT | cSsPeriodT | cSsDir | cSlDelta | cSlSteps
  | ref | a1 | a2 | b0 | b1 | b2 | k | min | max
  | e1 | e2 | u1 | u2
  | ssN | ssDelta | ssCount | ssAcc | ssTarget | ssLimit
  | slDelta | slSteps | slCur
  deriving DecidableEq, Repr

/-- R61, column `acc`. -/
inductive Access where
  | read
  | write
  | readWrite
  deriving DecidableEq, Repr

/-- One row of R61. -/
structure RegRow where
  addr : Addr
  reg : Reg
  name : String
  acc : Access
  deriving DecidableEq, Repr

/-- R61: the register map, row for row. -/
def regMap : List RegRow :=
  [⟨0x00, .cmd, "CMD", .write⟩,
   ⟨0x01, .status, "STATUS", .read⟩,
   ⟨0x02, .err, "ERR", .read⟩,
   ⟨0x03, .fdbk, "FDBK", .readWrite⟩,
   ⟨0x04, .out, "OUT", .read⟩,
   ⟨0x05, .thresh, "THRESH", .read⟩,
   ⟨0x10, .cRef, "C_REF", .readWrite⟩,
   ⟨0x11, .cA1, "C_A1", .readWrite⟩,
   ⟨0x12, .cA2, "C_A2", .readWrite⟩,
   ⟨0x13, .cB0, "C_B0", .readWrite⟩,
   ⟨0x14, .cB1, "C_B1", .readWrite⟩,
   ⟨0x15, .cB2, "C_B2", .readWrite⟩,
   ⟨0x16, .cK, "C_K", .readWrite⟩,
   ⟨0x17, .cMin, "C_MIN", .readWrite⟩,
   ⟨0x18, .cMax, "C_MAX", .readWrite⟩,
   ⟨0x20, .cSsRampT, "C_SS_RAMP_T", .readWrite⟩,
   ⟨0x21, .cSsPeriodT, "C_SS_PERIOD_T", .readWrite⟩,
   ⟨0x22, .cSsDir, "C_SS_DIR", .readWrite⟩,
   ⟨0x28, .cSlDelta, "C_SL_DELTA", .readWrite⟩,
   ⟨0x29, .cSlSteps, "C_SL_STEPS", .readWrite⟩] ++
  [⟨0x30, .ref, "REF", .read⟩,
   ⟨0x31, .a1, "A1", .read⟩,
   ⟨0x32, .a2, "A2", .read⟩,
   ⟨0x33, .b0, "B0", .read⟩,
   ⟨0x34, .b1, "B1", .read⟩,
   ⟨0x35, .b2, "B2", .read⟩,
   ⟨0x36, .k, "K", .read⟩,
   ⟨0x37, .min, "MIN", .read⟩,
   ⟨0x38, .max, "MAX", .read⟩,
   ⟨0x40, .e1, "E1", .read⟩,
   ⟨0x41, .e2, "E2", .read⟩,
   ⟨0x42, .u1, "U1", .read⟩,
   ⟨0x43, .u2, "U2", .read⟩,
   ⟨0x50, .ssN, "SS_N", .read⟩,
   ⟨0x51, .ssDelta, "SS_DELTA", .read⟩,
   ⟨0x52, .ssCount, "SS_COUNT", .read⟩,
   ⟨0x53, .ssAcc, "SS_ACC", .read⟩,
   ⟨0x54, .ssTarget, "SS_TARGET", .read⟩,
   ⟨0x55, .ssLimit, "SS_LIMIT", .read⟩,
   ⟨0x58, .slDelta, "SL_DELTA", .read⟩,
   ⟨0x59, .slSteps, "SL_STEPS", .read⟩,
   ⟨0x5A, .slCur, "SL_CUR", .read⟩]

/-- The access a row's `acc` gives a read. -/
def Access.canRead : Access → Bool
  | .read | .readWrite => true
  | .write => false

/-- The access a row's `acc` gives a write. -/
def Access.canWrite : Access → Bool
  | .write | .readWrite => true
  | .read => false

/-- The row of an address, if it is mapped. -/
def rowAt (addr : Addr) : Option RegRow := regMap.find? (fun r => r.addr == addr)

/-- R62: the register a read of an address is legal on. -/
def readableAt (addr : Addr) : Option Reg :=
  match rowAt addr with
  | some r => if r.acc.canRead then some r.reg else none
  | none => none

/-- R63, R170: the register a `WR` to an address is legal on. `CMD` is not among them: a write to `0x00` is a command and
no `WR` (30_encoding.md R82; assumption log 11). -/
def writableAt (addr : Addr) : Option Reg :=
  match rowAt addr with
  | some r => if r.acc.canWrite && r.reg != .cmd then some r.reg else none
  | none => none

/-- R61, R62: the value a read of a register returns: a signed register narrower than the bus sign-extended, an unsigned
one zero-extended. `CMD` holds nothing (10_state.md R43) and no read reaches it. -/
def State.readReg (s : State) : Reg → BusWord
  | .cmd => 0
  | .status => s.status
  | .err => s.err
  | .fdbk => s.fdbk.signExtend 32
  | .out => s.out.signExtend 32
  | .thresh => s.thresh.signExtend 32
  | .cRef => s.stg.ref
  | .cA1 => s.stg.a1
  | .cA2 => s.stg.a2
  | .cB0 => s.stg.b0
  | .cB1 => s.stg.b1
  | .cB2 => s.stg.b2
  | .cK => s.stg.k
  | .cMin => s.stg.min
  | .cMax => s.stg.max
  | .cSsRampT => s.stg.ssRampT
  | .cSsPeriodT => s.stg.ssPeriodT
  | .cSsDir => s.stg.ssDir
  | .cSlDelta => s.stg.slDelta
  | .cSlSteps => s.stg.slSteps
  | .ref => s.act.ref.signExtend 32
  | .a1 => s.act.a1.signExtend 32
  | .a2 => s.act.a2.signExtend 32
  | .b0 => s.act.b0.signExtend 32
  | .b1 => s.act.b1.signExtend 32
  | .b2 => s.act.b2.signExtend 32
  | .k => s.act.k.signExtend 32
  | .min => s.act.min.signExtend 32
  | .max => s.act.max.signExtend 32
  | .e1 => s.hist.e1.signExtend 32
  | .e2 => s.hist.e2.signExtend 32
  | .u1 => s.hist.u1.signExtend 32
  | .u2 => s.hist.u2.signExtend 32
  | .ssN => s.ss.n
  | .ssDelta => BitVec.ofInt 32 (ssVal s.cfg s.ss.delta)
  | .ssCount => s.ss.count
  | .ssAcc => BitVec.ofInt 32 (ssVal s.cfg s.ss.acc)
  | .ssTarget => s.ss.target.signExtend 32
  | .ssLimit => BitVec.ofInt 32 s.ssLimit
  | .slDelta => s.sl.delta.signExtend 32
  | .slSteps => s.sl.steps.setWidth 32
  | .slCur => s.sl.cur.signExtend 32

/-- R63, R170: the store of a `WR`. `FDBK` saturates the signed 32-bit value (R63); a staging register takes all 32
bits, whether it is read as signed or unsigned. No other register can be written, and a write to one changes nothing. -/
def State.writeReg (s : State) (r : Reg) (v : BusWord) : State :=
  match r with
  | .fdbk => { s with fdbk := toWord (fxSatw v.toInt) }
  | .cRef => { s with stg := { s.stg with ref := v } }
  | .cA1 => { s with stg := { s.stg with a1 := v } }
  | .cA2 => { s with stg := { s.stg with a2 := v } }
  | .cB0 => { s with stg := { s.stg with b0 := v } }
  | .cB1 => { s with stg := { s.stg with b1 := v } }
  | .cB2 => { s with stg := { s.stg with b2 := v } }
  | .cK => { s with stg := { s.stg with k := v } }
  | .cMin => { s with stg := { s.stg with min := v } }
  | .cMax => { s with stg := { s.stg with max := v } }
  | .cSsRampT => { s with stg := { s.stg with ssRampT := v } }
  | .cSsPeriodT => { s with stg := { s.stg with ssPeriodT := v } }
  | .cSsDir => { s with stg := { s.stg with ssDir := v } }
  | .cSlDelta => { s with stg := { s.stg with slDelta := v } }
  | .cSlSteps => { s with stg := { s.stg with slSteps := v } }
  | .cmd | .status | .err | .out | .thresh
  | .ref | .a1 | .a2 | .b0 | .b1 | .b2 | .k | .min | .max
  | .e1 | .e2 | .u1 | .u2
  | .ssN | .ssDelta | .ssCount | .ssAcc | .ssTarget | .ssLimit
  | .slDelta | .slSteps | .slCur => s

end Sys2Proof.Machine
end

