-- ==== Sys2Proof/Machine/Arith.lean ====
section
/-!
DEFINITION. The meanings of the seven arithmetic micro-operations (40_arith.md R101 to R107): each reads the operand ports its
rule names and puts its result on the result port. No flag, no exception, no other effect (R110). The operations of
the datapath use the same functions of Ops.lean and leave the ports alone (10_state.md R44; assumption log 5).
-/

namespace Sys2Proof.Machine

/-- The result of a micro-operation on the result port. -/
def State.setAluResult (s : State) (r : Int) : State := { s with alu := { s.alu with result := r } }

/-- R101. -/
def execFxSub (s : State) : Outcome :=
  .next (s.setAluResult (fxSub s.alu.operands.a s.alu.operands.b))

/-- R102. -/
def execFxMul (s : State) : Outcome :=
  .next (s.setAluResult (fxMul s.alu.operands.a s.alu.operands.b))

/-- R103. -/
def execFxMac (s : State) : Outcome :=
  .next (s.setAluResult (fxMac s.alu.operands.acc s.alu.operands.a s.alu.operands.b))

/-- R104, with the block's rounding `RND`. -/
def execFxShift (s : State) : Outcome :=
  .next (s.setAluResult (fxShift s.cfg.rnd s.alu.operands.x s.alu.operands.s))

/-- R105. -/
def execFxSat (s : State) : Outcome :=
  .next (s.setAluResult (fxSat s.alu.operands.x s.alu.operands.lo.toInt s.alu.operands.hi.toInt))

/-- R106. -/
def execFxSatw (s : State) : Outcome :=
  .next (s.setAluResult (fxSatw s.alu.operands.x))

/-- R107. -/
def execFxAdds (s : State) : Outcome :=
  .next (s.setAluResult (fxAdds s.alu.operands.a s.alu.operands.b))

end Sys2Proof.Machine
end

