-- ==== Sys2Proof/Machine/Compensator.lean ====
section
/-!
DEFINITION. The 2p2z compensator and the output limiter (41_compensator.md): the procedure `DoUpdate`, which `UPDATE` and
`EV_SAMPLE` run, and the meaning of `UPDATE`.
-/

namespace Sys2Proof.Machine

/-- R121: the error, exact in 17 bits. -/
def State.errorNow (s : State) : Int := fxSub s.act.ref.toInt s.fdbk.toInt

/-- R122: the filter output before narrowing: the accumulation on `PRE`, then one shift by `F_C`. -/
def State.filterOut (s : State) : Int :=
  fxShift s.cfg.rnd (fxMac s.hist.pre.toInt s.act.b0.toInt s.errorNow) s.cfg.shU

/-- R123: the gain on the wide filter output, then one shift by `F_C + F_S - F_O`. -/
def State.gainOut (s : State) : Int :=
  fxShift s.cfg.rnd (fxMul s.act.k.toInt s.filterOut) s.cfg.shO

/-- R124: the one clamp to the configured bounds. -/
def State.clampedOut (s : State) : Int := fxSat s.gainOut s.act.min.toInt s.ssHi

/-- R126: the contraction of a history with the pole and the two older zero coefficients, exact. -/
def partialSum (c : ActiveCfg) (h : History) : Int :=
  fxMac (fxMac (fxMac (fxMul c.a1.toInt h.u1.toInt) c.a2.toInt h.u2.toInt) c.b1.toInt h.e1.toInt) c.b2.toInt h.e2.toInt

/-- R125: the history shift, two deep; the newest filter output saturates into its 16 bits, the error is kept whole.
`PRE` is still the previous one. -/
def State.shiftedHistory (s : State) : History :=
  { s.hist with
    e2 := s.hist.e1
    e1 := BitVec.ofInt 17 s.errorNow
    u2 := s.hist.u1
    u1 := toWord (fxSatw s.filterOut) }

/-- R125 and R126: the history shift, then the partial sum for the next update. -/
def State.nextHistory (s : State) : History :=
  { s.shiftedHistory with pre := BitVec.ofInt 40 (partialSum s.act s.shiftedHistory) }

/-- R128, `DoUpdate`, with R127's hand-over to the slope generator and the threshold actuator. -/
def State.doUpdate (s : State) : State :=
  let o := toWord s.clampedOut
  State.emit
    { s with
      out := o
      hist := s.nextHistory
      sl := { s.sl with cur := o, armed := true }
      thresh := o }
    (.threshWrite o)

/-- R128: `UPDATE`, an operation of manual mode. -/
def execUpdate (s : State) : Outcome := manualGate s (.next s.doUpdate)

end Sys2Proof.Machine
end

