-- ==== Sys2Proof/Machine/Slope.lean ====
section
/-!
DEFINITION. The slope-compensation ramp (43_slope.md): its configuration, the procedure `DoSlRun`, which `SL_RUN` and
`EV_SLOPE` run, and the meanings of `SL_CFG` and `SL_RUN`.
-/

namespace Sys2Proof.Machine

/-- Whether an integer is in the range of a scaled word, [-32768, 32767]. -/
def fitsWord (x : Int) : Bool := -32768 ≤ x && x ≤ 32767

/-- R156: `SL_CFG`; `delta` is checked first, and both checks come before any write. -/
def execSlCfg (s : State) : Outcome :=
  if s.life ≠ .uninit ∧ s.life ≠ .initialized then .fault .seqFault
  else if fitsWord s.stg.slDelta.toInt = false then .next (s.raiseCfgError 4 0x28)
  else if 65535 < s.stg.slSteps.toNat then .next (s.raiseCfgError 4 0x29)
  else
    .next { s with sl :=
      { s.sl with
        delta := toWord s.stg.slDelta.toInt
        steps := s.stg.slSteps.setWidth 16
        cfgd := true } }

/-- R157, one turn of the ramp's loop: a saturating addition (R159) and a threshold write. -/
def State.slopeStep (s : State) : State :=
  let v := toWord (fxAdds s.sl.cur.toInt s.sl.delta.toInt)
  State.emit { s with sl := { s.sl with cur := v }, thresh := v } (.threshWrite v)

/-- R157: the ramp's loop. -/
def State.slopeLoop : Nat → State → State
  | 0, s => s
  | n + 1, s => State.slopeLoop n s.slopeStep

/-- R157, the run once it is allowed: `SL_STEPS` turns, then `SL_ARMED` cleared. -/
def State.slopeRun (s : State) : State :=
  let t := State.slopeLoop s.sl.steps.toNat s
  { t with sl := { t.sl with armed := false } }

/-- R157, `DoSlRun`: needs a configuration and an update since the last run (R160). -/
def State.doSlRun (s : State) : Outcome :=
  if s.sl.cfgd && s.sl.armed then .next s.slopeRun else .fault .seqFault

/-- R157: `SL_RUN`, an operation of manual mode. -/
def execSlRun (s : State) : Outcome := manualGate s s.doSlRun

end Sys2Proof.Machine
end

