-- ==== Sys2Proof/Machine/SoftStart.lean ====
section
/-!
DEFINITION. The soft-start ramp (42_softstart.md): arming, the per-period step `DoSsStep`, which `SS_STEP` and `EV_SAMPLE` run,
and the meanings of `SS_ARM` and `SS_STEP`. What the compensator reads of it, `ss_hi`, is in Flags.lean (R144).
-/

namespace Sys2Proof.Machine

/-- R142: the target of a ramp in a direction: the active `MAX` up, 0 down. -/
def State.rampTarget (s : State) (dir : SsDir) : Word := if dir = .up then s.act.max else 0

/-- R142: where a ramp in a direction starts: 0 up, `MAX` down, in the accumulator's scale. -/
def State.rampStart (s : State) (dir : SsDir) : Int :=
  if dir = .up then 0 else ssScale s.cfg s.act.max.toInt

/-- R142, after both checks: latch the direction and the length, and settle at once when `N = 0` (R146), else start
ramping. -/
def State.armSoftStart (s : State) (dir : SsDir) : State :=
  let n := udiv s.stg.ssRampT s.stg.ssPeriodT
  if n = 0 then
    { s with ss :=
        { state := .settled, dir := dir, n := n, count := 0
          target := s.rampTarget dir
          delta := ssCell s.cfg 0
          acc := ssCell s.cfg (ssScale s.cfg (s.rampTarget dir).toInt) } }
  else
    { s with ss :=
        { state := .ramping, dir := dir, n := n, count := 0
          target := s.rampTarget dir
          delta := ssCell s.cfg (sdiv (ssScale s.cfg s.act.max.toInt) n.toNat)
          acc := ssCell s.cfg (s.rampStart dir) } }

/-- R142: `SS_ARM`. -/
def execSsArm (s : State) : Outcome :=
  if s.life ≠ .initialized ∧ s.life ≠ .running then .fault .seqFault
  else
    match SsDir.ofStaging s.stg.ssDir with
    | none => .next (s.raiseCfgError 2 0x22)
    | some dir =>
      if s.stg.ssPeriodT = 0 then .next (s.raiseCfgError 3 0x21)
      else .next (s.armSoftStart dir)

/-- R143, first bullet: while `SS_COUNT < SS_N`, move the accumulator by `SS_DELTA` and count. -/
def State.ssAdvance (s : State) : State :=
  if s.ss.count < s.ss.n then
    { s with ss :=
        { s.ss with
          acc := ssCell s.cfg
            (if s.ss.dir = .up then ssVal s.cfg s.ss.acc + ssVal s.cfg s.ss.delta
             else ssVal s.cfg s.ss.acc - ssVal s.cfg s.ss.delta)
          count := s.ss.count + 1 } }
  else s

/-- R143, second bullet: at `SS_COUNT = SS_N`, overwrite the accumulator with the target and settle. -/
def State.ssSettle (s : State) : State :=
  if s.ss.count = s.ss.n then
    { s with ss := { s.ss with acc := ssCell s.cfg (ssScale s.cfg s.ss.target.toInt), state := .settled } }
  else s

/-- R143, `DoSsStep`: both bullets one after the other while ramping; nothing otherwise. -/
def State.doSsStep (s : State) : State :=
  match s.ss.state with
  | .ramping => s.ssAdvance.ssSettle
  | .notStarted | .settled => s

/-- R143: `SS_STEP`, an operation of manual mode. -/
def execSsStep (s : State) : Outcome := manualGate s (.next s.doSsStep)

end Sys2Proof.Machine
end

