-- ==== Sys2Proof/Machine/Control.lean ====
section
/-!
DEFINITION. Bus access, the lifecycle commands and the three events (44_control.md R170 to R177). An event is the block's
interrupt: taking one saves nothing and switches no mode, and its handler runs to its end (60_exceptions.md R200, R201).
-/

namespace Sys2Proof.Machine

/-! ## Loads and stores -/

/-- R171: `RD`, legal in every state; the result goes to the host and no register changes. -/
def execRd (addr : Addr) (s : State) : Outcome :=
  match readableAt addr with
  | some r => .next (s.returnRead (s.readReg r))
  | none => .fault .illegalFrame

/-- R170: `WR`; the state check comes before the address check (60_exceptions.md R196). -/
def execWr (addr : Addr) (v : BusWord) (s : State) : Outcome :=
  if s.life = .cfgError then .fault .seqFault
  else
    match writableAt addr with
    | some r => .next (s.writeReg r v)
    | none => .fault .illegalFrame

/-! ## Lifecycle -/

/-- R172: the nine staging registers `INIT` checks, with their addresses, in rising order. -/
def Staging.initArgs (g : Staging) : List (BitVec 8 × BusWord) :=
  [(0x10, g.ref), (0x11, g.a1), (0x12, g.a2), (0x13, g.b0), (0x14, g.b1), (0x15, g.b2),
   (0x16, g.k), (0x17, g.min), (0x18, g.max)]

/-- R172: the lowest address whose staging value is out of the range of a scaled word. -/
def Staging.firstUnfit (g : Staging) : Option (BitVec 8) :=
  (g.initArgs.find? (fun p => !fitsWord p.2.toInt)).map Prod.fst

/-- R49, last column: the low 16 bits of the nine staging values. -/
def Staging.latch (g : Staging) : ActiveCfg :=
  { ref := g.ref.setWidth 16, a1 := g.a1.setWidth 16, a2 := g.a2.setWidth 16
    b0 := g.b0.setWidth 16, b1 := g.b1.setWidth 16, b2 := g.b2.setWidth 16
    k := g.k.setWidth 16, min := g.min.setWidth 16, max := g.max.setWidth 16 }

/-- R172, after the checks: latch the configuration, zero the history, the sample, the output and the soft-start, disarm
the slope and return to `Initialized` with the orchestrator idle. -/
def State.initialize (s : State) : State :=
  { s with
    act := s.stg.latch
    hist := .zero
    fdbk := 0
    out := 0
    ss := .zero
    sl := { s.sl with armed := false }
    life := .initialized
    orch := .idle }

/-- R172: `INIT`, in any `ORCH` state (assumption log 19); all checks come before any write. -/
def execInit (s : State) : Outcome :=
  if s.life = .cfgError then .fault .seqFault
  else
    match s.stg.firstUnfit with
    | some addr => .next (s.raiseCfgError 1 addr)
    | none => .next s.initialize

/-- R173: `START`. -/
def execStart (s : State) : Outcome :=
  if s.life ≠ .initialized then .fault .seqFault else .next { s with life := .running }

/-- R174: `ORCH_EN`. -/
def execOrchEn (s : State) : Outcome := manualGate s (.next { s with orch := .armed })

/-! ## Events -/

/-- R175: `EV_PERIOD`; outside `Armed` the previous cycle has not finished. -/
def execEvPeriod (s : State) : Outcome :=
  eventGate s
    (if s.orch ≠ .armed then .fault .timingFault
     else .next (State.emit { s with orch := .sampleInFlight } .sampleTrigger))

/-- R176, the handler: read the feedback, update, step the soft-start, wait for the next trigger. -/
def State.sampleHandler (s : State) (imm : Word) : State :=
  let t := (State.doUpdate { s with orch := .computeAndActuate, fdbk := imm }).doSsStep
  { t with orch := .armed }

/-- R176: `EV_SAMPLE`; a sample nobody triggered faults. -/
def execEvSample (imm : Word) (s : State) : Outcome :=
  eventGate s (if s.orch ≠ .sampleInFlight then .fault .seqFault else .next (s.sampleHandler imm))

/-- R177: `EV_SLOPE`; the orchestrator's state is not changed. -/
def execEvSlope (s : State) : Outcome := eventGate s s.doSlRun

end Sys2Proof.Machine
end

