-- ==== Sys2Proof/Machine/Dispatch.lean ====
section
/-!
DEFINITION. One arm per operation (30_encoding.md R80): each calls its meaning.
-/

namespace Sys2Proof.Machine

def exec (i : Instr) (s : State) : Host.Outcome State Fault Refusal :=
  match i with
  | .rd addr => Sys2Proof.Machine.execRd addr s
  | .wr addr data => Sys2Proof.Machine.execWr addr data s
  | .init => Sys2Proof.Machine.execInit s
  | .start => Sys2Proof.Machine.execStart s
  | .ssArm => Sys2Proof.Machine.execSsArm s
  | .slCfg => Sys2Proof.Machine.execSlCfg s
  | .orchEn => Sys2Proof.Machine.execOrchEn s
  | .update => Sys2Proof.Machine.execUpdate s
  | .ssStep => Sys2Proof.Machine.execSsStep s
  | .slRun => Sys2Proof.Machine.execSlRun s
  | .evPeriod => Sys2Proof.Machine.execEvPeriod s
  | .evSample imm => Sys2Proof.Machine.execEvSample imm s
  | .evSlope => Sys2Proof.Machine.execEvSlope s
  | .fxSub => Sys2Proof.Machine.execFxSub s
  | .fxMul => Sys2Proof.Machine.execFxMul s
  | .fxMac => Sys2Proof.Machine.execFxMac s
  | .fxShift => Sys2Proof.Machine.execFxShift s
  | .fxSat => Sys2Proof.Machine.execFxSat s
  | .fxSatw => Sys2Proof.Machine.execFxSatw s
  | .fxAdds => Sys2Proof.Machine.execFxAdds s

end Sys2Proof.Machine
end

