-- ==== Sys2Proof/Machine/Fetch.lean ====
section
/-!
DEFINITION. Taking the next input (20_memory.md R66, R69; 10_state.md R48): one input a step, taken off the stream before it
acts. There is no program counter and no instruction memory (10_state.md R30).
-/

namespace Sys2Proof.Machine

/-- What the next input turns out to be. -/
inductive Fetched where
  /-- Nothing has arrived. -/
  | idle
  /-- The pin `rst`, with the input taken off the stream. -/
  | reset (s : State)
  /-- An operation, with the input taken off the stream and a micro-operation's operands on the ports. -/
  | run (i : Instr) (s : State)
  /-- A frame that stands for no operation (R89). -/
  | illegal
  /-- The reserved operation select (R91). -/
  | reserved
  deriving DecidableEq, Repr

/-- A frame off the stream (30_encoding.md R82). -/
def fetchFrame (f : Frame) (s : State) : Fetched :=
  match decode (.frame f) with
  | .ok i => .run i s
  | .error _ => .illegal

/-- A micro-operation issue off the stream: its operands go to the ports first (assumption log 5). -/
def fetchAlu (op : AluOp) (operands : AluOperands) (s : State) : Fetched :=
  match decode (.alu op) with
  | .ok i => .run i { s with alu := { s.alu with operands := operands } }
  | .error _ => .reserved

/-- The next input of the stream. -/
def fetch (s : State) : Fetched :=
  match s.inputs with
  | [] => .idle
  | .rst :: rest => .reset { s with inputs := rest }
  | .frame f :: rest => fetchFrame f { s with inputs := rest }
  | .alu op operands :: rest => fetchAlu op operands { s with inputs := rest }

/-- The input that carries a code word: a frame on the bus, or the issue of a micro-operation with operands 0. -/
def inputOf : CodeWord → Input
  | .frame f => .frame f
  | .alu op => .alu op .zero

end Sys2Proof.Machine
end

