-- ==== Sys2Proof/Machine/Step.lean ====
section
/-!
DEFINITION. One step: take the next input and run it to its end (20_memory.md R66). With no input waiting the block holds its
state (60_exceptions.md R212).
-/

namespace Sys2Proof.Machine

/-- One step of the block. -/
def step (s : State) : Host.Outcome State Fault Refusal :=
  match fetch s with
  | .idle => .next s
  | .reset t => .next t.resetPin
  | .run i t => exec i t
  | .illegal => .fault .illegalFrame
  | .reserved => .refused .reservedAluOp

/-- `s` with a table row's word arriving next, before the inputs already waiting; a number that is no word of the block
leaves `s` as it is (assumption logs 2, 17). -/
def State.withFetchWord (s : State) (nbits w : Nat) : State :=
  match codeWordOf nbits w with
  | some c => { s with inputs := inputOf c :: s.inputs }
  | none => s

end Sys2Proof.Machine
end

