-- ==== Sys2Proof/Machine/HostTool.lean ====
section
/-!
DEFINITION. The host's tool that writes frames (30_encoding.md R92 to R95): the literal conversion `Q`, the pseudo-operations and
the assembler line. None of it is in the block; no step calls it.
-/

namespace Sys2Proof.Machine

/-! ## The literal conversion (R95) -/

/-- A real literal as an exact ratio of integers (a decimal literal is one; assumption log 18). -/
structure RealLit where
  num : Int
  den : Nat
  deriving DecidableEq, Repr

/-- `round(v * 2^F)` with a tie rounded away from zero, for a literal with a positive denominator. -/
def RealLit.scaledRound (v : RealLit) (F : Nat) : Int :=
  v.num.sign * ((2 * v.num.natAbs * 2 ^ F + v.den) / (2 * v.den) : Nat)

/-- R95: `Q(v, F)`, or the tool's configuration error. The range check `-2^(15-F) <= v < 2^(15-F)` is made on
`v * 2^F`, so that it is stated for every `F`. -/
def q (v : RealLit) (F : Nat) : Option Int :=
  if v.den = 0 then none
  else if v.num * 2 ^ F < -(2 ^ 15) * v.den ∨ 2 ^ 15 * v.den ≤ v.num * 2 ^ F then none
  else if v.scaledRound F = 32768 then none
  else some (v.scaledRound F)

/-! ## Assembler operands and pseudo-operations (R92, R93) -/

/-- R92: `WR <reg>, <int>`: an integer of `[-2^31, 2^32 - 1]`, encoded as its low 32 bits. -/
def asmWr (addr : Addr) (v : Int) : Option Instr :=
  if -(2 ^ 31) ≤ v ∧ v ≤ 2 ^ 32 - 1 then some (.wr addr (BitVec.ofInt 32 v)) else none

/-- R92: `EV_SAMPLE <int>`: an integer of `[-32768, 32767]`, encoded as its low 16 bits. -/
def asmEvSample (v : Int) : Option Instr :=
  if -32768 ≤ v ∧ v ≤ 32767 then some (.evSample (BitVec.ofInt 16 v)) else none

/-- R93: `WRQ <reg>, <real>, <F>`. -/
def asmWrq (addr : Addr) (v : RealLit) (F : Nat) : Option (List Instr) := do
  let r ← q v F
  let i ← asmWr addr r
  return [i]

/-- The writes of a list of values to a list of registers, in order. -/
def asmWrites : List (Addr × Int) → Option (List Instr)
  | [] => some []
  | (a, v) :: rest => do
    let i ← asmWr a v
    let is ← asmWrites rest
    return i :: is

/-- R93: `CONFIG ref, a1, a2, b0, b1, b2, k, min, max`. -/
def asmConfig (ref a1 a2 b0 b1 b2 k min max : Int) : Option (List Instr) := do
  let ws ← asmWrites [(0x10, ref), (0x11, a1), (0x12, a2), (0x13, b0), (0x14, b1), (0x15, b2), (0x16, k),
    (0x17, min), (0x18, max)]
  return ws ++ [.init]

/-- R93: `SOFTSTART ramp_t, period_t, dir`. -/
def asmSoftStart (rampT periodT dir : Int) : Option (List Instr) := do
  let ws ← asmWrites [(0x20, rampT), (0x21, periodT), (0x22, dir)]
  return ws ++ [.ssArm]

/-- R93: `SLOPE delta, steps`. -/
def asmSlope (delta steps : Int) : Option (List Instr) := do
  let ws ← asmWrites [(0x28, delta), (0x29, steps)]
  return ws ++ [.slCfg]

/-- R93: `MSTEP s`, one period of manual mode. -/
def asmMStep (v : Int) : Option (List Instr) := do
  let w ← asmWr 0x03 v
  return [w, .update, .ssStep]

/-- R93: `CYCLE s`, one period of orchestrated mode. -/
def asmCycle (v : Int) : Option (List Instr) := do
  let e ← asmEvSample v
  return [.evPeriod, e, .evSlope]

/-! ## The assembler line (R92, R94) -/

/-- The value of a digit in a base of at most 16. -/
def digitVal (base : Nat) (c : Char) : Option Nat :=
  let n := c.toNat
  let v :=
    if 48 ≤ n ∧ n ≤ 57 then some (n - 48)
    else if 65 ≤ n ∧ n ≤ 70 then some (n - 55)
    else if 97 ≤ n ∧ n ≤ 102 then some (n - 87)
    else none
  match v with
  | some d => if d < base then some d else none
  | none => none

/-- The number a string of digits spells, after the digits already read. -/
def digitsFrom (base : Nat) : Nat → List Char → Option Nat
  | acc, [] => some acc
  | acc, c :: cs =>
    match digitVal base c with
    | some d => digitsFrom base (acc * base + d) cs
    | none => none

/-- A nonempty string of digits. -/
def digits (base : Nat) : List Char → Option Nat
  | [] => none
  | cs => digitsFrom base 0 cs

/-- R92: a decimal or `0x` number without a sign. -/
def asmNat : List Char → Option Nat
  | '0' :: 'x' :: cs => digits 16 cs
  | cs => digits 10 cs

/-- R92: a decimal or `0x` integer. -/
def asmInt : List Char → Option Int
  | '-' :: cs => (asmNat cs).map (fun n => -(n : Int))
  | cs => (asmNat cs).map (fun n => (n : Int))

/-- A decimal literal without a sign, as digits before and after the point. -/
def asmRealAbs (cs : List Char) : Option RealLit :=
  let whole := cs.takeWhile (· != '.')
  match cs.dropWhile (· != '.') with
  | [] => (digits 10 whole).map (fun n => { num := n, den := 1 })
  | _ :: frac => do
    let w ← digits 10 whole
    let f ← digits 10 frac
    return { num := ((w * 10 ^ frac.length + f : Nat) : Int), den := 10 ^ frac.length }

/-- R93: a real literal of `WRQ`. -/
def asmReal : List Char → Option RealLit
  | '-' :: cs => (asmRealAbs cs).map (fun v => { v with num := -v.num })
  | cs => asmRealAbs cs

/-- R92, R94: a register operand: a name of the map, or the address of one. -/
def asmReg (cs : List Char) : Option Addr :=
  match regMap.find? (fun r => r.name.toList == cs) with
  | some r => some r.addr
  | none =>
    match asmNat cs with
    | some n => if n < 256 then (rowAt (BitVec.ofNat 8 n)).map (·.addr) else none
    | none => none

/-- R92: the bare mnemonics. -/
def bareTable : List (String × Instr) :=
  [("INIT", .init), ("START", .start), ("SS_ARM", .ssArm), ("SL_CFG", .slCfg), ("ORCH_EN", .orchEn),
   ("UPDATE", .update), ("SS_STEP", .ssStep), ("SL_RUN", .slRun), ("EV_PERIOD", .evPeriod), ("EV_SLOPE", .evSlope)]

/-- Blanks at the left taken off. -/
def trimLeft (cs : List Char) : List Char := cs.dropWhile (· == ' ')

/-- Blanks at both ends taken off. -/
def trim (cs : List Char) : List Char := (trimLeft (trimLeft cs).reverse).reverse

/-- The parts of a text between commas, each trimmed. -/
def splitCommas : List Char → List Char → List (List Char)
  | word, [] => [trim word.reverse]
  | word, ',' :: cs => trim word.reverse :: splitCommas [] cs
  | word, c :: cs => splitCommas (c :: word) cs

/-- The arguments of a line: none, or the parts between its commas. -/
def asmArgs (cs : List Char) : List (List Char) :=
  match trim cs with
  | [] => []
  | t => splitCommas [] t

/-- All of a list of integers. -/
def asmInts : List (List Char) → Option (List Int)
  | [] => some []
  | c :: cs => do
    let n ← asmInt c
    let ns ← asmInts cs
    return n :: ns

/-- R93: the pseudo-operations whose arguments are all integers. -/
def asmPseudo (name : List Char) (args : List Int) : Option (List Instr) :=
  match args with
  | [ref, a1, a2, b0, b1, b2, k, min, max] =>
    if name = "CONFIG".toList then asmConfig ref a1 a2 b0 b1 b2 k min max else none
  | [x, y, z] => if name = "SOFTSTART".toList then asmSoftStart x y z else none
  | [x, y] => if name = "SLOPE".toList then asmSlope x y else none
  | [x] =>
    if name = "EV_SAMPLE".toList then (asmEvSample x).map (fun i => [i])
    else if name = "MSTEP".toList then asmMStep x
    else if name = "CYCLE".toList then asmCycle x
    else none
  | _ => none

/-- R92, R93: a mnemonic with its arguments. -/
def asmOp (name : List Char) (args : List (List Char)) : Option (List Instr) :=
  match args with
  | [] => ((bareTable.find? (fun p => p.1.toList == name)).map Prod.snd).map (fun i => [i])
  | [r] =>
    if name = "RD".toList then (asmReg r).map (fun a => [.rd a])
    else (asmInts args).bind (asmPseudo name)
  | [r, v] =>
    if name = "WR".toList then do
      let a ← asmReg r
      let n ← asmInt v
      let i ← asmWr a n
      return [i]
    else (asmInts args).bind (asmPseudo name)
  | [r, v, f] =>
    if name = "WRQ".toList then do
      let a ← asmReg r
      let x ← asmReal v
      let n ← asmNat f
      asmWrq a x n
    else (asmInts args).bind (asmPseudo name)
  | _ => (asmInts args).bind (asmPseudo name)

/-- R92: one line of assembler text; `;` starts a comment, and a blank line is no frame. -/
def asmLine (line : String) : Option (List Instr) :=
  let code := trim (line.toList.takeWhile (· != ';'))
  if code = [] then some []
  else asmOp (code.takeWhile (· != ' ')) (asmArgs (code.dropWhile (· != ' ')))

/-- R92: a text, one line a string: the operations of its frames in order. -/
def assemble : List String → Option (List Instr)
  | [] => some []
  | l :: ls => do
    let is ← asmLine l
    let rest ← assemble ls
    return is ++ rest

/-- The frames of a list of operations, as the bus delivers them. -/
def inputsOf (is : List Instr) : List Input := is.map (fun i => inputOf (encode i))

end Sys2Proof.Machine
end

