-- ==== Sys2Proof/Safety.lean ====
section
/-!
DEFINITION. The terms claims are stated in: the observable events, runs of operations, the register map, the fault list and the
state machines' arrows as the spec's tables give them (written here again from the tables, not from the meanings), the
invariants of 10_state.md, the textbook recurrence, and the timing contract that no step checks.
-/

namespace Sys2Proof.Machine

/-! ## Observations (10_state.md R52) -/

/-- The output event of a trace item, if it is one. -/
def Output.event? : Output → Option OutEvent
  | .event e => some e
  | .readResult _ => none

/-- R52 (b): the ordered sequence of output events. -/
def State.events (s : State) : List OutEvent := s.trace.filterMap Output.event?

/-- The value of a threshold write, if an event is one. -/
def OutEvent.thresh? : OutEvent → Option Word
  | .threshWrite v => some v
  | .sampleTrigger => none

/-- The values written to the threshold actuator, in order. -/
def State.threshWrites (s : State) : List Word := s.events.filterMap OutEvent.thresh?

/-- R69: the fold of the operations' rules over a sequence, stopping at the first fault or refusal. -/
def execAll : List Instr → State → Outcome
  | [], s => .next s
  | i :: is, s =>
    match exec i s with
    | .next t => execAll is t
    | .fault f => .fault f
    | .refused r => .refused r

/-! ## The register map, as 20_memory.md R61 lists it -/

/-- A signed value on the bus. -/
def busInt (x : Int) : BusWord := BitVec.ofInt 32 x

/-- R61, the rows with R access: address and the value a read returns. -/
def readTable (s : State) : List (Addr × BusWord) :=
  [(0x01, s.status), (0x02, s.err), (0x03, busInt s.fdbk.toInt), (0x04, busInt s.out.toInt),
   (0x05, busInt s.thresh.toInt), (0x10, s.stg.ref), (0x11, s.stg.a1), (0x12, s.stg.a2), (0x13, s.stg.b0),
   (0x14, s.stg.b1), (0x15, s.stg.b2), (0x16, s.stg.k), (0x17, s.stg.min), (0x18, s.stg.max),
   (0x20, s.stg.ssRampT), (0x21, s.stg.ssPeriodT), (0x22, s.stg.ssDir), (0x28, s.stg.slDelta),
   (0x29, s.stg.slSteps)] ++
  [(0x30, busInt s.act.ref.toInt), (0x31, busInt s.act.a1.toInt), (0x32, busInt s.act.a2.toInt),
   (0x33, busInt s.act.b0.toInt), (0x34, busInt s.act.b1.toInt), (0x35, busInt s.act.b2.toInt),
   (0x36, busInt s.act.k.toInt), (0x37, busInt s.act.min.toInt), (0x38, busInt s.act.max.toInt),
   (0x40, busInt s.hist.e1.toInt), (0x41, busInt s.hist.e2.toInt), (0x42, busInt s.hist.u1.toInt),
   (0x43, busInt s.hist.u2.toInt), (0x50, s.ss.n), (0x51, busInt (ssVal s.cfg s.ss.delta)), (0x52, s.ss.count),
   (0x53, busInt (ssVal s.cfg s.ss.acc)), (0x54, busInt s.ss.target.toInt),
   (0x55, busInt (ssVal s.cfg s.ss.acc / 2 ^ s.cfg.ssFrac.val)), (0x58, busInt s.sl.delta.toInt),
   (0x59, BitVec.ofNat 32 s.sl.steps.toNat), (0x5A, busInt s.sl.cur.toInt)]

/-- R63: the addresses a `WR` may store to (those of R61 with W access but for `0x00`, a command), and the state after
storing `v`. `FDBK` takes the value nearest to the signed `v` that 16 bits hold. -/
def storeTable (s : State) (v : BusWord) : List (Addr × State) :=
  [(0x03, { s with fdbk := BitVec.ofInt 16 (max (-32768) (min v.toInt 32767)) }),
   (0x10, { s with stg := { s.stg with ref := v } }), (0x11, { s with stg := { s.stg with a1 := v } }),
   (0x12, { s with stg := { s.stg with a2 := v } }), (0x13, { s with stg := { s.stg with b0 := v } }),
   (0x14, { s with stg := { s.stg with b1 := v } }), (0x15, { s with stg := { s.stg with b2 := v } }),
   (0x16, { s with stg := { s.stg with k := v } }), (0x17, { s with stg := { s.stg with min := v } }),
   (0x18, { s with stg := { s.stg with max := v } }), (0x20, { s with stg := { s.stg with ssRampT := v } }),
   (0x21, { s with stg := { s.stg with ssPeriodT := v } }), (0x22, { s with stg := { s.stg with ssDir := v } }),
   (0x28, { s with stg := { s.stg with slDelta := v } }), (0x29, { s with stg := { s.stg with slSteps := v } })]

/-- R61: the addresses with R access. -/
def readAddrs : List Addr :=
  [0x01, 0x02, 0x03, 0x04, 0x05, 0x10, 0x11, 0x12, 0x13, 0x14, 0x15, 0x16, 0x17, 0x18, 0x20, 0x21, 0x22, 0x28, 0x29,
   0x30, 0x31, 0x32, 0x33, 0x34, 0x35, 0x36, 0x37, 0x38, 0x40, 0x41, 0x42, 0x43, 0x50, 0x51, 0x52, 0x53, 0x54, 0x55,
   0x58, 0x59, 0x5A]

/-- R61: the addresses with W access, but for the command port. -/
def storeAddrs : List Addr :=
  [0x03, 0x10, 0x11, 0x12, 0x13, 0x14, 0x15, 0x16, 0x17, 0x18, 0x20, 0x21, 0x22, 0x28, 0x29]

/-- 30_encoding.md R88: the CMD codes, those of all commands but `EV_SAMPLE`. -/
def commandCodes : List (BitVec 8) := [0x01, 0x02, 0x03, 0x04, 0x05, 0x10, 0x11, 0x12, 0x20, 0x22]

/-! ## The fault list of 60_exceptions.md R196 -/

/-- R196: the fault an operation ends in, in a state; `none` where it completes. The micro-operations have none
(40_arith.md R110). -/
def faultOf (i : Instr) (s : State) : Option Fault :=
  match i with
  | .rd a => if a ∈ readAddrs then none else some .illegalFrame
  | .wr a _ =>
    if s.life = .cfgError then some .seqFault else if a ∈ storeAddrs then none else some .illegalFrame
  | .init => if s.life = .cfgError then some .seqFault else none
  | .start => if s.life = .initialized then none else some .seqFault
  | .ssArm => if s.life = .uninit ∨ s.life = .cfgError then some .seqFault else none
  | .slCfg => if s.life = .running ∨ s.life = .cfgError then some .seqFault else none
  | .orchEn => if s.life ≠ .running ∨ s.orch ≠ .idle then some .seqFault else none
  | .update => if s.life ≠ .running ∨ s.orch ≠ .idle then some .seqFault else none
  | .ssStep => if s.life ≠ .running ∨ s.orch ≠ .idle then some .seqFault else none
  | .slRun =>
    if s.life ≠ .running ∨ s.orch ≠ .idle ∨ s.sl.cfgd = false ∨ s.sl.armed = false then some .seqFault else none
  | .evPeriod =>
    if s.life = .cfgError then some .seqFault
    else if s.life = .running ∧ s.orch ≠ .idle ∧ s.orch ≠ .armed then some .timingFault else none
  | .evSample _ =>
    if s.life = .cfgError then some .seqFault
    else if s.life = .running ∧ s.orch ≠ .idle ∧ s.orch ≠ .sampleInFlight then some .seqFault else none
  | .evSlope =>
    if s.life = .cfgError then some .seqFault
    else if s.life = .running ∧ s.orch ≠ .idle ∧ (s.sl.cfgd = false ∨ s.sl.armed = false) then some .seqFault
    else none
  | .fxSub | .fxMul | .fxMac | .fxShift | .fxSat | .fxSatw | .fxAdds => none

/-! ## The state machines' arrows (44_control.md R179, R180) -/

/-- A value of a 32-bit staging register that fits a scaled word. -/
def Fits (v : BusWord) : Prop := -32768 ≤ v.toInt ∧ v.toInt ≤ 32767

/-- R172: all nine staging values of `INIT` fit. -/
def InitFits (s : State) : Prop :=
  Fits s.stg.ref ∧ Fits s.stg.a1 ∧ Fits s.stg.a2 ∧ Fits s.stg.b0 ∧ Fits s.stg.b1 ∧ Fits s.stg.b2 ∧ Fits s.stg.k ∧
    Fits s.stg.min ∧ Fits s.stg.max

/-- R142: both checks of `SS_ARM` pass. -/
def ArmFits (s : State) : Prop := (s.stg.ssDir = 1 ∨ s.stg.ssDir = 2) ∧ s.stg.ssPeriodT ≠ 0

/-- R156: both checks of `SL_CFG` pass. -/
def SlopeFits (s : State) : Prop := Fits s.stg.slDelta ∧ s.stg.slSteps.toNat ≤ 65535

/-- R179: an arrow of the `LIFE` machine taken by an operation that completes. -/
def LifeArrow (i : Instr) (s : State) (l : Life) : Prop :=
  match i with
  | .init => s.life ≠ .cfgError ∧ ((InitFits s ∧ l = .initialized) ∨ (¬ InitFits s ∧ l = .cfgError))
  | .start => s.life = .initialized ∧ l = .running
  | .ssArm =>
    (s.life = .initialized ∨ s.life = .running) ∧ ((ArmFits s ∧ l = s.life) ∨ (¬ ArmFits s ∧ l = .cfgError))
  | .slCfg =>
    (s.life = .uninit ∨ s.life = .initialized) ∧ ((SlopeFits s ∧ l = s.life) ∨ (¬ SlopeFits s ∧ l = .cfgError))
  | _ => l = s.life

/-- R180: an arrow of the `ORCH` machine taken by an operation that completes. -/
def OrchArrow (i : Instr) (s : State) (o : Orch) : Prop :=
  match i with
  | .init => (InitFits s ∧ o = .idle) ∨ (¬ InitFits s ∧ o = s.orch)
  | .orchEn => s.life = .running ∧ s.orch = .idle ∧ o = .armed
  | .evPeriod =>
    if s.life = .running ∧ s.orch ≠ .idle then s.orch = .armed ∧ o = .sampleInFlight else o = s.orch
  | .evSample _ =>
    if s.life = .running ∧ s.orch ≠ .idle then s.orch = .sampleInFlight ∧ o = .armed else o = s.orch
  | _ => o = s.orch

/-! ## Invariants -/

/-- 40_arith.md R108, first sentence: the stored errors are differences of two scaled words. -/
def HistoryRange (s : State) : Prop :=
  -65535 ≤ s.hist.e1.toInt ∧ s.hist.e1.toInt ≤ 65535 ∧ -65535 ≤ s.hist.e2.toInt ∧ s.hist.e2.toInt ≤ 65535

/-- 10_state.md R45: `PRE` is the contraction of the history. -/
def PreIsContraction (s : State) : Prop :=
  s.hist.pre.toInt = s.act.a1.toInt * s.hist.u1.toInt + s.act.a2.toInt * s.hist.u2.toInt
    + s.act.b1.toInt * s.hist.e1.toInt + s.act.b2.toInt * s.hist.e2.toInt

/-- The target of the latched direction (42_softstart.md R142). -/
def State.latchedTarget (s : State) : Int := if s.ss.dir = .up then s.act.max.toInt else 0

/-- `MAX` in the accumulator's scale. -/
def State.maxScaled (s : State) : Int := s.act.max.toInt * 2 ^ s.cfg.ssFrac.val

/-- 10_state.md R47, with what 42_softstart.md R142, R143 and R145 say of a ramp under way: after `SS_COUNT` steps the
accumulator has moved `SS_COUNT` times by `SS_DELTA` from its start. -/
def SoftStartOk (s : State) : Prop :=
  match s.ss.state with
  | .notStarted => s.ss = SoftStart.zero
  | .ramping =>
    1 ≤ s.ss.n.toNat ∧ s.ss.count.toNat < s.ss.n.toNat ∧ s.ss.dir ≠ .unset
      ∧ s.ss.target.toInt = s.latchedTarget
      ∧ ssVal s.cfg s.ss.delta = Int.tdiv s.maxScaled s.ss.n.toNat
      ∧ ssVal s.cfg s.ss.acc
        = (if s.ss.dir = .up then s.ss.count.toNat * ssVal s.cfg s.ss.delta
           else s.maxScaled - s.ss.count.toNat * ssVal s.cfg s.ss.delta)
  | .settled =>
    s.ss.dir ≠ .unset ∧ s.ss.target.toInt = s.latchedTarget
      ∧ ssVal s.cfg s.ss.acc = s.ss.target.toInt * 2 ^ s.cfg.ssFrac.val

/-- 10_state.md R38 (assumption log 9): the two soft-start cells hold sign-extended `W + SS_FRAC`-bit values. -/
def CellsExtended (s : State) : Prop :=
  s.ss.acc.toInt = ssVal s.cfg s.ss.acc ∧ s.ss.delta.toInt = ssVal s.cfg s.ss.delta

/-- 60_exceptions.md R192: the values `ERR` takes on a raise. -/
def errValues : List BusWord :=
  [0x1001, 0x1101, 0x1201, 0x1301, 0x1401, 0x1501, 0x1601, 0x1701, 0x1801, 0x2202, 0x2103, 0x2804, 0x2904]

/-- The lifecycle's invariant: `ComputeAndActuate` is never seen (10_state.md R32); the orchestrator runs only once
`Running` (R180); `ERR` is 0 but in `CfgError`, where it names a cause (R42, R192); before `INIT` nothing but staging,
`FDBK` and the slope configuration has left its reset value (70_reset_and_hazards.md R220, R222). -/
def LifecycleOk (s : State) : Prop :=
  s.orch ≠ .computeAndActuate
    ∧ (s.orch ≠ .idle → s.life = .running ∨ s.life = .cfgError)
    ∧ (s.life ≠ .cfgError → s.err = 0)
    ∧ (s.life = .cfgError → s.err ∈ errValues)
    ∧ (s.sl.armed = true → s.life = .running ∨ s.life = .cfgError)
    ∧ (s.life = .uninit →
        s.act = .zero ∧ s.hist = .zero ∧ s.out = 0 ∧ s.thresh = 0 ∧ s.ss = .zero ∧ s.events = [])

/-- 10_state.md R26, R40, 20_memory.md R74, 70_reset_and_hazards.md R235: `THRESH` is the last value written to the
actuator (0 when none was), `SL_CUR` is the same value, and both are `OUT` between an update and the ramp. -/
def ThresholdOk (s : State) : Prop :=
  s.thresh = s.threshWrites.getLastD 0 ∧ s.sl.cur = s.thresh ∧ (s.sl.armed = true → s.thresh = s.out)

/-! ## The textbook recurrence (41_compensator.md R120) -/

/-- The outputs of the difference equation for a sequence of samples, given the two last errors and filter outputs:
`u(n) = a1*u(n-1) + a2*u(n-2) + b0*e(n) + b1*e(n-1) + b2*e(n-2)` shifted to the state format, then the gain, the shift to
the output format and the clamp to `[min, max]`. The stored `u` saturates to 16 bits (R125). -/
def textbookOutputs (p : Params) (c : ActiveCfg) : Int → Int → Int → Int → List Word → List Int
  | _, _, _, _, [] => []
  | e1, e2, u1, u2, fb :: rest =>
    let e0 := c.ref.toInt - fb.toInt
    let u0 := fxShift p.rnd
      (c.a1.toInt * u1 + c.a2.toInt * u2 + c.b0.toInt * e0 + c.b1.toInt * e1 + c.b2.toInt * e2) p.fC
    let y := fxShift p.rnd (c.k.toInt * u0) (p.fC + p.fS - p.fO)
    min (max y c.min.toInt) c.max.toInt
      :: textbookOutputs p c e0 e1 (max (-32768) (min u0 32767)) u1 rest

/-- The frames of a manual period without a soft-start step: `WR FDBK, s` and `UPDATE` (30_encoding.md R88, R93). -/
def sampleAndUpdate (fb : Word) : List Input :=
  [.frame (frameOf 1 0x03 (fb.signExtend 32)), .frame 0x10000000010]

/-! ## Equality up to the stale threshold (70_reset_and_hazards.md R223) -/

/-- Two states that differ at most in `THRESH`, `SL_CUR` and the trace, the last two of which no operation reads before
an `UPDATE` rewrites them: while the ramp is armed `SL_CUR` agrees too. -/
def SameButThreshold (s t : State) : Prop :=
  t = { s with thresh := t.thresh, sl := { s.sl with cur := t.sl.cur }, trace := t.trace }
    ∧ (s.sl.armed = true → s.sl.cur = t.sl.cur)

/-! ## The arithmetic unit, run by itself (41_compensator.md R130) -/

/-- The result port after one micro-operation with the given operands. -/
def aluRun (i : Instr) (ops : AluOperands) (s : State) : Option Int :=
  match exec i { s with alu := { s.alu with operands := ops } } with
  | .next t => some t.alu.result
  | .fault _ | .refused _ => none

/-! ## The timing contract: stated, and checked by no step (70_reset_and_hazards.md R236 to R240; assumption log 12) -/

/-- R236: `compute deadline + ramp window <= period length`. -/
def CycleTimingHolds : Prop :=
  Config.tComputeDeadline + (Config.tRampEnd - Config.tRampStart) ≤ Config.tPeriod

/-- R162, R238: `steps * interval + fixed_latency < safety_margin`, for the slope configuration of a state. -/
def SlopeBudgetHolds (s : State) : Prop :=
  s.sl.steps.toNat * Config.tStepInterval + Config.tFixedLatency < Config.tSafetyMargin

end Sys2Proof.Machine
end

