-- ==== Sys2Proof/Certificates/Slice0/Obligations.lean ====
section
/-!
DEFINITION. The statements for the provers, from the numbered rules of spec/. A statement about an operation gives its whole
next state (result and frame at once: `t = { s with … }` says that every field not named is unchanged).
-/

open Sys2Proof Sys2Proof.Machine

/-! ## Reset -/

/-- 70_reset_and_hazards.md R220: the pin `rst` puts every register at its reset value in every state, and it is the only way
out of `CfgError`. That the parameters and the waiting inputs stay and that the trace restarts empty is the model's
reading (assumption logs 1, 3, 4). -/
def Obligations.RstPinResetsEveryRegister : Prop :=
  (∀ (s : State) (rest : List Input), s.inputs = .rst :: rest →
    ∃ t, step s = .next t ∧ t.cfg = s.cfg ∧ t.inputs = rest
      ∧ t.life = .uninit ∧ t.orch = .idle
      ∧ t.act = { ref := 0, a1 := 0, a2 := 0, b0 := 0, b1 := 0, b2 := 0, k := 0, min := 0, max := 0 }
      ∧ t.hist = { e1 := 0, e2 := 0, u1 := 0, u2 := 0, pre := 0 }
      ∧ t.fdbk = 0 ∧ t.out = 0 ∧ t.thresh = 0
      ∧ t.stg = { ref := 0, a1 := 0, a2 := 0, b0 := 0, b1 := 0, b2 := 0, k := 0, min := 0, max := 0,
                  ssRampT := 0, ssPeriodT := 0, ssDir := 0, slDelta := 0, slSteps := 0 }
      ∧ t.ss = { state := .notStarted, dir := .unset, n := 0, count := 0, acc := 0, delta := 0, target := 0 }
      ∧ t.sl = { delta := 0, steps := 0, cur := 0, cfgd := false, armed := false }
      ∧ t.err = 0 ∧ t.trace = []) ∧
  (∀ (i : Instr) (s t : State), s.life = .cfgError → exec i s = .next t → t.life = .cfgError)

/-- 10_state.md R45, R47, R26, R32 at reset: the state after reset meets every invariant below, whatever parameters the
block was built with and whatever is waiting. -/
def Obligations.ResetMeetsEveryInvariant : Prop :=
  ∀ (p : Params) (waiting : List Input),
    let s := State.resetWith p waiting
    HistoryRange s ∧ PreIsContraction s ∧ SoftStartOk s ∧ CellsExtended s ∧ LifecycleOk s ∧ ThresholdOk s

/-! ## Encoding -/

/-- 30_encoding.md R83 to R88, R91: decoding the encoding of a well-formed operation gives it back, at every operand. -/
def Obligations.DecodeInvertsEncode : Prop :=
  ∀ i : Instr, i.wf = true → decode (encode i) = .ok i

/-- The other direction: a word that decodes is the encoding of the operation it decodes to, but for the data bits a
bus read ignores (R83), and that operation is well formed. -/
def Obligations.EncodeInvertsDecode : Prop :=
  ∀ (c : CodeWord) (i : Instr), decode c = .ok i →
    i.wf = true ∧ (encode i = c ∨ ∃ (a : Addr) (d : BusWord), i = .rd a ∧ c = .frame (frameOf 0 a d))

/-- R82: the decoder's five cases, on the frame as a number (`w` is bit 40, `addr` bits 39:32, `data` bits 31:0). -/
def Obligations.FrameDecodesByFirstMatchingCase : Prop :=
  ∀ f : Frame,
    let w := f.toNat / 2 ^ 40
    let addr := f.toNat / 2 ^ 32 % 2 ^ 8
    let code := f.toNat % 2 ^ 8
    let codes : List (Nat × Instr) :=
      [(0x01, .init), (0x02, .start), (0x03, .ssArm), (0x04, .slCfg), (0x05, .orchEn), (0x10, .update),
       (0x11, .ssStep), (0x12, .slRun), (0x20, .evPeriod), (0x22, .evSlope)]
    (w = 0 → decode (.frame f) = .ok (.rd (BitVec.ofNat 8 addr))) ∧
    (w = 1 → addr ≠ 0 → decode (.frame f) = .ok (.wr (BitVec.ofNat 8 addr) (BitVec.ofNat 32 f.toNat))) ∧
    (w = 1 → addr = 0 → code = 0x21 → f.toNat / 2 ^ 8 % 2 ^ 8 = 0 →
      decode (.frame f) = .ok (.evSample (BitVec.ofNat 16 (f.toNat / 2 ^ 16)))) ∧
    (w = 1 → addr = 0 → f.toNat / 2 ^ 8 % 2 ^ 24 = 0 → ∀ i, (code, i) ∈ codes → decode (.frame f) = .ok i) ∧
    (w = 1 → addr = 0 → ¬ (code = 0x21 ∧ f.toNat / 2 ^ 8 % 2 ^ 8 = 0) →
      ¬ (f.toNat / 2 ^ 8 % 2 ^ 24 = 0 ∧ ∃ i, (code, i) ∈ codes) →
      (∃ e, decode (.frame f) = .error e) ∧
        ∀ (s : State) (rest : List Input), s.inputs = .frame f :: rest → step s = .fault .illegalFrame)

/-- R88, R91 and 95_test_vectors.md section 7: words written out from the encodings decode to what they stand for. -/
def Obligations.WrittenOutWordsDecode : Prop :=
  decodeTableWord 48 0x00400ABCDEF = some (.rd 0x04) ∧
  decodeTableWord 48 0x103FFFFFFFD = some (.wr 0x03 0xFFFFFFFD) ∧
  decodeTableWord 48 0x10000000001 = some .init ∧
  decodeTableWord 48 0x10000000012 = some .slRun ∧
  decodeTableWord 48 0x100FFFB0021 = some (.evSample 0xFFFB) ∧
  decodeTableWord 48 0x10000000121 = none ∧
  decodeTableWord 48 0x10000000006 = none ∧
  decodeTableWord 8 0x3 = some .fxShift ∧
  decodeTableWord 8 0x7 = none

/-! ## The step -/

/-- 20_memory.md R66, R69: a step takes the next input off the stream and runs the operation it stands for, whole; a
micro-operation's operands go to the ports first (assumption log 5); with nothing waiting the block holds its state
(60_exceptions.md R212, assumption log 2); the reserved operation select is refused (assumption log 7). -/
def Obligations.StepRunsTheDecodedInput : Prop :=
  ∀ (s : State) (rest : List Input),
    (∀ (f : Frame) (i : Instr), s.inputs = .frame f :: rest → decode (.frame f) = .ok i →
      step s = exec i { s with inputs := rest }) ∧
    (∀ (op : AluOp) (ops : AluOperands) (i : Instr), s.inputs = .alu op ops :: rest → decode (.alu op) = .ok i →
      step s = exec i { s with inputs := rest, alu := { s.alu with operands := ops } }) ∧
    (∀ ops : AluOperands, s.inputs = .alu 7 ops :: rest → step s = .refused .reservedAluOp) ∧
    (s.inputs = [] → step s = .next s)

/-- 30_encoding.md R89: the illegal frames, each `fault IllegalFrame` when it is taken: an unassigned command code, a CMD
code with upper bits set, an `EV_SAMPLE` with middle bits set, a read of an address without R access, a write to one
without W access (in `CfgError` such a write is a `SeqFault`, 60_exceptions.md R196). -/
def Obligations.IllegalFramesFault : Prop :=
  ∀ (s : State) (f : Frame) (rest : List Input), s.inputs = .frame f :: rest →
    (f.toNat / 2 ^ 32 = 2 ^ 8 → f.extractLsb' 0 8 ∉ (0x21 : BitVec 8) :: commandCodes →
      step s = .fault .illegalFrame) ∧
    (f.toNat / 2 ^ 32 = 2 ^ 8 → f.extractLsb' 0 8 ∈ commandCodes → f.toNat / 2 ^ 8 % 2 ^ 24 ≠ 0 →
      step s = .fault .illegalFrame) ∧
    (f.toNat / 2 ^ 32 = 2 ^ 8 → f.extractLsb' 0 8 = 0x21 → f.toNat / 2 ^ 8 % 2 ^ 8 ≠ 0 →
      step s = .fault .illegalFrame) ∧
    (f.toNat / 2 ^ 40 = 0 → f.extractLsb' 32 8 ∉ readAddrs → step s = .fault .illegalFrame) ∧
    (f.toNat / 2 ^ 40 = 1 → f.extractLsb' 32 8 ∉ (0x00 : Addr) :: storeAddrs → s.life ≠ .cfgError →
      step s = .fault .illegalFrame)

/-! ## The register space -/

/-- 20_memory.md R62: a read of a register returns its value extended as R61 says, in every state, and changes nothing but
the trace, to which the result is appended; any other address faults. -/
def Obligations.ReadReturnsTheMappedRegister : Prop :=
  ∀ (s : State) (a : Addr),
    (∀ v, (a, v) ∈ readTable s →
      exec (.rd a) s = .next { s with trace := s.trace ++ [.readResult v] } ∧
        State.events { s with trace := s.trace ++ [.readResult v] } = s.events) ∧
    ((∀ v, (a, v) ∉ readTable s) → exec (.rd a) s = .fault .illegalFrame)

/-- R63: a write stores into `FDBK` (saturating) or a staging register and changes nothing else; a write to `0x00` is a
command; another address faults; every write in `CfgError` is a `SeqFault`. -/
def Obligations.WriteStoresIntoOneRegister : Prop :=
  (∀ (s : State) (a : Addr) (v : BusWord), s.life ≠ .cfgError →
    (∀ t, (a, t) ∈ storeTable s v → exec (.wr a v) s = .next t) ∧
    (a ≠ 0x00 → (∀ t, (a, t) ∉ storeTable s v) → exec (.wr a v) s = .fault .illegalFrame)) ∧
  (∀ (d : BusWord) (i : Instr), decode (.frame (frameOf 1 0x00 d)) = .ok i →
    i ∈ [.init, .start, .ssArm, .slCfg, .orchEn, .update, .ssStep, .slRun, .evPeriod, .evSlope] ∨
      ∃ imm, i = .evSample imm) ∧
  (∀ (s : State) (a : Addr) (v : BusWord) (i : Instr), s.life = .cfgError →
    decode (.frame (frameOf 1 a v)) = .ok i → exec i s = .fault .seqFault)

/-- 10_state.md R41: the fields of `STATUS`, as a bus read of `0x01` returns them. -/
def Obligations.StatusShowsTheFlagState : Prop :=
  ∀ s : State, ∃ v : BusWord,
    exec (.rd 0x01) s = .next { s with trace := s.trace ++ [.readResult v] } ∧
    v.toNat % 4
      = (match s.life with | .uninit => 0 | .initialized => 1 | .running => 2 | .cfgError => 3) ∧
    v.toNat / 4 % 4
      = (match s.orch with | .idle => 0 | .armed => 1 | .sampleInFlight => 2 | .computeAndActuate => 3) ∧
    v.toNat / 16 % 4 = (match s.ss.state with | .notStarted => 0 | .ramping => 1 | .settled => 2) ∧
    v.toNat / 64 % 4 = (match s.ss.dir with | .unset => 0 | .up => 1 | .down => 2) ∧
    v.toNat / 256 % 2 = (if s.sl.cfgd then 1 else 0) ∧
    v.toNat / 512 % 2 = (if s.sl.armed then 1 else 0) ∧
    v.toNat / 1024 = 0 ∧
    (∀ (p : Params) (waiting : List Input), s = State.resetWith p waiting → v = 0)

/-! ## Lifecycle -/

/-- 44_control.md R172, the checks passing: `INIT` latches the nine values, zeroes the history, `FDBK`, `OUT` and the
soft-start, clears `SL_ARMED`, and enters `Initialized` with the orchestrator idle; everything else stays. -/
def Obligations.InitLatchesAndZeroes : Prop :=
  ∀ s : State, s.life ≠ .cfgError → InitFits s →
    ∃ c : ActiveCfg,
      c.ref.toInt = s.stg.ref.toInt ∧ c.a1.toInt = s.stg.a1.toInt ∧ c.a2.toInt = s.stg.a2.toInt ∧
      c.b0.toInt = s.stg.b0.toInt ∧ c.b1.toInt = s.stg.b1.toInt ∧ c.b2.toInt = s.stg.b2.toInt ∧
      c.k.toInt = s.stg.k.toInt ∧ c.min.toInt = s.stg.min.toInt ∧ c.max.toInt = s.stg.max.toInt ∧
      exec .init s = .next
        { s with
          act := c
          hist := { e1 := 0, e2 := 0, u1 := 0, u2 := 0, pre := 0 }
          fdbk := 0
          out := 0
          ss := { state := .notStarted, dir := .unset, n := 0, count := 0, acc := 0, delta := 0, target := 0 }
          sl := { s.sl with armed := false }
          life := .initialized
          orch := .idle }

/-- R172, 60_exceptions.md R191, R192: `INIT` with a value out of range raises code 1 with the lowest failing address, and
changes only `ERR` and `LIFE`. -/
def Obligations.InitRaisesAtTheFirstUnfitValue : Prop :=
  ∀ (s : State) (before after : List (BitVec 8 × BusWord)) (addr : BitVec 8) (v : BusWord), s.life ≠ .cfgError →
    [(0x10, s.stg.ref), (0x11, s.stg.a1), (0x12, s.stg.a2), (0x13, s.stg.b0), (0x14, s.stg.b1), (0x15, s.stg.b2),
      (0x16, s.stg.k), (0x17, s.stg.min), (0x18, s.stg.max)] = before ++ (addr, v) :: after →
    (∀ p ∈ before, Fits p.2) → ¬ Fits v →
    exec .init s = .next { s with err := BitVec.ofNat 32 (1 + addr.toNat * 256), life := .cfgError }

/-- 44_control.md R173. -/
def Obligations.StartEntersRunning : Prop :=
  encode .start = .frame 0x10000000002 ∧
  (∀ s : State, s.life = .initialized → exec .start s = .next { s with life := .running }) ∧
  (∀ s : State, s.life ≠ .initialized → exec .start s = .fault .seqFault)

/-- 44_control.md R174: `ORCH_EN` takes `Idle` to `Armed` in `Running`, and from there on the manual operations fault. -/
def Obligations.OrchEnArmsTheOrchestrator : Prop :=
  ∀ s : State,
    (s.life = .running → s.orch = .idle →
      exec .orchEn s = .next { s with orch := .armed } ∧
      ∀ i ∈ [Instr.update, .ssStep, .slRun, .orchEn], exec i { s with orch := .armed } = .fault .seqFault) ∧
    (s.life ≠ .running ∨ s.orch ≠ .idle → exec .orchEn s = .fault .seqFault)

/-! ## The compensator -/

/-- 41_compensator.md R128 (R121 to R127): one `UPDATE`, with every value exact: the error, the shifted accumulation, the
gain, the clamp, the history shift with its one narrowing, the partial sum for the next update, the hand-over. -/
def Obligations.UpdateComputesOneRecurrenceStep : Prop :=
  ∀ s : State, s.life = .running → s.orch = .idle →
    ∃ (o : Word) (h : History),
      exec .update s = .next
        { s with
          out := o
          hist := h
          thresh := o
          sl := { s.sl with cur := o, armed := true }
          trace := s.trace ++ [.event (.threshWrite o)] } ∧
      (let e0 := s.act.ref.toInt - s.fdbk.toInt
       let u0w := fxShift s.cfg.rnd (s.hist.pre.toInt + s.act.b0.toInt * e0) s.cfg.fC
       let yo := fxShift s.cfg.rnd (s.act.k.toInt * u0w) (s.cfg.fC + s.cfg.fS - s.cfg.fO)
       let hi := if s.ss.state = .notStarted then s.act.max.toInt
         else min s.act.max.toInt (ssVal s.cfg s.ss.acc / 2 ^ s.cfg.ssFrac.val)
       o.toInt = min (max yo s.act.min.toInt) hi ∧
       h.e1.toInt = e0 ∧ h.e2 = s.hist.e1 ∧
       h.u1.toInt = max (-32768) (min u0w 32767) ∧ h.u2 = s.hist.u1 ∧
       h.pre.toInt = s.act.a1.toInt * h.u1.toInt + s.act.a2.toInt * h.u2.toInt
         + s.act.b1.toInt * h.e1.toInt + s.act.b2.toInt * h.e2.toInt)

/-- 41_compensator.md R120: from a state whose `PRE` is the contraction of the history (every reachable state,
`StepKeepsPreContraction`), an `UPDATE` computes the textbook difference equation. -/
def Obligations.UpdateFollowsTheTextbookEquation : Prop :=
  ∀ s t : State, PreIsContraction s → s.ss.state = .notStarted → exec .update s = .next t →
    t.out.toInt ∈ (textbookOutputs s.cfg s.act s.hist.e1.toInt s.hist.e2.toInt s.hist.u1.toInt s.hist.u2.toInt
      [s.fdbk]).head? ∧
    PreIsContraction t

/-- 10_state.md R46, 41_compensator.md R133: after every update, by `UPDATE` or by `EV_SAMPLE`, the output lies in the
bounds it was clamped to, and the upper one wins. -/
def Obligations.OutputLiesInItsBounds : Prop :=
  ∀ (s t : State) (i : Instr), exec i s = .next t →
    (i = .update ∨ (s.life = .running ∧ s.orch = .sampleInFlight ∧ ∃ imm, i = .evSample imm)) →
    let hi := if s.ss.state = .notStarted then s.act.max.toInt
      else min s.act.max.toInt (ssVal s.cfg s.ss.acc / 2 ^ s.cfg.ssFrac.val)
    t.out.toInt ≤ hi ∧ hi ≤ s.act.max.toInt ∧ (s.act.min.toInt ≤ hi → s.act.min.toInt ≤ t.out.toInt) ∧
      (hi < s.act.min.toInt → t.out.toInt = hi)

/-- 41_compensator.md R130: the output of an `UPDATE` is what one subtraction, one multiply-accumulate, one shift, one
multiply, one shift and one clamp of the arithmetic unit compute in turn, and the history takes the subtraction's
result and the saturated shift. -/
def Obligations.MicroOperationsComposeToUpdate : Prop :=
  ∀ s t : State, exec .update s = .next t →
    ∃ e0 acc u0w y yo : Int,
      aluRun .fxSub { AluOperands.zero with a := s.act.ref.toInt, b := s.fdbk.toInt } s = some e0 ∧
      aluRun .fxMac { AluOperands.zero with acc := s.hist.pre.toInt, a := s.act.b0.toInt, b := e0 } s = some acc ∧
      aluRun .fxShift { AluOperands.zero with x := acc, s := s.cfg.fC } s = some u0w ∧
      aluRun .fxMul { AluOperands.zero with a := s.act.k.toInt, b := u0w } s = some y ∧
      aluRun .fxShift { AluOperands.zero with x := y, s := s.cfg.fC + s.cfg.fS - s.cfg.fO } s = some yo ∧
      aluRun .fxSat { AluOperands.zero with x := yo, lo := s.act.min, hi := BitVec.ofInt 16 s.ssHi } s
        = some t.out.toInt ∧
      aluRun .fxSatw { AluOperands.zero with x := u0w } s = some t.hist.u1.toInt ∧
      t.hist.e1.toInt = e0

/-- 40_arith.md R108: the bounds on every wide value of an update, in a state whose errors are in range and whose `PRE` is
the contraction: 34 bits hold the accumulator. -/
def Obligations.WideValuesStayInTheirBounds : Prop :=
  ∀ s : State, HistoryRange s → PreIsContraction s →
    let e0 := s.act.ref.toInt - s.fdbk.toInt
    let acc := s.hist.pre.toInt + s.act.b0.toInt * e0
    let u0w := fxShift s.cfg.rnd acc s.cfg.fC
    |e0| ≤ 65535 ∧ |s.act.a1.toInt * s.hist.u1.toInt| ≤ 1073741824 ∧ |s.act.b0.toInt * e0| ≤ 2147450880 ∧
      |s.hist.pre.toInt| ≤ 6442385408 ∧ |acc| ≤ 8589836288 ∧ |acc| < 2 ^ 33 ∧ |u0w| ≤ 2 ^ 33 ∧
      |s.act.k.toInt * u0w| ≤ 2 ^ 48

/-! ## The soft-start -/

/-- 42_softstart.md R142, both checks passing and `N >= 1`: `SS_ARM` latches the direction, the length and the target,
computes the exact increment and starts at 0 (up) or at `MAX` (down); only the soft-start registers change. -/
def Obligations.SsArmStartsTheRamp : Prop :=
  ∀ s : State, (s.life = .initialized ∨ s.life = .running) → (s.stg.ssDir = 1 ∨ s.stg.ssDir = 2) →
    s.stg.ssPeriodT ≠ 0 → 1 ≤ s.stg.ssRampT.toNat / s.stg.ssPeriodT.toNat →
    ∃ r : SoftStart,
      exec .ssArm s = .next { s with ss := r } ∧
      r.state = .ramping ∧ r.dir = (if s.stg.ssDir = 1 then .up else .down) ∧
      r.n.toNat = s.stg.ssRampT.toNat / s.stg.ssPeriodT.toNat ∧ r.count = 0 ∧
      r.target = (if s.stg.ssDir = 1 then s.act.max else 0) ∧
      ssVal s.cfg r.delta = Int.tdiv (s.act.max.toInt * 2 ^ s.cfg.ssFrac.val) r.n.toNat ∧
      ssVal s.cfg r.acc = (if s.stg.ssDir = 1 then 0 else s.act.max.toInt * 2 ^ s.cfg.ssFrac.val)

/-- 42_softstart.md R146: a duration shorter than one period settles at once, with no division by `N`: the limit is `MAX`
(up) or 0 (down), and any soft-start step after it changes nothing. -/
def Obligations.ShortRampSettlesAtOnce : Prop :=
  ∀ s : State, (s.life = .initialized ∨ s.life = .running) → (s.stg.ssDir = 1 ∨ s.stg.ssDir = 2) →
    s.stg.ssPeriodT ≠ 0 → s.stg.ssRampT.toNat / s.stg.ssPeriodT.toNat = 0 →
    ∃ r : SoftStart,
      exec .ssArm s = .next { s with ss := r } ∧
      r.state = .settled ∧ r.dir = (if s.stg.ssDir = 1 then .up else .down) ∧ r.n = 0 ∧ r.count = 0 ∧
      r.target = (if s.stg.ssDir = 1 then s.act.max else 0) ∧ ssVal s.cfg r.delta = 0 ∧
      ssVal s.cfg r.acc = r.target.toInt * 2 ^ s.cfg.ssFrac.val ∧
      State.ssLimit { s with ss := r } = r.target.toInt ∧
      ∀ t : State, t.ss = r → t.life = .running → t.orch = .idle → exec .ssStep t = .next t

/-- 42_softstart.md R142, 60_exceptions.md R192, R193: the direction is checked first, then the period; a raise changes
only `ERR` and `LIFE`. -/
def Obligations.SsArmRaisesOnBadConfiguration : Prop :=
  ∀ s : State, (s.life = .initialized ∨ s.life = .running) →
    (s.stg.ssDir ≠ 1 → s.stg.ssDir ≠ 2 →
      exec .ssArm s = .next { s with err := 0x2202, life := .cfgError }) ∧
    ((s.stg.ssDir = 1 ∨ s.stg.ssDir = 2) → s.stg.ssPeriodT = 0 →
      exec .ssArm s = .next { s with err := 0x2103, life := .cfgError })

/-- 42_softstart.md R143: one step of a ramp under way moves the accumulator by exactly `SS_DELTA`; the step that brings the
count to `N` also overwrites the accumulator with the target and settles; outside a ramp the step changes nothing.
(`SoftStartOk` holds of every reachable state: `StepKeepsSoftStartInvariant`.) -/
def Obligations.SsStepAdvancesOrSettles : Prop :=
  ∀ s : State, s.life = .running → s.orch = .idle → SoftStartOk s →
    (s.ss.state = .ramping → s.ss.count.toNat + 1 < s.ss.n.toNat →
      ∃ a c : BusWord, exec .ssStep s = .next { s with ss := { s.ss with acc := a, count := c } } ∧
        c.toNat = s.ss.count.toNat + 1 ∧
        ssVal s.cfg a = (if s.ss.dir = .up then ssVal s.cfg s.ss.acc + ssVal s.cfg s.ss.delta
          else ssVal s.cfg s.ss.acc - ssVal s.cfg s.ss.delta)) ∧
    (s.ss.state = .ramping → s.ss.count.toNat + 1 = s.ss.n.toNat →
      ∃ a : BusWord,
        exec .ssStep s = .next { s with ss := { s.ss with acc := a, count := s.ss.n, state := .settled } } ∧
        ssVal s.cfg a = s.ss.target.toInt * 2 ^ s.cfg.ssFrac.val) ∧
    (s.ss.state ≠ .ramping → exec .ssStep s = .next s)

/-- 42_softstart.md R145 (c), R148: after exactly `N` steps from an `SS_ARM` the limit is the target and the soft-start is
settled, not before; from then on a step changes nothing. The ramp may have been armed in `Initialized` or in `Running`:
`w` is any later state that still has the armed soft-start and the configuration it was armed with. It is stepped by
`SS_STEP` in manual mode, or once in each orchestrated period by `EV_SAMPLE` (44_control.md R176). -/
def Obligations.RampReachesItsTargetInExactlyN : Prop :=
  ∀ s : State, (s.life = .initialized ∨ s.life = .running) → (s.stg.ssDir = 1 ∨ s.stg.ssDir = 2) →
    s.stg.ssPeriodT ≠ 0 → 1 ≤ s.stg.ssRampT.toNat / s.stg.ssPeriodT.toNat →
    let n := s.stg.ssRampT.toNat / s.stg.ssPeriodT.toNat
    let target := if s.stg.ssDir = 1 then s.act.max.toInt else 0
    ∃ t : State, exec .ssArm s = .next t ∧
      ∀ w : State, w.cfg = t.cfg → w.act = t.act → w.ss = t.ss → w.life = .running →
        (w.orch = .idle →
          (∀ k, k < n →
            ∃ v, execAll (List.replicate k .ssStep) w = .next v ∧ v.ss.state = .ramping ∧ v.ss.count.toNat = k) ∧
          ∃ u, execAll (List.replicate n .ssStep) w = .next u ∧ u.ss.state = .settled ∧ u.ssLimit = target ∧
            ∀ k, execAll (List.replicate k .ssStep) u = .next u) ∧
        (w.orch = .armed → ∀ samples : List Word,
          ∃ u, execAll (samples.flatMap (fun x => [.evPeriod, .evSample x])) w = .next u ∧
            (samples.length < n → u.ss.state = .ramping ∧ u.ss.count.toNat = samples.length) ∧
            (n ≤ samples.length → u.ss.state = .settled ∧ u.ssLimit = target))

/-- 42_softstart.md R145 (b): a ramp up with `MAX > 0`: after `j < N` steps the limit is `floor(j * SS_DELTA / 2^SS_FRAC)`,
below `MAX`, never negative, and it never falls. -/
def Obligations.RampUpRisesBelowMax : Prop :=
  ∀ (s t v : State) (j : Nat), s.life = .running → s.orch = .idle → s.stg.ssDir = 1 → 0 < s.act.max.toInt →
    exec .ssArm s = .next t → t.life = .running → t.ss.state = .ramping → j < t.ss.n.toNat →
    execAll (List.replicate j .ssStep) t = .next v →
    v.ssLimit = j * ssVal t.cfg t.ss.delta / 2 ^ t.cfg.ssFrac.val ∧ 0 ≤ v.ssLimit ∧ v.ssLimit < s.act.max.toInt ∧
      ∀ (k : Nat) (w : State), j ≤ k → k ≤ t.ss.n.toNat → execAll (List.replicate k .ssStep) t = .next w →
        v.ssLimit ≤ w.ssLimit

/-- 42_softstart.md R147: a ramp down with `MAX >= 0`: after `j < N` steps the limit is
`floor((MAX * 2^SS_FRAC - j * SS_DELTA) / 2^SS_FRAC)`, at most `MAX`, never below 0, and it never rises; after `N` steps it
is exactly 0. -/
def Obligations.RampDownFallsToZero : Prop :=
  ∀ (s t v : State) (j : Nat), s.life = .running → s.orch = .idle → s.stg.ssDir = 2 → 0 ≤ s.act.max.toInt →
    exec .ssArm s = .next t → t.life = .running → t.ss.state = .ramping → j < t.ss.n.toNat →
    execAll (List.replicate j .ssStep) t = .next v →
    v.ssLimit = (s.act.max.toInt * 2 ^ t.cfg.ssFrac.val - j * ssVal t.cfg t.ss.delta) / 2 ^ t.cfg.ssFrac.val ∧
      0 ≤ v.ssLimit ∧ v.ssLimit ≤ s.act.max.toInt ∧
      (∀ (k : Nat) (w : State), j ≤ k → k ≤ t.ss.n.toNat → execAll (List.replicate k .ssStep) t = .next w →
        w.ssLimit ≤ v.ssLimit) ∧
      ∃ u, execAll (List.replicate t.ss.n.toNat .ssStep) t = .next u ∧ u.ss.state = .settled ∧ u.ssLimit = 0

/-- 42_softstart.md R145 (a): in every state that meets the soft-start invariant the accumulator stays within
`|MAX| * 2^SS_FRAC`, so for `MAX >= 0` the limit lies in `[0, MAX]`. -/
def Obligations.SoftStartStaysWithinMax : Prop :=
  ∀ s : State, SoftStartOk s →
    |ssVal s.cfg s.ss.acc| ≤ |s.act.max.toInt| * 2 ^ s.cfg.ssFrac.val ∧
      (0 ≤ s.act.max.toInt →
        0 ≤ ssVal s.cfg s.ss.acc ∧ ssVal s.cfg s.ss.acc ≤ s.act.max.toInt * 2 ^ s.cfg.ssFrac.val ∧
        0 ≤ s.ssLimit ∧ s.ssLimit ≤ s.act.max.toInt)

/-- 42_softstart.md R144: the upper clamp bound: `MAX` before any ramp, `min(MAX, SS_LIMIT)` in `Ramping` and `Settled`
alike; so `MAX` after a ramp up, and `min(MAX, 0)` after a ramp down. -/
def Obligations.UpperBoundFollowsTheSoftStart : Prop :=
  ∀ s : State,
    (s.ss.state = .notStarted → s.ssHi = s.act.max.toInt) ∧
    (s.ss.state = .ramping ∨ s.ss.state = .settled →
      s.ssHi = min s.act.max.toInt (ssVal s.cfg s.ss.acc / 2 ^ s.cfg.ssFrac.val)) ∧
    (SoftStartOk s → s.ss.state = .settled → s.ss.dir = .up → s.ssHi = s.act.max.toInt) ∧
    (SoftStartOk s → s.ss.state = .settled → s.ss.dir = .down → s.ssHi = min s.act.max.toInt 0)

/-! ## The slope ramp -/

/-- 43_slope.md R156, both checks passing: `SL_CFG` latches the two values and sets `SL_CFGD`; nothing else changes. -/
def Obligations.SlCfgLatchesTheSlope : Prop :=
  ∀ s : State, (s.life = .uninit ∨ s.life = .initialized) → Fits s.stg.slDelta → s.stg.slSteps.toNat ≤ 65535 →
    ∃ (d : Word) (n : BitVec 16),
      exec .slCfg s = .next { s with sl := { s.sl with delta := d, steps := n, cfgd := true } } ∧
      d.toInt = s.stg.slDelta.toInt ∧ n.toNat = s.stg.slSteps.toNat

/-- 43_slope.md R156, 60_exceptions.md R192, R193: `delta` is checked first, then `steps`. -/
def Obligations.SlCfgRaisesOnBadConfiguration : Prop :=
  ∀ s : State, (s.life = .uninit ∨ s.life = .initialized) →
    (¬ Fits s.stg.slDelta → exec .slCfg s = .next { s with err := 0x2804, life := .cfgError }) ∧
    (Fits s.stg.slDelta → 65535 < s.stg.slSteps.toNat →
      exec .slCfg s = .next { s with err := 0x2904, life := .cfgError })

/-- 43_slope.md R157, R159: the ramp makes `SL_STEPS` threshold writes, the i-th the saturated `SL_CUR + i * SL_DELTA`, ends
with the last one in `SL_CUR` and `THRESH`, and clears `SL_ARMED`; `OUT` and everything else stay. -/
def Obligations.SlopeRampWritesALinearSequence : Prop :=
  ∀ s : State, s.life = .running → s.orch = .idle → s.sl.cfgd = true → s.sl.armed = true →
    ∃ ws : List Word,
      exec .slRun s = .next
        { s with
          sl := { s.sl with cur := (s.sl.cur :: ws).getLastD 0, armed := false }
          thresh := (s.thresh :: ws).getLastD 0
          trace := s.trace ++ ws.map (fun v => .event (.threshWrite v)) } ∧
      ws.length = s.sl.steps.toNat ∧
      ∀ (i : Nat) (h : i < ws.length),
        (ws[i]).toInt = max (-32768) (min (s.sl.cur.toInt + (i + 1) * s.sl.delta.toInt) 32767)

/-- 43_slope.md R158: an update and its ramp write `steps + 1` values, element 0 the compensator's output and element `i`
the saturated `initialValue + i * delta`; the output register keeps the unramped value. -/
def Obligations.PeriodWritesStepsPlusOneValues : Prop :=
  ∀ s : State, s.life = .running → s.orch = .idle → s.sl.cfgd = true →
    ∃ (t : State) (ws : List Word),
      execAll [.update, .slRun] s = .next t ∧
      t.threshWrites = s.threshWrites ++ ws ∧ ws.length = s.sl.steps.toNat + 1 ∧
      (∀ (i : Nat) (h : i < ws.length),
        (ws[i]).toInt = max (-32768) (min (t.out.toInt + i * s.sl.delta.toInt) 32767)) ∧
      ws.head? = some t.out ∧ ws.getLast? = some t.thresh ∧ t.sl.armed = false

/-- 43_slope.md R161, 60_exceptions.md R199: the ramp and the soft-start step commute: either order gives the same state and
the same trace. -/
def Obligations.RampAndSoftStartStepCommute : Prop :=
  ∀ s : State, s.life = .running → s.orch = .idle → s.sl.cfgd = true → s.sl.armed = true →
    ∃ t : State, execAll [.slRun, .ssStep] s = .next t ∧ execAll [.ssStep, .slRun] s = .next t

/-! ## Events -/

/-- 44_control.md R175: `EV_PERIOD`, with its frame: it triggers the sample in `Armed`; in orchestrated mode it is a
`TimingFault` elsewhere; it is ignored while masked and faults in `CfgError`. -/
def Obligations.EvPeriodTriggersTheSample : Prop :=
  encode .evPeriod = .frame 0x10000000020 ∧
  ∀ s : State,
    (s.life = .running → s.orch = .armed →
      exec .evPeriod s = .next { s with orch := .sampleInFlight, trace := s.trace ++ [.event .sampleTrigger] }) ∧
    (s.life = .running → s.orch ≠ .idle → s.orch ≠ .armed → exec .evPeriod s = .fault .timingFault) ∧
    (s.life ≠ .cfgError → (s.life ≠ .running ∨ s.orch = .idle) → exec .evPeriod s = .next s) ∧
    (s.life = .cfgError → exec .evPeriod s = .fault .seqFault)

/-- 44_control.md R176: `EV_SAMPLE s` in `SampleInFlight` is a write of the sample into `FDBK`, an `UPDATE` and an `SS_STEP`,
run to the end in one operation, after which the orchestrator is `Armed` again. -/
def Obligations.EvSampleRunsTheWholeHandler : Prop :=
  ∀ (s : State) (imm : Word), s.life = .running → s.orch = .sampleInFlight →
    ∃ t : State,
      execAll [.wr 0x03 (BitVec.ofInt 32 imm.toInt), .update, .ssStep] { s with orch := .idle } = .next t ∧
      t.fdbk = imm ∧ exec (.evSample imm) s = .next { t with orch := .armed }

/-- 44_control.md R177: `EV_SLOPE` in orchestrated mode is the ramp run of manual mode, with the orchestrator left as it
was. -/
def Obligations.EvSlopeRunsTheRamp : Prop :=
  ∀ s : State, s.life = .running → s.orch ≠ .idle → s.sl.cfgd = true → s.sl.armed = true →
    ∃ t : State, exec .slRun { s with orch := .idle } = .next t ∧ exec .evSlope s = .next { t with orch := s.orch }

/-- 60_exceptions.md R198: a masked event completes with no effect and is not remembered. -/
def Obligations.MaskedEventsAreLost : Prop :=
  ∀ (s : State) (imm : Word), s.life ≠ .cfgError → (s.life ≠ .running ∨ s.orch = .idle) →
    exec .evPeriod s = .next s ∧ exec (.evSample imm) s = .next s ∧ exec .evSlope s = .next s

/-! ## The arithmetic unit -/

/-- 40_arith.md R101. That operands and result stand on ports is the model's choice (assumption log 5). -/
def Obligations.FxSubIsExact : Prop :=
  decode (.alu 0) = .ok .fxSub ∧
  ∀ s : State,
    exec .fxSub s = .next { s with alu := { s.alu with result := s.alu.operands.a - s.alu.operands.b } } ∧
    (-32768 ≤ s.alu.operands.a → s.alu.operands.a ≤ 32767 → -32768 ≤ s.alu.operands.b → s.alu.operands.b ≤ 32767 →
      -65535 ≤ s.alu.operands.a - s.alu.operands.b ∧ s.alu.operands.a - s.alu.operands.b ≤ 65535)

/-- 40_arith.md R102. That operands and result stand on ports is the model's choice (assumption log 5). -/
def Obligations.FxMulIsExact : Prop :=
  decode (.alu 1) = .ok .fxMul ∧
  ∀ s : State,
    exec .fxMul s = .next { s with alu := { s.alu with result := s.alu.operands.a * s.alu.operands.b } }

/-- 40_arith.md R103. That operands and result stand on ports is the model's choice (assumption log 5). -/
def Obligations.FxMacIsExact : Prop :=
  decode (.alu 2) = .ok .fxMac ∧
  ∀ s : State,
    exec .fxMac s = .next { s with alu :=
      { s.alu with result := s.alu.operands.acc + s.alu.operands.a * s.alu.operands.b } }

/-- 40_arith.md R104: the shift as an inequality: `TRUNC` is the floor of `x / 2^s`, `NEAREST` the nearest integer with a tie
toward plus infinity, and a shift by 0 is the identity (ports: assumption log 5). -/
def Obligations.FxShiftRoundsAsConfigured : Prop :=
  decode (.alu 3) = .ok .fxShift ∧
  ∀ s : State, ∃ r : Int,
    exec .fxShift s = .next { s with alu := { s.alu with result := r } } ∧
    (s.alu.operands.s = 0 → r = s.alu.operands.x) ∧
    (s.cfg.rnd = .trunc →
      r * 2 ^ s.alu.operands.s ≤ s.alu.operands.x ∧ s.alu.operands.x < (r + 1) * 2 ^ s.alu.operands.s) ∧
    (s.alu.operands.s ≠ 0 → s.cfg.rnd = .nearest →
      (2 * r - 1) * 2 ^ s.alu.operands.s ≤ 2 * s.alu.operands.x ∧
      2 * s.alu.operands.x < (2 * r + 1) * 2 ^ s.alu.operands.s)

/-- 40_arith.md R105: the clamp; the upper bound wins when the bounds cross (ports: assumption log 5). -/
def Obligations.FxSatClamps : Prop :=
  decode (.alu 4) = .ok .fxSat ∧
  ∀ s : State, ∃ r : Int,
    exec .fxSat s = .next { s with alu := { s.alu with result := r } } ∧
    (s.alu.operands.hi.toInt < s.alu.operands.lo.toInt → r = s.alu.operands.hi.toInt) ∧
    (s.alu.operands.lo.toInt ≤ s.alu.operands.hi.toInt →
      (s.alu.operands.x < s.alu.operands.lo.toInt → r = s.alu.operands.lo.toInt) ∧
      (s.alu.operands.hi.toInt < s.alu.operands.x → r = s.alu.operands.hi.toInt) ∧
      (s.alu.operands.lo.toInt ≤ s.alu.operands.x → s.alu.operands.x ≤ s.alu.operands.hi.toInt →
        r = s.alu.operands.x)) ∧
    -32768 ≤ r ∧ r ≤ 32767

/-- 40_arith.md R106: saturation to the range of a word, never a wrap (ports: assumption log 5). -/
def Obligations.FxSatwSaturates : Prop :=
  decode (.alu 5) = .ok .fxSatw ∧
  ∀ s : State, ∃ r : Int,
    exec .fxSatw s = .next { s with alu := { s.alu with result := r } } ∧
    (s.alu.operands.x < -32768 → r = -32768) ∧ (32767 < s.alu.operands.x → r = 32767) ∧
    (-32768 ≤ s.alu.operands.x → s.alu.operands.x ≤ 32767 → r = s.alu.operands.x)

/-- 40_arith.md R107: the saturating addition, the sum exact before it saturates (ports: assumption log 5). -/
def Obligations.FxAddsSaturatesTheExactSum : Prop :=
  decode (.alu 6) = .ok .fxAdds ∧
  ∀ s : State, ∃ r : Int,
    exec .fxAdds s = .next { s with alu := { s.alu with result := r } } ∧
    (s.alu.operands.a + s.alu.operands.b < -32768 → r = -32768) ∧
    (32767 < s.alu.operands.a + s.alu.operands.b → r = 32767) ∧
    (-32768 ≤ s.alu.operands.a + s.alu.operands.b → s.alu.operands.a + s.alu.operands.b ≤ 32767 →
      r = s.alu.operands.a + s.alu.operands.b)

/-! ## Whole-machine rules -/

/-- 60_exceptions.md R196, 44_control.md R178: an operation faults exactly as the list says, and completes otherwise; no
well-formed operation is refused; a frame that decodes to no operation is an `IllegalFrame`. -/
def Obligations.OperationsFaultExactlyAsListed : Prop :=
  (∀ (i : Instr) (s : State), i.wf = true →
    match faultOf i s with
    | some f => exec i s = .fault f
    | none => ∃ t, exec i s = .next t) ∧
  (∀ (s : State) (f : Frame) (rest : List Input), s.inputs = .frame f :: rest →
    (∀ i, decode (.frame f) ≠ .ok i) → step s = .fault .illegalFrame)

/-- 44_control.md R179: `LIFE` moves only along the arrows of the table; the pin leads to `Uninit`; in `CfgError` every frame
but a read faults. -/
def Obligations.LifeMovesOnlyAlongItsArrows : Prop :=
  (∀ (i : Instr) (s t : State), exec i s = .next t → LifeArrow i s t.life) ∧
  (∀ (s t : State) (rest : List Input), s.inputs = .rst :: rest → step s = .next t → t.life = .uninit) ∧
  (∀ (f : Frame) (i : Instr) (s : State), decode (.frame f) = .ok i → s.life = .cfgError →
    (∃ a, i = .rd a) ∨ exec i s = .fault .seqFault)

/-- 44_control.md R180: `ORCH` moves only along the arrows of the table, a raise leaves it, and the pin leads to `Idle`. A raise
of `INIT` in orchestrated mode is among them (assumption log 19). -/
def Obligations.OrchMovesOnlyAlongItsArrows : Prop :=
  (∀ (i : Instr) (s t : State), exec i s = .next t → OrchArrow i s t.orch) ∧
  (∀ (i : Instr) (s t : State), exec i s = .next t → s.life ≠ .cfgError → t.life = .cfgError → t.orch = s.orch) ∧
  (∀ (s t : State) (rest : List Input), s.inputs = .rst :: rest → step s = .next t → t.orch = .idle)

/-- 60_exceptions.md R191 to R193: a configuration error is precise: only `ERR` and `LIFE` change, and only the three
configuration commands raise, each with its own causes. -/
def Obligations.ConfigurationErrorIsPrecise : Prop :=
  ∀ (i : Instr) (s t : State), exec i s = .next t → s.life ≠ .cfgError → t.life = .cfgError →
    t = { s with life := .cfgError, err := t.err } ∧
    ((i = .init ∧ ∃ a : Nat, 0x10 ≤ a ∧ a ≤ 0x18 ∧ t.err.toNat = 1 + a * 256) ∨
     (i = .ssArm ∧ (t.err = 0x2202 ∨ t.err = 0x2103)) ∨
     (i = .slCfg ∧ (t.err = 0x2804 ∨ t.err = 0x2904)))

/-- 10_state.md R21, 20_memory.md R72: no operation but `INIT` writes the active configuration, and none but `SL_CFG` the
slope's. -/
def Obligations.OnlyLatchingCommandsWriteConfiguration : Prop :=
  ∀ (i : Instr) (s t : State), exec i s = .next t →
    (i ≠ .init → t.act = s.act) ∧
    (i ≠ .slCfg → t.sl.delta = s.sl.delta ∧ t.sl.steps = s.sl.steps ∧ t.sl.cfgd = s.sl.cfgd) ∧
    ((∀ a v, i ≠ .wr a v) → t.stg = s.stg)

/-- 20_memory.md R72, 70_reset_and_hazards.md R234: what is in the staging registers is not seen by any operation but the
three latching commands and a bus read: changing it changes nothing else in the outcome. -/
def Obligations.StagingIsUnseenUntilLatched : Prop :=
  ∀ (i : Instr) (s : State) (g : Staging),
    i ≠ .init → i ≠ .ssArm → i ≠ .slCfg → (∀ a, i ≠ .rd a) → (∀ a v, i ≠ .wr a v) →
    exec i { s with stg := g } =
      match exec i s with
      | .next t => .next { t with stg := g }
      | .fault f => .fault f
      | .refused r => .refused r

/-! ## Invariants -/

/-- 10_state.md R45, 40_arith.md R108: every step, a reset among them, keeps `PRE` the contraction of the history and the
stored errors in range. -/
def Obligations.StepKeepsPreContraction : Prop :=
  ∀ s t : State, PreIsContraction s → HistoryRange s → step s = .next t → PreIsContraction t ∧ HistoryRange t

/-- 10_state.md R47, 42_softstart.md R145: every step keeps the soft-start invariant: a ramp under way has `N >= 1` and a
count below `N`, a settled one holds its target, and one not started is all 0. -/
def Obligations.StepKeepsSoftStartInvariant : Prop :=
  ∀ s t : State, SoftStartOk s → step s = .next t → SoftStartOk t

/-- 10_state.md section 5, R38: every step keeps the two soft-start cells sign-extended from their `W + SS_FRAC` bits (that they stand
in 32-bit cells is the model's choice, assumption log 9). -/
def Obligations.StepKeepsSoftStartCellsExtended : Prop :=
  ∀ s t : State, CellsExtended s → step s = .next t → CellsExtended t

/-- 10_state.md R32, R42, 44_control.md R180, 70_reset_and_hazards.md R222: every step keeps the lifecycle invariant. -/
def Obligations.StepKeepsLifecycleInvariant : Prop :=
  ∀ s t : State, LifecycleOk s → step s = .next t → LifecycleOk t

/-- 10_state.md R26, 20_memory.md R74, 70_reset_and_hazards.md R235: every step keeps `THRESH` equal to the last value written
to the actuator, and to `OUT` while the ramp is armed. -/
def Obligations.StepKeepsThresholdMirror : Prop :=
  ∀ s t : State, ThresholdOk s → step s = .next t → ThresholdOk t

/-- The parameters a block was built with never change (00_scope.md R20's "parameters of the block"; that they stand in the
state is the model's choice, assumption log 1). -/
def Obligations.StepKeepsTheParameters : Prop :=
  ∀ s t : State, step s = .next t → t.cfg = s.cfg

/-! ## Runs -/

/-- 70_reset_and_hazards.md R223, 41_compensator.md R132: two blocks with the same parameters, staging, slope configuration,
`ERR`, ports and waiting inputs, whatever else they hold, give after an `INIT` the same outputs for the same operations
after it: bit for bit the same events and read results (reads of `THRESH` and `SL_CUR`, which `INIT` leaves, apart). -/
def Obligations.ReInitReproducesOutputs : Prop :=
  ∀ (s1 s2 t1 t2 : State) (prog : List Instr),
    s1.cfg = s2.cfg → s1.stg = s2.stg → s1.sl.delta = s2.sl.delta → s1.sl.steps = s2.sl.steps →
    s1.sl.cfgd = s2.sl.cfgd → s1.err = s2.err → s1.alu = s2.alu → s1.inputs = s2.inputs →
    exec .init s1 = .next t1 → exec .init s2 = .next t2 → t1.life = .initialized →
    .rd 0x05 ∉ prog → .rd 0x5A ∉ prog →
    match execAll prog t1, execAll prog t2 with
    | .next u1, .next u2 =>
      SameButThreshold u1 u2 ∧ ∃ new : List Output, u1.trace = t1.trace ++ new ∧ u2.trace = t2.trace ++ new
    | .fault f1, .fault f2 => f1 = f2
    | _, _ => False

/-- 41_compensator.md R120, R128: a manual run, frame by frame: from a state whose `PRE` is the contraction and whose
soft-start is not started, `WR FDBK` and `UPDATE` for each sample of any sequence write exactly the textbook outputs. -/
def Obligations.ManualRunFollowsTheTextbookRecurrence : Prop :=
  ∀ (s : State) (samples : List Word) (waiting : List Input),
    s.life = .running → s.orch = .idle → s.ss.state = .notStarted → PreIsContraction s →
    s.inputs = samples.flatMap sampleAndUpdate ++ waiting →
    ∃ t : State,
      Host.Core.run Sys2Proof.core (2 * samples.length) s = .next t ∧ t.inputs = waiting ∧
      t.threshWrites = s.threshWrites ++
        (textbookOutputs s.cfg s.act s.hist.e1.toInt s.hist.e2.toInt s.hist.u1.toInt s.hist.u2.toInt samples).map
          (fun x => BitVec.ofInt 16 x)

/-! ## The host's tool -/

/-- 30_encoding.md R95: `Q(v, F)` is the nearest integer to `v * 2^F`, a tie away from zero, in the range of a scaled word;
it is an error outside `[-2^15, 2^15)` and where the rounding gives 32768. -/
def Obligations.LiteralConversionRounds : Prop :=
  ∀ (v : RealLit) (F : Nat), 0 < v.den →
    (q v F = none ↔
      v.num * 2 ^ F < -(2 ^ 15) * v.den ∨ 2 ^ 15 * v.den ≤ v.num * 2 ^ F ∨ 65535 * v.den ≤ 2 * (v.num * 2 ^ F)) ∧
    ∀ r, q v F = some r →
      -32768 ≤ r ∧ r ≤ 32767 ∧ 2 * |r * v.den - v.num * 2 ^ F| ≤ v.den ∧
      (2 * |r * v.den - v.num * 2 ^ F| = v.den → |v.num * 2 ^ F| < |r * v.den|)
end

