-- ==== Sys2Proof/Laws/State.lean ====
section
/-!
SUPPORT. What each named update of the state does to each field (true by rfl), so that no later proof unfolds a record update.
The updates with a condition inside (`armSoftStart`, `ssAdvance`, `ssSettle`, `doSsStep`, `slopeLoop`, `writeReg`) are in Laws/Ops.lean.
-/

namespace Sys2Proof.Machine

/-! ## `emit` -/

@[simp] theorem emit_cfg (s : State) (e : OutEvent) : (s.emit e).cfg = s.cfg := rfl
@[simp] theorem emit_life (s : State) (e : OutEvent) : (s.emit e).life = s.life := rfl
@[simp] theorem emit_orch (s : State) (e : OutEvent) : (s.emit e).orch = s.orch := rfl
@[simp] theorem emit_act (s : State) (e : OutEvent) : (s.emit e).act = s.act := rfl
@[simp] theorem emit_hist (s : State) (e : OutEvent) : (s.emit e).hist = s.hist := rfl
@[simp] theorem emit_fdbk (s : State) (e : OutEvent) : (s.emit e).fdbk = s.fdbk := rfl
@[simp] theorem emit_out (s : State) (e : OutEvent) : (s.emit e).out = s.out := rfl
@[simp] theorem emit_thresh (s : State) (e : OutEvent) : (s.emit e).thresh = s.thresh := rfl
@[simp] theorem emit_stg (s : State) (e : OutEvent) : (s.emit e).stg = s.stg := rfl
@[simp] theorem emit_ss (s : State) (e : OutEvent) : (s.emit e).ss = s.ss := rfl
@[simp] theorem emit_sl (s : State) (e : OutEvent) : (s.emit e).sl = s.sl := rfl
@[simp] theorem emit_err (s : State) (e : OutEvent) : (s.emit e).err = s.err := rfl
@[simp] theorem emit_trace (s : State) (e : OutEvent) : (s.emit e).trace = s.trace ++ [.event e] := rfl
@[simp] theorem emit_alu (s : State) (e : OutEvent) : (s.emit e).alu = s.alu := rfl
@[simp] theorem emit_inputs (s : State) (e : OutEvent) : (s.emit e).inputs = s.inputs := rfl

/-! ## `returnRead` -/

@[simp] theorem returnRead_cfg (s : State) (v : BusWord) : (s.returnRead v).cfg = s.cfg := rfl
@[simp] theorem returnRead_life (s : State) (v : BusWord) : (s.returnRead v).life = s.life := rfl
@[simp] theorem returnRead_orch (s : State) (v : BusWord) : (s.returnRead v).orch = s.orch := rfl
@[simp] theorem returnRead_act (s : State) (v : BusWord) : (s.returnRead v).act = s.act := rfl
@[simp] theorem returnRead_hist (s : State) (v : BusWord) : (s.returnRead v).hist = s.hist := rfl
@[simp] theorem returnRead_fdbk (s : State) (v : BusWord) : (s.returnRead v).fdbk = s.fdbk := rfl
@[simp] theorem returnRead_out (s : State) (v : BusWord) : (s.returnRead v).out = s.out := rfl
@[simp] theorem returnRead_thresh (s : State) (v : BusWord) : (s.returnRead v).thresh = s.thresh := rfl
@[simp] theorem returnRead_stg (s : State) (v : BusWord) : (s.returnRead v).stg = s.stg := rfl
@[simp] theorem returnRead_ss (s : State) (v : BusWord) : (s.returnRead v).ss = s.ss := rfl
@[simp] theorem returnRead_sl (s : State) (v : BusWord) : (s.returnRead v).sl = s.sl := rfl
@[simp] theorem returnRead_err (s : State) (v : BusWord) : (s.returnRead v).err = s.err := rfl
@[simp] theorem returnRead_trace (s : State) (v : BusWord) : (s.returnRead v).trace = s.trace ++ [.readResult v] := rfl
@[simp] theorem returnRead_alu (s : State) (v : BusWord) : (s.returnRead v).alu = s.alu := rfl
@[simp] theorem returnRead_inputs (s : State) (v : BusWord) : (s.returnRead v).inputs = s.inputs := rfl

/-! ## `raiseCfgError` -/

@[simp] theorem raiseCfgError_cfg (s : State) (code info : BitVec 8) : (s.raiseCfgError code info).cfg = s.cfg := rfl
@[simp] theorem raiseCfgError_life (s : State) (code info : BitVec 8) : (s.raiseCfgError code info).life = .cfgError := rfl
@[simp] theorem raiseCfgError_orch (s : State) (code info : BitVec 8) : (s.raiseCfgError code info).orch = s.orch := rfl
@[simp] theorem raiseCfgError_act (s : State) (code info : BitVec 8) : (s.raiseCfgError code info).act = s.act := rfl
@[simp] theorem raiseCfgError_hist (s : State) (code info : BitVec 8) : (s.raiseCfgError code info).hist = s.hist := rfl
@[simp] theorem raiseCfgError_fdbk (s : State) (code info : BitVec 8) : (s.raiseCfgError code info).fdbk = s.fdbk := rfl
@[simp] theorem raiseCfgError_out (s : State) (code info : BitVec 8) : (s.raiseCfgError code info).out = s.out := rfl
@[simp] theorem raiseCfgError_thresh (s : State) (code info : BitVec 8) : (s.raiseCfgError code info).thresh = s.thresh := rfl
@[simp] theorem raiseCfgError_stg (s : State) (code info : BitVec 8) : (s.raiseCfgError code info).stg = s.stg := rfl
@[simp] theorem raiseCfgError_ss (s : State) (code info : BitVec 8) : (s.raiseCfgError code info).ss = s.ss := rfl
@[simp] theorem raiseCfgError_sl (s : State) (code info : BitVec 8) : (s.raiseCfgError code info).sl = s.sl := rfl
@[simp] theorem raiseCfgError_err (s : State) (code info : BitVec 8) : (s.raiseCfgError code info).err = code.setWidth 32 + info.setWidth 32 * 256 := rfl
@[simp] theorem raiseCfgError_trace (s : State) (code info : BitVec 8) : (s.raiseCfgError code info).trace = s.trace := rfl
@[simp] theorem raiseCfgError_alu (s : State) (code info : BitVec 8) : (s.raiseCfgError code info).alu = s.alu := rfl
@[simp] theorem raiseCfgError_inputs (s : State) (code info : BitVec 8) : (s.raiseCfgError code info).inputs = s.inputs := rfl

/-! ## `setAluResult` -/

@[simp] theorem setAluResult_cfg (s : State) (r : Int) : (s.setAluResult r).cfg = s.cfg := rfl
@[simp] theorem setAluResult_life (s : State) (r : Int) : (s.setAluResult r).life = s.life := rfl
@[simp] theorem setAluResult_orch (s : State) (r : Int) : (s.setAluResult r).orch = s.orch := rfl
@[simp] theorem setAluResult_act (s : State) (r : Int) : (s.setAluResult r).act = s.act := rfl
@[simp] theorem setAluResult_hist (s : State) (r : Int) : (s.setAluResult r).hist = s.hist := rfl
@[simp] theorem setAluResult_fdbk (s : State) (r : Int) : (s.setAluResult r).fdbk = s.fdbk := rfl
@[simp] theorem setAluResult_out (s : State) (r : Int) : (s.setAluResult r).out = s.out := rfl
@[simp] theorem setAluResult_thresh (s : State) (r : Int) : (s.setAluResult r).thresh = s.thresh := rfl
@[simp] theorem setAluResult_stg (s : State) (r : Int) : (s.setAluResult r).stg = s.stg := rfl
@[simp] theorem setAluResult_ss (s : State) (r : Int) : (s.setAluResult r).ss = s.ss := rfl
@[simp] theorem setAluResult_sl (s : State) (r : Int) : (s.setAluResult r).sl = s.sl := rfl
@[simp] theorem setAluResult_err (s : State) (r : Int) : (s.setAluResult r).err = s.err := rfl
@[simp] theorem setAluResult_trace (s : State) (r : Int) : (s.setAluResult r).trace = s.trace := rfl
@[simp] theorem setAluResult_alu (s : State) (r : Int) : (s.setAluResult r).alu = { s.alu with result := r } := rfl
@[simp] theorem setAluResult_inputs (s : State) (r : Int) : (s.setAluResult r).inputs = s.inputs := rfl

/-! ## `initialize` -/

@[simp] theorem initialize_cfg (s : State) : s.initialize.cfg = s.cfg := rfl
@[simp] theorem initialize_life (s : State) : s.initialize.life = .initialized := rfl
@[simp] theorem initialize_orch (s : State) : s.initialize.orch = .idle := rfl
@[simp] theorem initialize_act (s : State) : s.initialize.act = s.stg.latch := rfl
@[simp] theorem initialize_hist (s : State) : s.initialize.hist = .zero := rfl
@[simp] theorem initialize_fdbk (s : State) : s.initialize.fdbk = 0 := rfl
@[simp] theorem initialize_out (s : State) : s.initialize.out = 0 := rfl
@[simp] theorem initialize_thresh (s : State) : s.initialize.thresh = s.thresh := rfl
@[simp] theorem initialize_stg (s : State) : s.initialize.stg = s.stg := rfl
@[simp] theorem initialize_ss (s : State) : s.initialize.ss = .zero := rfl
@[simp] theorem initialize_sl (s : State) : s.initialize.sl = { s.sl with armed := false } := rfl
@[simp] theorem initialize_err (s : State) : s.initialize.err = s.err := rfl
@[simp] theorem initialize_trace (s : State) : s.initialize.trace = s.trace := rfl
@[simp] theorem initialize_alu (s : State) : s.initialize.alu = s.alu := rfl
@[simp] theorem initialize_inputs (s : State) : s.initialize.inputs = s.inputs := rfl

/-! ## `doUpdate` -/

@[simp] theorem doUpdate_cfg (s : State) : s.doUpdate.cfg = s.cfg := rfl
@[simp] theorem doUpdate_life (s : State) : s.doUpdate.life = s.life := rfl
@[simp] theorem doUpdate_orch (s : State) : s.doUpdate.orch = s.orch := rfl
@[simp] theorem doUpdate_act (s : State) : s.doUpdate.act = s.act := rfl
@[simp] theorem doUpdate_hist (s : State) : s.doUpdate.hist = s.nextHistory := rfl
@[simp] theorem doUpdate_fdbk (s : State) : s.doUpdate.fdbk = s.fdbk := rfl
@[simp] theorem doUpdate_out (s : State) : s.doUpdate.out = toWord s.clampedOut := rfl
@[simp] theorem doUpdate_thresh (s : State) : s.doUpdate.thresh = toWord s.clampedOut := rfl
@[simp] theorem doUpdate_stg (s : State) : s.doUpdate.stg = s.stg := rfl
@[simp] theorem doUpdate_ss (s : State) : s.doUpdate.ss = s.ss := rfl
@[simp] theorem doUpdate_sl (s : State) : s.doUpdate.sl = { s.sl with cur := toWord s.clampedOut, armed := true } := rfl
@[simp] theorem doUpdate_err (s : State) : s.doUpdate.err = s.err := rfl
@[simp] theorem doUpdate_trace (s : State) : s.doUpdate.trace = s.trace ++ [.event (.threshWrite (toWord s.clampedOut))] := rfl
@[simp] theorem doUpdate_alu (s : State) : s.doUpdate.alu = s.alu := rfl
@[simp] theorem doUpdate_inputs (s : State) : s.doUpdate.inputs = s.inputs := rfl

/-! ## `slopeStep` -/

@[simp] theorem slopeStep_cfg (s : State) : s.slopeStep.cfg = s.cfg := rfl
@[simp] theorem slopeStep_life (s : State) : s.slopeStep.life = s.life := rfl
@[simp] theorem slopeStep_orch (s : State) : s.slopeStep.orch = s.orch := rfl
@[simp] theorem slopeStep_act (s : State) : s.slopeStep.act = s.act := rfl
@[simp] theorem slopeStep_hist (s : State) : s.slopeStep.hist = s.hist := rfl
@[simp] theorem slopeStep_fdbk (s : State) : s.slopeStep.fdbk = s.fdbk := rfl
@[simp] theorem slopeStep_out (s : State) : s.slopeStep.out = s.out := rfl
@[simp] theorem slopeStep_thresh (s : State) : s.slopeStep.thresh = toWord (fxAdds s.sl.cur.toInt s.sl.delta.toInt) := rfl
@[simp] theorem slopeStep_stg (s : State) : s.slopeStep.stg = s.stg := rfl
@[simp] theorem slopeStep_ss (s : State) : s.slopeStep.ss = s.ss := rfl
@[simp] theorem slopeStep_sl (s : State) : s.slopeStep.sl = { s.sl with cur := toWord (fxAdds s.sl.cur.toInt s.sl.delta.toInt) } := rfl
@[simp] theorem slopeStep_err (s : State) : s.slopeStep.err = s.err := rfl
@[simp] theorem slopeStep_trace (s : State) : s.slopeStep.trace = s.trace ++ [.event (.threshWrite (toWord (fxAdds s.sl.cur.toInt s.sl.delta.toInt)))] := rfl
@[simp] theorem slopeStep_alu (s : State) : s.slopeStep.alu = s.alu := rfl
@[simp] theorem slopeStep_inputs (s : State) : s.slopeStep.inputs = s.inputs := rfl

/-! ## `resetPin` -/

@[simp] theorem resetPin_eq (s : State) : s.resetPin = State.resetWith s.cfg s.inputs := rfl
@[simp] theorem resetWith_cfg (p : Params) (w : List Input) : (State.resetWith p w).cfg = p := rfl
@[simp] theorem resetWith_life (p : Params) (w : List Input) : (State.resetWith p w).life = .uninit := rfl
@[simp] theorem resetWith_orch (p : Params) (w : List Input) : (State.resetWith p w).orch = .idle := rfl
@[simp] theorem resetWith_act (p : Params) (w : List Input) : (State.resetWith p w).act = .zero := rfl
@[simp] theorem resetWith_hist (p : Params) (w : List Input) : (State.resetWith p w).hist = .zero := rfl
@[simp] theorem resetWith_fdbk (p : Params) (w : List Input) : (State.resetWith p w).fdbk = 0 := rfl
@[simp] theorem resetWith_out (p : Params) (w : List Input) : (State.resetWith p w).out = 0 := rfl
@[simp] theorem resetWith_thresh (p : Params) (w : List Input) : (State.resetWith p w).thresh = 0 := rfl
@[simp] theorem resetWith_stg (p : Params) (w : List Input) : (State.resetWith p w).stg = .zero := rfl
@[simp] theorem resetWith_ss (p : Params) (w : List Input) : (State.resetWith p w).ss = .zero := rfl
@[simp] theorem resetWith_sl (p : Params) (w : List Input) : (State.resetWith p w).sl = .zero := rfl
@[simp] theorem resetWith_err (p : Params) (w : List Input) : (State.resetWith p w).err = 0 := rfl
@[simp] theorem resetWith_trace (p : Params) (w : List Input) : (State.resetWith p w).trace = [] := rfl
@[simp] theorem resetWith_alu (p : Params) (w : List Input) : (State.resetWith p w).alu = { operands := .zero, result := 0 } := rfl
@[simp] theorem resetWith_inputs (p : Params) (w : List Input) : (State.resetWith p w).inputs = w := rfl

end Sys2Proof.Machine
end

