-- ==== Sys2Proof/Laws/Ops.lean ====
section
/-!
SUPPORT. What each shared operation can do, said once: the arithmetic unit's ranges, the soft-start cells, the gates, and the
frames of the updates that have a condition or a loop inside.
-/

namespace Sys2Proof.Machine

/-! ## Narrowing -/

theorem word_toInt_range (w : Word) : -32768 ≤ w.toInt ∧ w.toInt ≤ 32767 := by
  have h1 := BitVec.le_toInt w
  have h2 := BitVec.toInt_lt (x := w)
  norm_num at h1 h2
  omega

/-- An integer of the range of `n + 1` signed bits survives the narrowing. -/
theorem ofInt_toInt_of_range (n : Nat) (x : Int) (h1 : -(2 ^ n) ≤ x) (h2 : x < 2 ^ n) :
    (BitVec.ofInt (n + 1) x).toInt = x := by
  rw [BitVec.toInt_ofInt]
  apply Int.bmod_eq_of_le <;> push_cast <;> rw [pow_succ] <;> omega

theorem toWord_toInt (x : Int) (h1 : -32768 ≤ x) (h2 : x ≤ 32767) : (toWord x).toInt = x :=
  ofInt_toInt_of_range 15 x (by norm_num; omega) (by norm_num; omega)

@[simp] theorem toWord_of_toInt (w : Word) : toWord w.toInt = w := by
  simp [toWord]

/-! ## The arithmetic unit -/

theorem fxSat_le (x lo hi : Int) : fxSat x lo hi ≤ hi := min_le_right _ _

theorem le_fxSat (x lo hi : Int) (h : lo ≤ hi) : lo ≤ fxSat x lo hi :=
  le_min (le_max_right _ _) h

theorem fxSat_of_lt (x lo hi : Int) (h : hi < lo) : fxSat x lo hi = hi := by
  simp only [fxSat]; omega

theorem fxSatw_range (x : Int) : -32768 ≤ fxSatw x ∧ fxSatw x ≤ 32767 := by
  simp only [fxSatw, fxSat]; omega

theorem fxSatw_of_range (x : Int) (h1 : -32768 ≤ x) (h2 : x ≤ 32767) : fxSatw x = x := by
  simp only [fxSatw, fxSat]; omega

theorem toWord_fxSatw_toInt (x : Int) : (toWord (fxSatw x)).toInt = fxSatw x :=
  toWord_toInt _ (fxSatw_range x).1 (fxSatw_range x).2

@[simp] theorem fxShift_zero (r : Rounding) (x : Int) : fxShift r x 0 = x := by simp [fxShift]

/-- A format shift by a positive amount is one floor division, of `x` or of `x` plus half a unit. -/
theorem fxShift_pos (r : Rounding) (x : Int) (s : Nat) (h : s ≠ 0) :
    fxShift r x s = (x + if r = .nearest then 2 ^ (s - 1) else 0) / 2 ^ s := by
  cases r <;> simp [fxShift, h]

/-! ## The soft-start cells -/

/-- An integer of the range of `W + SS_FRAC` signed bits survives the cell. -/
theorem ssVal_ssCell (p : Params) (x : Int) (h1 : -(2 ^ (15 + p.ssFrac.val)) ≤ x) (h2 : x < 2 ^ (15 + p.ssFrac.val)) :
    ssVal p (ssCell p x) = x := by
  have hw : p.ssWidth = 15 + p.ssFrac.val + 1 := by simp [Params.ssWidth]; omega
  have hle : p.ssWidth ≤ 32 := by simp [Params.ssWidth]; omega
  have hset : ((BitVec.ofInt p.ssWidth x).signExtend 32).setWidth p.ssWidth = BitVec.ofInt p.ssWidth x := by
    apply BitVec.eq_of_getLsbD_eq
    intro i hi
    have hi32 : i < 32 := by omega
    rw [BitVec.getLsbD_setWidth, BitVec.getLsbD_signExtend]
    simp [hi, hi32]
  simp only [ssVal, ssCell, hset]
  rw [hw]
  exact ofInt_toInt_of_range _ _ h1 h2

/-! ## The gates -/

/-- An operation of manual mode that completes was issued in manual mode. -/
theorem manualGate_next {s t : State} {act : Outcome} (h : manualGate s act = .next t) :
    s.manual = true ∧ act = .next t := by
  unfold manualGate at h
  split at h
  · exact ⟨‹_›, h⟩
  · cases h

theorem manual_iff (s : State) : s.manual = true ↔ s.life = .running ∧ s.orch = .idle := by
  simp [State.manual]

theorem orchestrated_iff (s : State) : s.orchestrated = true ↔ s.life = .running ∧ s.orch ≠ .idle := by
  simp [State.orchestrated]

/-- An event that completes acted in orchestrated mode, or was masked and did nothing. -/
theorem eventGate_next {s t : State} {act : Outcome} (h : eventGate s act = .next t) :
    (s.orchestrated = true ∧ act = .next t) ∨
      (s.life ≠ .cfgError ∧ s.orchestrated = false ∧ t = s) := by
  unfold eventGate at h
  split at h
  · cases h
  · split at h
    · exact .inl ⟨‹_›, h⟩
    · cases h
      exact .inr ⟨‹_›, by simp_all, rfl⟩

/-! ## The soft-start's updates: only the soft-start registers change -/

theorem armSoftStart_frame (s : State) (d : SsDir) : s.armSoftStart d = { s with ss := (s.armSoftStart d).ss } := by
  unfold State.armSoftStart
  dsimp only
  split <;> rfl

theorem ssAdvance_frame (s : State) : s.ssAdvance = { s with ss := s.ssAdvance.ss } := by
  unfold State.ssAdvance
  split <;> rfl

theorem ssSettle_frame (s : State) : s.ssSettle = { s with ss := s.ssSettle.ss } := by
  unfold State.ssSettle
  split <;> rfl

theorem doSsStep_frame (s : State) : s.doSsStep = { s with ss := s.doSsStep.ss } := by
  unfold State.doSsStep
  split
  · rw [ssSettle_frame s.ssAdvance, ssAdvance_frame s]
  · rfl
  · rfl

/-! ## The slope ramp: only `THRESH`, `SL_CUR`, `SL_ARMED` and the trace change -/

theorem slopeLoop_frame (n : Nat) (s : State) :
    State.slopeLoop n s =
      { s with
        thresh := (State.slopeLoop n s).thresh
        sl := { s.sl with cur := (State.slopeLoop n s).sl.cur }
        trace := (State.slopeLoop n s).trace } := by
  induction n generalizing s with
  | zero => rfl
  | succ n ih =>
    show State.slopeLoop n s.slopeStep = _
    rw [ih s.slopeStep]
    rfl

theorem slopeRun_frame (s : State) :
    s.slopeRun =
      { s with
        thresh := s.slopeRun.thresh
        sl := { s.sl with cur := s.slopeRun.sl.cur, armed := false }
        trace := s.slopeRun.trace } := by
  have h := slopeLoop_frame s.sl.steps.toNat s
  unfold State.slopeRun
  generalize State.slopeLoop s.sl.steps.toNat s = t at h ⊢
  rw [h]

/-- A ramp run that completes was configured and armed. -/
theorem doSlRun_next {s t : State} (h : s.doSlRun = .next t) :
    s.sl.cfgd = true ∧ s.sl.armed = true ∧ t = s.slopeRun := by
  unfold State.doSlRun at h
  split at h
  · cases h
    simp_all
  · cases h

/-! ## The register space -/

/-- No two rows of the map share an address. -/
theorem regMap_addrs_distinct : (regMap.map (·.addr)).Nodup := by decide

/-- No two rows of the map name one register. -/
theorem regMap_regs_distinct : (regMap.map (·.reg)).Nodup := by decide

/-- A store through the register space changes `FDBK` or a staging register and nothing else. -/
theorem writeReg_frame (s : State) (r : Reg) (v : BusWord) :
    s.writeReg r v = { s with fdbk := (s.writeReg r v).fdbk, stg := (s.writeReg r v).stg } := by
  cases r <;> rfl

/-! ## The configuration checks -/

theorem fitsWord_iff (v : BusWord) : fitsWord v.toInt = true ↔ Fits v := by
  simp [fitsWord, Fits]

end Sys2Proof.Machine
end

