-- ==== Sys2Proof/Laws/Datapath.lean ====
section
/-!
SUPPORT. What the procedures of the datapath compute, said once: the ranges that make each narrowing exact (40_arith.md R108,
42_softstart.md R145), the soft-start step in a ramp under way, and the slope ramp's loop.
-/

namespace Sys2Proof.Machine

/-! ## Ranges -/

theorem errWord_toInt_range (w : ErrWord) : -65536 ≤ w.toInt ∧ w.toInt ≤ 65535 := by
  have h1 := BitVec.le_toInt w
  have h2 := BitVec.toInt_lt (x := w)
  norm_num at h1 h2
  omega

theorem two_pow_ssFrac_pos (p : Params) : (0 : Int) < 2 ^ p.ssFrac.val := by positivity

/-- A soft-start cell read is in the range of `W + SS_FRAC` signed bits. -/
theorem ssVal_range (p : Params) (c : BusWord) :
    -(32768 * 2 ^ p.ssFrac.val) ≤ ssVal p c ∧ ssVal p c < 32768 * 2 ^ p.ssFrac.val := by
  have e : (2 : Int) ^ (15 + p.ssFrac.val) = 32768 * 2 ^ p.ssFrac.val := by rw [pow_add]; norm_num
  have hw : p.ssWidth - 1 = 15 + p.ssFrac.val := by simp only [Params.ssWidth]; omega
  have h1 := BitVec.le_toInt (c.setWidth p.ssWidth)
  have h2 := BitVec.toInt_lt (x := c.setWidth p.ssWidth)
  rw [hw, e] at h1 h2
  exact ⟨h1, h2⟩

/-- A value of that range survives the cell. -/
theorem ssVal_ssCell_of_range (p : Params) (x : Int) (h1 : -(32768 * 2 ^ p.ssFrac.val) ≤ x)
    (h2 : x < 32768 * 2 ^ p.ssFrac.val) : ssVal p (ssCell p x) = x := by
  have e : (2 : Int) ^ (15 + p.ssFrac.val) = 32768 * 2 ^ p.ssFrac.val := by rw [pow_add]; norm_num
  exact ssVal_ssCell p x (by rw [e]; exact h1) (by rw [e]; exact h2)

/-- A scaled word in the accumulator's scale is in that range. -/
theorem ssScale_range (p : Params) (w : Word) :
    -(32768 * 2 ^ p.ssFrac.val) ≤ ssScale p w.toInt ∧ ssScale p w.toInt < 32768 * 2 ^ p.ssFrac.val := by
  have := word_toInt_range w
  have hp := two_pow_ssFrac_pos p
  simp only [ssScale]
  constructor <;> nlinarith

theorem ssLimit_range (s : State) : -32768 ≤ s.ssLimit ∧ s.ssLimit ≤ 32767 := by
  obtain ⟨h1, h2⟩ := ssVal_range s.cfg s.ss.acc
  have hp := two_pow_ssFrac_pos s.cfg
  unfold State.ssLimit
  constructor
  · rw [Int.le_ediv_iff_mul_le hp]; linarith
  · apply Int.le_of_lt_add_one; rw [Int.ediv_lt_iff_lt_mul hp]; linarith

theorem ssHi_range (s : State) : -32768 ≤ s.ssHi ∧ s.ssHi ≤ 32767 := by
  have h1 := ssLimit_range s
  have h2 := word_toInt_range s.act.max
  unfold State.ssHi
  split <;> omega

/-- The clamped output fits a word, so `OUT` holds it exactly. -/
theorem clampedOut_range (s : State) : -32768 ≤ s.clampedOut ∧ s.clampedOut ≤ 32767 := by
  have h1 := ssHi_range s
  have h2 := word_toInt_range s.act.min
  simp only [State.clampedOut, fxSat]
  omega

theorem toWord_clampedOut_toInt (s : State) : (toWord s.clampedOut).toInt = s.clampedOut :=
  toWord_toInt _ (clampedOut_range s).1 (clampedOut_range s).2

theorem errorNow_range (s : State) : -65535 ≤ s.errorNow ∧ s.errorNow ≤ 65535 := by
  have h1 := word_toInt_range s.act.ref
  have h2 := word_toInt_range s.fdbk
  simp only [State.errorNow, fxSub]
  omega

/-- The error is held whole in 17 bits. -/
theorem ofInt_errorNow_toInt (s : State) : (BitVec.ofInt 17 s.errorNow).toInt = s.errorNow := by
  have := errorNow_range s
  exact ofInt_toInt_of_range 16 _ (by norm_num; omega) (by norm_num; omega)

theorem abs_mul_le {a b A B : Int} (ha : |a| ≤ A) (hb : |b| ≤ B) : |a * b| ≤ A * B := by
  rw [abs_mul]
  exact mul_le_mul ha hb (abs_nonneg _) (le_trans (abs_nonneg _) ha)

/-- The partial sum is held whole in 40 bits, whatever the history. -/
theorem ofInt_partialSum_toInt (c : ActiveCfg) (h : History) :
    (BitVec.ofInt 40 (partialSum c h)).toInt = partialSum c h := by
  have hw : ∀ w : Word, |w.toInt| ≤ 32768 := fun w => by
    have := word_toInt_range w; rw [abs_le]; omega
  have he : ∀ w : ErrWord, |w.toInt| ≤ 65536 := fun w => by
    have := errWord_toInt_range w; rw [abs_le]; omega
  have h1 := abs_mul_le (hw c.a1) (hw h.u1)
  have h2 := abs_mul_le (hw c.a2) (hw h.u2)
  have h3 := abs_mul_le (hw c.b1) (he h.e1)
  have h4 := abs_mul_le (hw c.b2) (he h.e2)
  simp only [abs_le] at h1 h2 h3 h4
  apply ofInt_toInt_of_range 39 <;> simp only [partialSum, fxMac, fxMul] <;> norm_num <;> omega

theorem udiv_toNat (a b : BusWord) : (udiv a b).toNat = a.toNat / b.toNat := by
  simp only [udiv, BitVec.toNat_ofNat]
  exact Nat.mod_eq_of_lt (lt_of_le_of_lt (Nat.div_le_self _ _) a.isLt)

/-! ## The configuration checks -/

/-- `INIT` finds no value out of range exactly when all nine fit. -/
theorem firstUnfit_eq_none_iff (s : State) : s.stg.firstUnfit = none ↔ InitFits s := by
  simp only [Staging.firstUnfit, Option.map_eq_none_iff, List.find?_eq_none, Bool.not_eq_true', Bool.not_eq_false,
    fitsWord_iff]
  simp [Staging.initArgs, InitFits]

/-! ## The slope ramp's loop (43_slope.md R157, R159) -/

/-- Each turn adds the increment, saturated. -/
theorem slopeStep_cur_toInt (s : State) :
    s.slopeStep.sl.cur.toInt = fxSatw (s.sl.cur.toInt + s.sl.delta.toInt) :=
  toWord_fxSatw_toInt _

end Sys2Proof.Machine
end

