-- ==== Sys2Proof/Laws/Decode.lean ====
section
/-!
SUPPORT. The bits of a frame put together from its fields (30_encoding.md R81), its fields read back, and the tables'
distinctness.
-/

namespace Sys2Proof

/-- R81: bits 31:0 are `data`, 39:32 `addr`, 40 `w`. -/
theorem frameOf_getLsbD (w : BitVec 1) (a : Addr) (d : BusWord) (i : Nat) :
    (frameOf w a d).getLsbD i =
      if i < 32 then d.getLsbD i else if i < 40 then a.getLsbD (i - 32) else w.getLsbD (i - 40) := by
  have h1 := @BitVec.getLsbD_append (1 + 8) 32 i (w ++ a) d
  have h2 := @BitVec.getLsbD_append 1 8 (i - 32) w a
  have h : (frameOf w a d).getLsbD i = (BitVec.append (w ++ a) d).getLsbD i := rfl
  rw [h]
  refine h1.trans ?_
  by_cases c1 : i < 32
  · simp [c1]
  · by_cases c2 : i < 40
    · have : i - 32 < 8 := by omega
      simp [c1, c2, h2, this]
    · have h8 : ¬ i - 32 < 8 := by omega
      have h40 : i - 32 - 8 = i - 40 := by omega
      simp [c1, c2, h2, h8, h40]

@[simp] theorem frameW_frameOf (w : BitVec 1) (a : Addr) (d : BusWord) : frameW (frameOf w a d) = w.getLsbD 0 := by
  rw [frameW, frameOf_getLsbD]
  rfl

@[simp] theorem frameAddr_frameOf (w : BitVec 1) (a : Addr) (d : BusWord) : frameAddr (frameOf w a d) = a := by
  apply BitVec.eq_of_getLsbD_eq
  intro i hi
  have h1 : ¬ 32 + i < 32 := by omega
  have h2 : 32 + i < 40 := by omega
  simp [frameAddr, frameOf_getLsbD, hi, h2]

@[simp] theorem frameData_frameOf (w : BitVec 1) (a : Addr) (d : BusWord) : frameData (frameOf w a d) = d := by
  apply BitVec.eq_of_getLsbD_eq
  intro i hi
  simp [frameData, frameOf_getLsbD, hi]

/-- R86: the data of an `EV_SAMPLE` frame is its immediate above the code. -/
theorem sampleData_getLsbD (imm : Word) (i : Nat) :
    (imm ++ sampleCode.setWidth 16 : BusWord).getLsbD i =
      if i < 16 then (0x21#16).getLsbD i else imm.getLsbD (i - 16) := by
  have h := @BitVec.getLsbD_append 16 16 i imm (sampleCode.setWidth 16)
  exact h.trans (by by_cases c : i < 16 <;> simp [c, sampleCode])

/-- R88: no two commands share a code, and `EV_SAMPLE`'s is none of theirs. -/
theorem commandTable_codes_distinct : (sampleCode :: commandTable.map Prod.fst).Nodup := by decide

/-- R91: no two micro-operations share an operation select. -/
theorem aluTable_codes_distinct : (aluTable.map Prod.fst).Nodup := by decide

end Sys2Proof
end

