-- ==== Sys2Proof/Laws/PerInstr.lean ====
section
/-!
SUPPORT. A law of each instruction as syntax: its encoding has the bits spec/opcode_table.json fixes for its row (`MatchesRow`).
-/

namespace Sys2Proof.Laws.MatchesRow

/-- A table row: the number of its bits, its mask and its match. -/
structure Row where
  width : Nat
  mask : Nat
  bits : Nat
  deriving DecidableEq, Repr

/-- The row of spec/opcode_table.json of each instruction. -/
def rowOf : Instr → Row
  | .rd _ => ⟨41, 0x10000000000, 0x00000000000⟩
  | .wr _ _ => ⟨41, 0x10000000000, 0x10000000000⟩
  | .init => ⟨41, 0x1FFFFFFFFFF, 0x10000000001⟩
  | .start => ⟨41, 0x1FFFFFFFFFF, 0x10000000002⟩
  | .ssArm => ⟨41, 0x1FFFFFFFFFF, 0x10000000003⟩
  | .slCfg => ⟨41, 0x1FFFFFFFFFF, 0x10000000004⟩
  | .orchEn => ⟨41, 0x1FFFFFFFFFF, 0x10000000005⟩
  | .update => ⟨41, 0x1FFFFFFFFFF, 0x10000000010⟩
  | .ssStep => ⟨41, 0x1FFFFFFFFFF, 0x10000000011⟩
  | .slRun => ⟨41, 0x1FFFFFFFFFF, 0x10000000012⟩
  | .evPeriod => ⟨41, 0x1FFFFFFFFFF, 0x10000000020⟩
  | .evSample _ => ⟨41, 0x1FF0000FFFF, 0x10000000021⟩
  | .evSlope => ⟨41, 0x1FFFFFFFFFF, 0x10000000022⟩
  | .fxSub => ⟨3, 0x7, 0x0⟩
  | .fxMul => ⟨3, 0x7, 0x1⟩
  | .fxMac => ⟨3, 0x7, 0x2⟩
  | .fxShift => ⟨3, 0x7, 0x3⟩
  | .fxSat => ⟨3, 0x7, 0x4⟩
  | .fxSatw => ⟨3, 0x7, 0x5⟩
  | .fxAdds => ⟨3, 0x7, 0x6⟩

/-- The number of bits of a code word. -/
def wordWidth : CodeWord → Nat
  | .frame _ => 41
  | .alu _ => 3

/-- A code word as the number the table's mask and match speak of: bit 0 is the least significant. -/
def wordNat : CodeWord → Nat
  | .frame f => f.toNat
  | .alu op => op.toNat

/-- The instruction's word has its row's width, and its row's fixed bits. -/
def Statement (i : Instr) : Prop :=
  wordWidth (encode i) = (rowOf i).width ∧ wordNat (encode i) &&& (rowOf i).mask = (rowOf i).bits

/-- The bits of a frame, masked: what the mask keeps of each field. -/
theorem masked_frame (f m b : Frame) (h : f &&& m = b) : f.toNat &&& m.toNat = b.toNat := by
  rw [← h, BitVec.toNat_and]

theorem rd (addr : Addr) : Statement (.rd addr) := by
  refine ⟨rfl, masked_frame _ 0x10000000000#41 0x00000000000#41 ?_⟩
  apply BitVec.eq_of_getLsbD_eq
  intro i hi
  rw [BitVec.getLsbD_and, frameOf_getLsbD]
  interval_cases i <;> simp

theorem wr (addr : Addr) (data : BusWord) : Statement (.wr addr data) := by
  refine ⟨rfl, masked_frame _ 0x10000000000#41 0x10000000000#41 ?_⟩
  apply BitVec.eq_of_getLsbD_eq
  intro i hi
  rw [BitVec.getLsbD_and, frameOf_getLsbD]
  interval_cases i <;> simp

theorem init : Statement (.init) := by
  unfold Statement
  decide

theorem start : Statement (.start) := by
  unfold Statement
  decide

theorem ssArm : Statement (.ssArm) := by
  unfold Statement
  decide

theorem slCfg : Statement (.slCfg) := by
  unfold Statement
  decide

theorem orchEn : Statement (.orchEn) := by
  unfold Statement
  decide

theorem update : Statement (.update) := by
  unfold Statement
  decide

theorem ssStep : Statement (.ssStep) := by
  unfold Statement
  decide

theorem slRun : Statement (.slRun) := by
  unfold Statement
  decide

theorem evPeriod : Statement (.evPeriod) := by
  unfold Statement
  decide

theorem evSample (imm : Word) : Statement (.evSample imm) := by
  refine ⟨rfl, masked_frame _ 0x1FF0000FFFF#41 0x10000000021#41 ?_⟩
  apply BitVec.eq_of_getLsbD_eq
  intro i hi
  rw [BitVec.getLsbD_and, frameOf_getLsbD, sampleData_getLsbD]
  interval_cases i <;> simp

theorem evSlope : Statement (.evSlope) := by
  unfold Statement
  decide

theorem fxSub : Statement (.fxSub) := by
  unfold Statement
  decide

theorem fxMul : Statement (.fxMul) := by
  unfold Statement
  decide

theorem fxMac : Statement (.fxMac) := by
  unfold Statement
  decide

theorem fxShift : Statement (.fxShift) := by
  unfold Statement
  decide

theorem fxSat : Statement (.fxSat) := by
  unfold Statement
  decide

theorem fxSatw : Statement (.fxSatw) := by
  unfold Statement
  decide

theorem fxAdds : Statement (.fxAdds) := by
  unfold Statement
  decide

end Sys2Proof.Laws.MatchesRow
end

