-- ==== Sys2Proof/Tests/Slice0.lean ====
section
/-!
SUPPORT. The model's own tests: the well-formedness smoke tests, a decoding of every operation from a word written out from
30_encoding.md, one or two steps of each operation on the vectors of 95_test_vectors.md, and a witness for the hypotheses
of every statement of Certificates/Slice0/Obligations.lean.
-/

namespace Sys2Proof.Tests

open Sys2Proof.Machine

/-! ## Small states -/

/-- The next state of an outcome, if it has one. -/
def nextOf : Outcome → Option State
  | .next t => some t
  | .fault _ | .refused _ => none

/-- The fault of an outcome, if it has one. -/
def faultIn : Outcome → Option Fault
  | .fault f => some f
  | .next _ | .refused _ => none

/-- A signed 32-bit staging value. -/
def stgInt (x : Int) : BusWord := BitVec.ofInt 32 x

/-- `REF_CFG` of 95_test_vectors.md, in staging, with an upward ramp of four periods and a slope of -1 three times. -/
def refStaging : Staging :=
  { Staging.zero with
    ref := 2048, a1 := 13846, a2 := stgInt (-5654), b0 := 26449, b1 := 2381, b2 := stgInt (-24069), k := 4096, max := 1023
    ssRampT := 20000, ssPeriodT := 5000, ssDir := 1, slDelta := stgInt (-1), slSteps := 3 }

/-- A block configured with `REF_CFG`, in a given lifecycle state. -/
def booted (life : Life) (orch : Orch) : State :=
  { State.reset with stg := refStaging, act := refStaging.latch, life := life, orch := orch }

/-- Manual mode. -/
def manual : State := booted .running .idle

/-- Manual mode in the last period of the ramp SS1. -/
def lastPeriod : State :=
  { manual with ss :=
      { state := .ramping, dir := .up, n := 4, count := 3, acc := 50282496, delta := 16760832, target := 1023 } }

/-- Manual mode after SS1 has settled. -/
def settledUp : State :=
  { manual with ss :=
      { state := .settled, dir := .up, n := 4, count := 4, acc := 67043328, delta := 16760832, target := 1023 } }

/-- Between an update and the ramp, with the slope unit configured. -/
def sloped (orch : Orch) : State :=
  { booted .running orch with
    out := 1023
    thresh := 1023
    trace := [.event (.threshWrite 1023)]
    sl := { delta := BitVec.ofInt 16 (-1), steps := 3, cur := 1023, cfgd := true, armed := true } }

/-- A block that a configuration check has stopped. -/
def stopped : State := { booted .cfgError .idle with err := 0x1301 }

/-- A state with operands on the arithmetic unit's ports. -/
def withOperands (s : State) (ops : AluOperands) : State := { s with alu := { s.alu with operands := ops } }

/-- The result port after one micro-operation. -/
def resultOf (i : Instr) (ops : AluOperands) : Option Int := aluRun i ops State.reset

/-- A state with one input waiting. -/
def facing (i : Input) (s : State) : State := { s with inputs := [i] }

/-! ## Well-formedness (30_encoding.md R84): the one ill-formed term -/

theorem test_wf_refuses_wr_to_cmd : (Instr.wr 0x00 5).wf = false := by decide
theorem test_wf_takes_wr_to_next_address : (Instr.wr 0x01 5).wf = true := by decide
theorem test_wr_to_cmd_does_not_round_trip : (decode (encode (.wr 0x00 5))).toOption = some .orchEn := by decide

/-! ## Decoding, from the words of 30_encoding.md R88, R91 and 95_test_vectors.md section 7 -/

theorem test_decode_rd : decodeTableWord 48 0x00400ABCDEF = some (.rd 0x04) := by decide
theorem test_decode_wr : decodeTableWord 48 0x103FFFFFFFD = some (.wr 0x03 0xFFFFFFFD) := by decide
theorem test_decode_init : decodeTableWord 48 0x10000000001 = some .init := by decide
theorem test_decode_start : decodeTableWord 48 0x10000000002 = some .start := by decide
theorem test_decode_ss_arm : decodeTableWord 48 0x10000000003 = some .ssArm := by decide
theorem test_decode_sl_cfg : decodeTableWord 48 0x10000000004 = some .slCfg := by decide
theorem test_decode_orch_en : decodeTableWord 48 0x10000000005 = some .orchEn := by decide
theorem test_decode_update : decodeTableWord 48 0x10000000010 = some .update := by decide
theorem test_decode_ss_step : decodeTableWord 48 0x10000000011 = some .ssStep := by decide
theorem test_decode_sl_run : decodeTableWord 48 0x10000000012 = some .slRun := by decide
theorem test_decode_ev_period : decodeTableWord 48 0x10000000020 = some .evPeriod := by decide
theorem test_decode_ev_sample : decodeTableWord 48 0x100FFFB0021 = some (.evSample 0xFFFB) := by decide
theorem test_decode_ev_slope : decodeTableWord 48 0x10000000022 = some .evSlope := by decide
theorem test_decode_fx_sub : decodeTableWord 8 0x0 = some .fxSub := by decide
theorem test_decode_fx_mul : decodeTableWord 8 0x1 = some .fxMul := by decide
theorem test_decode_fx_mac : decodeTableWord 8 0x2 = some .fxMac := by decide
theorem test_decode_fx_shift : decodeTableWord 8 0x3 = some .fxShift := by decide
theorem test_decode_fx_sat : decodeTableWord 8 0x4 = some .fxSat := by decide
theorem test_decode_fx_satw : decodeTableWord 8 0x5 = some .fxSatw := by decide
theorem test_decode_fx_adds : decodeTableWord 8 0x6 = some .fxAdds := by decide

/-- The rejections, by name: an unassigned code, upper bits set, middle bits set, the reserved select. -/
theorem test_decode_rejections :
    (match decode (.frame 0x10000000006) with | .error e => some e | .ok _ => none) = some .unassignedCode ∧
    (match decode (.frame 0x10000000110) with | .error e => some e | .ok _ => none) = some .commandUpperBits ∧
    (match decode (.frame 0x10000000121) with | .error e => some e | .ok _ => none) = some .sampleMiddleBits ∧
    (match decode (.alu 7) with | .error e => some e | .ok _ => none) = some .reservedAluOp := by decide

/-! ## One step of each operation -/

/-- `RD U1` after section 2's row 1, with `STATUS`'s orchestrator bits in the second. -/
theorem test_rd_u1 :
    (nextOf (exec (.rd 0x42) { manual with hist := { History.zero with u1 := 6612 } })).map (·.trace)
      = some [.readResult 0x19D4] := by decide
theorem test_rd_signed_e1 :
    (nextOf (exec (.rd 0x40) { manual with hist := { History.zero with e1 := BitVec.ofInt 17 (-65535) } })).map (·.trace)
      = some [.readResult 0xFFFF0001] := by decide

/-- `WR FDBK, 0x00008000` stores 32767, `WR FDBK, 0x80000000` stores -32768. -/
theorem test_wr_fdbk_saturates :
    (nextOf (exec (.wr 0x03 0x00008000) manual)).map (·.fdbk) = some 0x7FFF ∧
      (nextOf (exec (.wr 0x03 0x80000000) manual)).map (·.fdbk) = some 0x8000 := by decide
theorem test_wr_out_is_illegal : faultIn (exec (.wr 0x04 1) manual) = some .illegalFrame := by decide

theorem test_init_latches :
    (nextOf (exec .init { State.reset with stg := refStaging })).map (fun t => (t.life, t.act.ref, t.act.max, t.err))
      = some (.initialized, 2048, 1023, 0) := by decide
/-- `C_B2 = -32769` and `C_MAX = 32768`: the lowest address is named. -/
theorem test_init_names_lowest_address :
    (nextOf (exec .init { State.reset with stg := { refStaging with b2 := stgInt (-32769), max := 32768 } })).map
      (fun t => (t.status, t.err)) = some (3, 0x1501) := by decide

theorem test_start : (nextOf (exec .start (booted .initialized .idle))).map (·.status) = some 2 := by decide
theorem test_start_twice : faultIn (exec .start manual) = some .seqFault := by decide

/-- SS1. -/
theorem test_ss_arm :
    (nextOf (exec .ssArm manual)).map (fun t => (t.ss.n, t.ss.delta, t.ss.target, t.ss.acc, t.ss.state))
      = some (4, 16760832, 1023, 0, .ramping) := by decide
/-- SS3, down. -/
theorem test_ss_arm_short_down :
    (nextOf (exec .ssArm { manual with stg := { refStaging with ssRampT := 4999, ssDir := 2 } })).map
      (fun t => (t.ss.state, t.ss.acc, t.ss.delta, t.status)) = some (.settled, 0, 0, 0xA2) := by decide

/-- SL6: both values out of range, and both at their limits. -/
theorem test_sl_cfg_delta_first :
    (nextOf (exec .slCfg { State.reset with stg := { refStaging with slDelta := 40000, slSteps := 65536 } })).map (·.err)
      = some 0x2804 := by decide
theorem test_sl_cfg_limits :
    (nextOf (exec .slCfg { State.reset with stg := { refStaging with slDelta := stgInt (-32768), slSteps := 65535 } })).map
      (fun t => (t.sl.delta, t.sl.steps, t.status)) = some (0x8000, 0xFFFF, 0x100) := by decide

theorem test_orch_en : (nextOf (exec .orchEn manual)).map (·.status) = some 6 := by decide

/-- Section 2, row 1; and row 4, where the filter output saturates into `U1` and stays wide in the gain. -/
theorem test_update_row1 :
    (nextOf (exec .update manual)).map (fun t => (t.out, t.hist.e1, t.hist.u1, t.hist.pre))
      = some (1023, 2048, 6612, 96426040) := by decide
theorem test_update_row4 :
    (nextOf (exec .update { manual with hist := { e1 := 2048, e2 := 2048, u1 := 27697, u2 := 18383, pre := 235138156 } })).map
      (fun t => (t.hist.u1, t.hist.u2, t.hist.pre)) = some (32767, 27697, 252676020) := by decide

theorem test_ss_step_settles :
    (nextOf (exec .ssStep lastPeriod)).map (fun t => (t.ss.state, t.ss.count, t.ss.acc))
      = some (.settled, 4, 67043328) := by decide

/-- SL1 with three steps; and SL2, saturating low. -/
theorem test_sl_run :
    (nextOf (exec .slRun (sloped .idle))).map (fun t => (t.threshWrites, t.sl.cur, t.out, t.sl.armed))
      = some ([1023, 1022, 1021, 1020], 1020, 1023, false) := by decide
theorem test_sl_run_saturates :
    (nextOf (exec .slRun { sloped .idle with
        sl := { delta := BitVec.ofInt 16 (-5), steps := 3, cur := BitVec.ofInt 16 (-32760), cfgd := true, armed := true } })).map
      (fun t => t.threshWrites.map BitVec.toInt) = some [1023, -32765, -32768, -32768] := by decide

theorem test_ev_period :
    (nextOf (exec .evPeriod (booted .running .armed))).map (fun t => (t.status, t.events))
      = some (0xA, [.sampleTrigger]) := by decide
theorem test_ev_period_overrun : faultIn (exec .evPeriod (booted .running .sampleInFlight)) = some .timingFault := by decide

theorem test_ev_sample :
    (nextOf (exec (.evSample 0) (booted .running .sampleInFlight))).map (fun t => (t.status, t.out, t.hist.pre))
      = some (0x206, 1023, 96426040) := by decide
/-- An event in `Initialized` has no effect: `FDBK` stays 0. -/
theorem test_ev_sample_masked :
    (nextOf (exec (.evSample 5) (booted .initialized .idle))).map (fun t => (t.fdbk, t.status)) = some (0, 1) := by decide

theorem test_ev_slope :
    (nextOf (exec .evSlope (sloped .armed))).map (fun t => (t.status, t.thresh)) = some (0x106, 1020) := by decide

/-! The arithmetic unit, from 95_test_vectors.md section 4. -/

theorem test_fx_sub : resultOf .fxSub { AluOperands.zero with a := 32767, b := -32768 } = some 65535 := by decide
theorem test_fx_mul : resultOf .fxMul { AluOperands.zero with a := -32768, b := 65535 } = some (-2147450880) := by decide
theorem test_fx_mac :
    resultOf .fxMac { AluOperands.zero with acc := 96426040, a := 26449, b := 2048 } = some 150593592 := by decide
theorem test_fx_shift_trunc :
    resultOf .fxShift { AluOperands.zero with x := -175101, s := 13 } = some (-22) := by decide
theorem test_fx_shift_nearest :
    aluRun .fxShift { AluOperands.zero with x := -5, s := 2 }
      { State.reset with cfg := { Params.refCfg with rnd := .nearest } } = some (-1) := by decide
theorem test_fx_sat : resultOf .fxSat { AluOperands.zero with x := 20, lo := 100, hi := 50 } = some 50 := by decide
theorem test_fx_satw : resultOf .fxSatw { AluOperands.zero with x := -32769 } = some (-32768) := by decide
theorem test_fx_adds : resultOf .fxAdds { AluOperands.zero with a := -32765, b := -5 } = some (-32768) := by decide

/-! ## The step and the host's tool -/

theorem test_step_takes_the_frame :
    (nextOf (step (State.reset.withFetchWord 48 0x10300000800))).map (fun t => (t.fdbk, t.inputs)) = some (2048, []) := by
  decide
theorem test_step_refuses_reserved_select :
    (match step (facing (.alu 7 .zero) State.reset) with | .refused r => some r | _ => none) = some .reservedAluOp := by
  decide

theorem test_literal : q ⟨169020338, 100000000⟩ 13 = some 13846 ∧ q ⟨-4, 1⟩ 13 = some (-32768) ∧ q ⟨399995, 100000⟩ 13 = none := by
  decide
theorem test_asm_pseudo : asmLine "MSTEP -3 ; a period" = some [.wr 0x03 0xFFFFFFFD, .update, .ssStep] := by decide

/-! ## Witnesses: for every statement with hypotheses, states and operands that meet them, clause by clause -/

theorem witness_RstPinResetsEveryRegister :
    (facing .rst stopped).inputs = .rst :: [] ∧ stopped.life = .cfgError ∧ ∃ t, exec (.rd 0x01) stopped = .next t :=
  ⟨rfl, rfl, _, rfl⟩

theorem witness_DecodeInvertsEncode :
    (Instr.wr 0x01 0xFFFFFFFF).wf = true ∧ (Instr.wr 0xFF 0).wf = true ∧ (Instr.rd 0x00).wf = true := by decide

theorem witness_EncodeInvertsDecode :
    decode (.frame 0x10100000000) = .ok (.wr 0x01 0) ∧ decode (.frame 0x000FFFFFFFF) = .ok (.rd 0x00) ∧
      decode (.alu 6) = .ok .fxAdds := ⟨rfl, rfl, rfl⟩

/-- One frame for each of the five cases: reads, a write at the lowest address, the event, a command, and a word that is
none of them. -/
theorem witness_FrameDecodesByFirstMatchingCase :
    (0x0FFFFFFFFFF : Frame).toNat / 2 ^ 40 = 0 ∧
    ((0x10100000021 : Frame).toNat / 2 ^ 40 = 1 ∧ (0x10100000021 : Frame).toNat / 2 ^ 32 % 2 ^ 8 ≠ 0) ∧
    ((0x100FFFF0021 : Frame).toNat / 2 ^ 32 = 2 ^ 8 ∧ (0x100FFFF0021 : Frame).toNat % 2 ^ 16 = 0x21) ∧
    ((0x10000000022 : Frame).toNat / 2 ^ 8 % 2 ^ 24 = 0 ∧ (0x10000000022 : Frame).toNat % 2 ^ 8 = 0x22) ∧
    ((0x10000000023 : Frame).toNat / 2 ^ 32 = 2 ^ 8 ∧ (0x10000000023 : Frame).toNat % 2 ^ 8 = 0x23 ∧
      (facing (.frame 0x10000000023) manual).inputs = .frame 0x10000000023 :: []) := by decide

theorem witness_StepRunsTheDecodedInput :
    (facing (.frame 0x10000000010) manual).inputs = .frame 0x10000000010 :: [] ∧
      decode (.frame 0x10000000010) = .ok .update ∧
      (facing (.alu 3 .zero) manual).inputs = .alu 3 .zero :: [] ∧ decode (.alu 3) = .ok .fxShift ∧
      (facing (.alu 7 .zero) manual).inputs = .alu 7 .zero :: [] ∧ manual.inputs = [] :=
  ⟨rfl, rfl, rfl, rfl, rfl, rfl⟩

theorem witness_IllegalFramesFault :
    ((0x10000000006 : Frame).toNat / 2 ^ 32 = 2 ^ 8 ∧
      (0x10000000006 : Frame).extractLsb' 0 8 ∉ (0x21 : BitVec 8) :: commandCodes) ∧
    ((0x10000000110 : Frame).toNat / 2 ^ 32 = 2 ^ 8 ∧ (0x10000000110 : Frame).extractLsb' 0 8 ∈ commandCodes ∧
      (0x10000000110 : Frame).toNat / 2 ^ 8 % 2 ^ 24 ≠ 0) ∧
    ((0x10000000121 : Frame).toNat / 2 ^ 32 = 2 ^ 8 ∧ (0x10000000121 : Frame).extractLsb' 0 8 = 0x21 ∧
      (0x10000000121 : Frame).toNat / 2 ^ 8 % 2 ^ 8 ≠ 0) ∧
    ((0x00000000000 : Frame).toNat / 2 ^ 40 = 0 ∧ (0x00000000000 : Frame).extractLsb' 32 8 ∉ readAddrs) ∧
    ((0x10400000001 : Frame).toNat / 2 ^ 40 = 1 ∧
      (0x10400000001 : Frame).extractLsb' 32 8 ∉ (0x00 : Addr) :: storeAddrs ∧ manual.life ≠ .cfgError) := by decide

theorem witness_ReadReturnsTheMappedRegister :
    ((0x01, stopped.status) ∈ readTable stopped ∧ (0x5A, busInt manual.sl.cur.toInt) ∈ readTable manual) ∧
    ((∀ v, (0x00, v) ∉ readTable manual) ∧ ∀ v, (0x06, v) ∉ readTable manual) := by
  refine ⟨by decide, ?_, ?_⟩ <;> intro v <;> simp [readTable]

theorem witness_WriteStoresIntoOneRegister :
    manual.life ≠ .cfgError ∧ (∃ t, (0x29, t) ∈ storeTable manual 0xFFFFFFFF) ∧
    (∀ t, (0x04, t) ∉ storeTable manual 1) ∧
    decode (.frame (frameOf 1 0x00 0x01)) = .ok .init ∧
    stopped.life = .cfgError ∧ decode (.frame (frameOf 1 0x03 5)) = .ok (.wr 0x03 5) := by
  refine ⟨by decide, ⟨_, by simp [storeTable]; rfl⟩, ?_, rfl, rfl, rfl⟩
  intro t
  simp [storeTable]

/-- The two ends of the range of a scaled word fit, and the values beside them do not. -/
theorem witness_Fits :
    Fits (stgInt (-32768)) ∧ Fits 32767 ∧ ¬ Fits (stgInt (-32769)) ∧ ¬ Fits 32768 := by
  unfold Fits
  decide

theorem witness_InitLatchesAndZeroes :
    manual.life ≠ .cfgError ∧
      InitFits { manual with stg := { refStaging with b2 := stgInt (-32768), max := 32767 } } := by
  unfold InitFits Fits
  decide

theorem witness_InitRaisesAtTheFirstUnfitValue :
    let s : State := { manual with stg := { Staging.zero with ref := 32767, max := 32768 } }
    s.life ≠ .cfgError ∧
    [((0x10 : BitVec 8), s.stg.ref), (0x11, s.stg.a1), (0x12, s.stg.a2), (0x13, s.stg.b0), (0x14, s.stg.b1),
        (0x15, s.stg.b2), (0x16, s.stg.k), (0x17, s.stg.min), (0x18, s.stg.max)]
      = [(0x10, 32767), (0x11, 0), (0x12, 0), (0x13, 0), (0x14, 0), (0x15, 0), (0x16, 0), (0x17, 0)]
        ++ (0x18, 32768) :: [] ∧
    (∀ p ∈ [((0x10 : BitVec 8), (32767 : BusWord)), (0x11, 0), (0x12, 0), (0x13, 0), (0x14, 0), (0x15, 0), (0x16, 0),
      (0x17, 0)], Fits p.2) ∧ ¬ Fits 32768 := by
  intro s
  have h0 : Fits 0 := by unfold Fits; decide
  have h1 : Fits 32767 := by unfold Fits; decide
  refine ⟨by decide, rfl, ?_, by unfold Fits; decide⟩
  simp only [List.mem_cons, List.not_mem_nil, or_false, forall_eq_or_imp, forall_eq]
  exact ⟨h1, h0, h0, h0, h0, h0, h0, h0⟩

theorem witness_StartEntersRunning : (booted .initialized .idle).life = .initialized ∧ manual.life ≠ .initialized := by
  decide

theorem witness_OrchEnArmsTheOrchestrator :
    (manual.life = .running ∧ manual.orch = .idle) ∧ (booted .running .armed).orch ≠ .idle ∧
      (booted .initialized .idle).life ≠ .running := by decide

/-- `UpdateComputesOneRecurrenceStep`, and the hypotheses of the statements about an `UPDATE` that completes. -/
theorem witness_UpdateComputesOneRecurrenceStep :
    manual.life = .running ∧ manual.orch = .idle ∧ ∃ t, exec .update manual = .next t := ⟨rfl, rfl, _, rfl⟩

/-- A history of section 2, row 3. -/
def midRun : State :=
  { manual with hist := { e1 := 2048, e2 := 2048, u1 := 27697, u2 := 18383, pre := 235138156 } }

theorem witness_UpdateFollowsTheTextbookEquation :
    PreIsContraction midRun ∧ midRun.ss.state = .notStarted ∧ ∃ t, exec .update midRun = .next t := by
  refine ⟨?_, rfl, _, rfl⟩
  unfold PreIsContraction
  decide

theorem witness_OutputLiesInItsBounds :
    (∃ t, exec .update lastPeriod = .next t) ∧
    (∃ t, exec (.evSample 0x8000) (booted .running .sampleInFlight) = .next t) ∧
      (booted .running .sampleInFlight).life = .running ∧ (booted .running .sampleInFlight).orch = .sampleInFlight ∧
    manual.act.min.toInt ≤ manual.ssHi ∧
    (let s : State := { manual with act := { manual.act with min := 100, max := 50 } }
     s.ssHi < s.act.min.toInt) :=
  ⟨⟨_, rfl⟩, ⟨_, rfl⟩, rfl, rfl, by decide, by decide⟩

theorem witness_MicroOperationsComposeToUpdate : ∃ t, exec .update lastPeriod = .next t := ⟨_, rfl⟩

theorem witness_WideValuesStayInTheirBounds :
    let s : State := { State.reset with hist := { History.zero with e1 := 0x0FFFF, e2 := BitVec.ofInt 17 (-65535) } }
    HistoryRange s ∧ PreIsContraction s ∧ HistoryRange midRun ∧ PreIsContraction midRun := by
  unfold HistoryRange PreIsContraction
  decide

/-- Both directions, both lifecycle states, and a length of exactly 1. -/
theorem witness_SsArmStartsTheRamp :
    (manual.life = .running ∧ manual.stg.ssDir = 1 ∧ manual.stg.ssPeriodT ≠ 0 ∧
      1 ≤ manual.stg.ssRampT.toNat / manual.stg.ssPeriodT.toNat) ∧
    (let s : State := { booted .initialized .idle with stg := { refStaging with ssDir := 2, ssRampT := 5000 } }
     s.life = .initialized ∧ s.stg.ssDir = 2 ∧ s.stg.ssRampT.toNat / s.stg.ssPeriodT.toNat = 1) := by decide

theorem witness_ShortRampSettlesAtOnce :
    let s : State := { manual with stg := { refStaging with ssRampT := 4999 } }
    s.life = .running ∧ s.stg.ssDir = 1 ∧ s.stg.ssPeriodT ≠ 0 ∧ s.stg.ssRampT.toNat / s.stg.ssPeriodT.toNat = 0 ∧
      settledUp.life = .running ∧ settledUp.orch = .idle := by decide

theorem witness_SsArmRaisesOnBadConfiguration :
    (let s : State := { manual with stg := { refStaging with ssDir := 3, ssPeriodT := 0 } }
     s.life = .running ∧ s.stg.ssDir ≠ 1 ∧ s.stg.ssDir ≠ 2) ∧
    (let s : State := { manual with stg := { refStaging with ssDir := 2, ssPeriodT := 0 } }
     s.stg.ssDir = 2 ∧ s.stg.ssPeriodT = 0) := by decide

/-- A ramp one step before its end, one two steps before, and states outside a ramp. -/
theorem witness_SsStepAdvancesOrSettles :
    SoftStartOk lastPeriod ∧ lastPeriod.life = .running ∧ lastPeriod.orch = .idle ∧ lastPeriod.ss.state = .ramping ∧
      lastPeriod.ss.count.toNat + 1 = lastPeriod.ss.n.toNat ∧
    (let s : State := { lastPeriod with ss := { lastPeriod.ss with count := 2, acc := 33521664 } }
     SoftStartOk s ∧ s.ss.count.toNat + 1 < s.ss.n.toNat) ∧
    SoftStartOk settledUp ∧ settledUp.ss.state ≠ .ramping ∧ SoftStartOk manual := by
  refine ⟨?_, rfl, rfl, rfl, rfl, ⟨?_, by decide⟩, ?_, by decide, rfl⟩
  · show _ ∧ _; decide
  · show _ ∧ _; decide
  · show _ ∧ _; decide

/-- Armed in `Initialized` and in `Running`, for `N = 4` and for `N = 1`; stepped in manual mode after a `START`, and in
orchestrated mode. -/
theorem witness_RampReachesItsTargetInExactlyN :
    let s := booted .initialized .idle
    (s.life = .initialized ∧ s.stg.ssDir = 1 ∧ s.stg.ssPeriodT ≠ 0 ∧
      1 ≤ s.stg.ssRampT.toNat / s.stg.ssPeriodT.toNat) ∧
    (let r : State := { manual with stg := { refStaging with ssDir := 2, ssRampT := 5000 } }
     r.life = .running ∧ r.stg.ssDir = 2 ∧ r.stg.ssRampT.toNat / r.stg.ssPeriodT.toNat = 1) ∧
    ∃ t w w', exec .ssArm s = .next t ∧
      (exec .start t = .next w ∧ w.cfg = t.cfg ∧ w.act = t.act ∧ w.ss = t.ss ∧ w.life = .running ∧ w.orch = .idle) ∧
      (exec .orchEn w = .next w' ∧ w'.cfg = t.cfg ∧ w'.act = t.act ∧ w'.ss = t.ss ∧ w'.life = .running ∧
        w'.orch = .armed) :=
  ⟨by decide, by decide, _, _, _, rfl, ⟨rfl, rfl, rfl, rfl, rfl, rfl⟩, rfl, rfl, rfl, rfl, rfl, rfl⟩

/-- After 3 of 4 steps, and the last step's state as the later one. -/
theorem witness_RampUpRisesBelowMax :
    manual.stg.ssDir = 1 ∧ 0 < manual.act.max.toInt ∧
      ∃ t v w, exec .ssArm manual = .next t ∧ t.life = .running ∧ t.ss.state = .ramping ∧ 3 < t.ss.n.toNat ∧
        execAll (List.replicate 3 .ssStep) t = .next v ∧ 4 ≤ t.ss.n.toNat ∧
        execAll (List.replicate 4 .ssStep) t = .next w :=
  ⟨rfl, by decide, _, _, _, rfl, rfl, rfl, by decide, rfl, by decide, rfl⟩

theorem witness_RampDownFallsToZero :
    let s : State := { manual with stg := { refStaging with ssDir := 2 } }
    s.stg.ssDir = 2 ∧ 0 ≤ s.act.max.toInt ∧
      ∃ t v w, exec .ssArm s = .next t ∧ t.life = .running ∧ t.ss.state = .ramping ∧ 3 < t.ss.n.toNat ∧
        execAll (List.replicate 3 .ssStep) t = .next v ∧ 4 ≤ t.ss.n.toNat ∧
        execAll (List.replicate 4 .ssStep) t = .next w :=
  ⟨rfl, by decide, _, _, _, rfl, rfl, rfl, by decide, rfl, by decide, rfl⟩

theorem witness_SoftStartStaysWithinMax : SoftStartOk lastPeriod ∧ 0 ≤ lastPeriod.act.max.toInt := by
  refine ⟨?_, by decide⟩
  show _ ∧ _
  decide

theorem witness_UpperBoundFollowsTheSoftStart :
    manual.ss.state = .notStarted ∧ lastPeriod.ss.state = .ramping ∧
    (SoftStartOk settledUp ∧ settledUp.ss.state = .settled ∧ settledUp.ss.dir = .up) ∧
    (let s : State := { manual with ss := { SoftStart.zero with state := .settled, dir := .down } }
     SoftStartOk s ∧ s.ss.state = .settled ∧ s.ss.dir = .down) := by
  refine ⟨rfl, rfl, ⟨?_, rfl, rfl⟩, ?_, rfl, rfl⟩
  · show _ ∧ _; decide
  · show _ ∧ _; decide

theorem witness_SlCfgLatchesTheSlope :
    let s : State := { State.reset with stg := { refStaging with slDelta := stgInt (-32768), slSteps := 65535 } }
    s.life = .uninit ∧ Fits s.stg.slDelta ∧ s.stg.slSteps.toNat ≤ 65535 := by
  unfold Fits
  decide

theorem witness_SlCfgRaisesOnBadConfiguration :
    (booted .initialized .idle).life = .initialized ∧ ¬ Fits 32768 ∧ Fits 32767 ∧ 65535 < (65536 : BusWord).toNat := by
  unfold Fits
  decide

theorem witness_SlopeRampWritesALinearSequence :
    (sloped .idle).life = .running ∧ (sloped .idle).orch = .idle ∧ (sloped .idle).sl.cfgd = true ∧
      (sloped .idle).sl.armed = true := by decide

theorem witness_PeriodWritesStepsPlusOneValues :
    let s : State := { sloped .idle with sl := { (sloped .idle).sl with armed := false } }
    s.life = .running ∧ s.orch = .idle ∧ s.sl.cfgd = true := by decide

theorem witness_RampAndSoftStartStepCommute :
    let s : State := { lastPeriod with sl := (sloped .idle).sl }
    s.life = .running ∧ s.orch = .idle ∧ s.sl.cfgd = true ∧ s.sl.armed = true := by decide

theorem witness_EvPeriodTriggersTheSample :
    ((booted .running .armed).life = .running ∧ (booted .running .armed).orch = .armed) ∧
    ((booted .running .sampleInFlight).orch ≠ .idle ∧ (booted .running .sampleInFlight).orch ≠ .armed) ∧
    (manual.life ≠ .cfgError ∧ manual.orch = .idle) ∧ stopped.life = .cfgError := by decide

theorem witness_EvSampleRunsTheWholeHandler :
    (booted .running .sampleInFlight).life = .running ∧ (booted .running .sampleInFlight).orch = .sampleInFlight := by
  decide

theorem witness_EvSlopeRunsTheRamp :
    (sloped .armed).life = .running ∧ (sloped .armed).orch ≠ .idle ∧ (sloped .armed).sl.cfgd = true ∧
      (sloped .armed).sl.armed = true := by decide

theorem witness_MaskedEventsAreLost :
    (State.reset.life ≠ .cfgError ∧ State.reset.life ≠ .running) ∧ (manual.life ≠ .cfgError ∧ manual.orch = .idle) := by
  decide

/-- The ports at the ends of a scaled word's range. -/
theorem witness_FxSubIsExact :
    let s := withOperands State.reset { AluOperands.zero with a := 32767, b := -32768 }
    (-32768 : Int) ≤ s.alu.operands.a ∧ s.alu.operands.a ≤ 32767 ∧ -32768 ≤ s.alu.operands.b ∧ s.alu.operands.b ≤ 32767 := by
  decide

theorem witness_FxShiftRoundsAsConfigured :
    State.reset.alu.operands.s = 0 ∧ State.reset.cfg.rnd = .trunc ∧
      (withOperands State.reset { AluOperands.zero with s := 1 }).alu.operands.s ≠ 0 ∧
      { Params.refCfg with rnd := .nearest }.rnd = .nearest := by decide

theorem witness_FxSatClamps :
    (let s := withOperands State.reset { AluOperands.zero with lo := 100, hi := 50 }
     s.alu.operands.hi.toInt < s.alu.operands.lo.toInt) ∧
    (let s := withOperands State.reset { AluOperands.zero with x := -1 }
     s.alu.operands.lo.toInt ≤ s.alu.operands.hi.toInt ∧ s.alu.operands.x < s.alu.operands.lo.toInt) ∧
    (let s := withOperands State.reset { AluOperands.zero with x := 1 }
     s.alu.operands.hi.toInt < s.alu.operands.x) ∧
    State.reset.alu.operands.lo.toInt ≤ State.reset.alu.operands.x ∧
    State.reset.alu.operands.x ≤ State.reset.alu.operands.hi.toInt := by decide

/-- The operands beside each end of the range, for `FX_SATW` and `FX_ADDS`. -/
theorem witness_FxSatwSaturates :
    (withOperands State.reset { AluOperands.zero with x := -32769 }).alu.operands.x < -32768 ∧
      32767 < (withOperands State.reset { AluOperands.zero with x := 32768 }).alu.operands.x ∧
      -32768 ≤ (withOperands State.reset { AluOperands.zero with x := -32768 }).alu.operands.x := by decide

theorem witness_FxAddsSaturatesTheExactSum :
    (let o := { AluOperands.zero with a := -32768, b := -1 }
     o.a + o.b < -32768) ∧
    (let o := { AluOperands.zero with a := 32767, b := 1 }
     32767 < o.a + o.b) ∧
    (let o := { AluOperands.zero with a := 32767, b := 0 }
     (-32768 : Int) ≤ o.a + o.b ∧ o.a + o.b ≤ 32767) := by decide

theorem witness_OperationsFaultExactlyAsListed :
    (Instr.wr 0x29 0).wf = true ∧ faultOf (.wr 0x29 0) manual = none ∧ faultOf .start manual = some .seqFault ∧
      (facing (.frame 0x10000000006) manual).inputs = .frame 0x10000000006 :: [] ∧
      (decode (.frame 0x10000000006)).toOption = none := by decide

theorem witness_LifeMovesOnlyAlongItsArrows :
    (∃ t, exec .start (booted .initialized .idle) = .next t) ∧
    ((facing .rst stopped).inputs = .rst :: [] ∧ ∃ t, step (facing .rst stopped) = .next t) ∧
    decode (.frame 0x10000000010) = .ok .update ∧ stopped.life = .cfgError :=
  ⟨⟨_, rfl⟩, ⟨rfl, _, rfl⟩, rfl, rfl⟩

/-- A raise in orchestrated mode among them. -/
theorem witness_OrchMovesOnlyAlongItsArrows :
    ∃ t, exec .ssArm { booted .running .armed with stg := { refStaging with ssDir := 0 } } = .next t ∧
      (booted .running .armed).life ≠ .cfgError ∧ t.life = .cfgError := ⟨_, rfl, by decide, rfl⟩

theorem witness_ConfigurationErrorIsPrecise :
    ∃ t, exec .init { manual with stg := { refStaging with max := 32768 } } = .next t ∧ manual.life ≠ .cfgError ∧
      t.life = .cfgError := ⟨_, rfl, by decide, rfl⟩

theorem witness_OnlyLatchingCommandsWriteConfiguration :
    ∃ t, exec (.evSample 0) (booted .running .sampleInFlight) = .next t ∧ (Instr.evSample 0) ≠ .init ∧
      (Instr.evSample 0) ≠ .slCfg := ⟨_, rfl, by decide, by decide⟩

theorem witness_StagingIsUnseenUntilLatched :
    Instr.update ≠ .init ∧ Instr.update ≠ .ssArm ∧ Instr.update ≠ .slCfg ∧ (∀ a, Instr.update ≠ .rd a) ∧
      ∀ a v, Instr.update ≠ .wr a v := by
  refine ⟨by decide, by decide, by decide, ?_, ?_⟩ <;> intros <;> simp

/-- The invariants, before a step that acts on what each speaks of. -/
theorem witness_StepKeepsPreContraction :
    let s := facing (.frame 0x10000000010) midRun
    PreIsContraction s ∧ HistoryRange s ∧ ∃ t, step s = .next t := by
  refine ⟨?_, ?_, _, rfl⟩
  · unfold PreIsContraction; decide
  · unfold HistoryRange; decide

/-- For `StepKeepsSoftStartCellsExtended` too. -/
theorem witness_StepKeepsSoftStartInvariant :
    let s := facing (.frame 0x10000000011) lastPeriod
    SoftStartOk s ∧ CellsExtended s ∧ ∃ t, step s = .next t := by
  refine ⟨?_, ?_, _, rfl⟩
  · show _ ∧ _; decide
  · unfold CellsExtended; decide

theorem witness_StepKeepsLifecycleInvariant :
    let s := facing (.frame 0x10000000012) (sloped .idle)
    LifecycleOk s ∧ LifecycleOk stopped ∧ ∃ t, step s = .next t := by
  refine ⟨?_, ?_, _, rfl⟩ <;> unfold LifecycleOk <;> decide

/-- For `StepKeepsTheParameters` too. -/
theorem witness_StepKeepsThresholdMirror :
    let s := facing (.frame 0x10000000012) (sloped .idle)
    ThresholdOk s ∧ ∃ t, step s = .next t := by
  refine ⟨?_, _, rfl⟩
  unfold ThresholdOk
  decide

/-- Two states that differ in everything `INIT` overwrites, and a program of one period. -/
theorem witness_ReInitReproducesOutputs :
    let s1 : State := { sloped .idle with hist := midRun.hist }
    let s2 : State := { booted .initialized .idle with sl := { (sloped .idle).sl with cur := 5, armed := false } }
    s1.cfg = s2.cfg ∧ s1.stg = s2.stg ∧ s1.sl.delta = s2.sl.delta ∧ s1.sl.steps = s2.sl.steps ∧
      s1.sl.cfgd = s2.sl.cfgd ∧ s1.err = s2.err ∧ s1.alu = s2.alu ∧ s1.inputs = s2.inputs ∧
      (∃ t1 t2, exec .init s1 = .next t1 ∧ exec .init s2 = .next t2 ∧ t1.life = .initialized) ∧
      Instr.rd 0x05 ∉ [Instr.start, .wr 0x03 0, .update, .slRun, .rd 0x04] ∧
      Instr.rd 0x5A ∉ [Instr.start, .wr 0x03 0, .update, .slRun, .rd 0x04] :=
  ⟨rfl, rfl, rfl, rfl, rfl, rfl, rfl, rfl, ⟨_, _, rfl, rfl, rfl⟩, by decide, by decide⟩

theorem witness_ManualRunFollowsTheTextbookRecurrence :
    let s : State := { midRun with inputs := [0x8000, 0x7FFF].flatMap sampleAndUpdate ++ [.rst] }
    s.life = .running ∧ s.orch = .idle ∧ s.ss.state = .notStarted ∧ PreIsContraction s ∧
      s.inputs = [0x8000, 0x7FFF].flatMap sampleAndUpdate ++ [.rst] := by
  refine ⟨rfl, rfl, rfl, ?_, rfl⟩
  unfold PreIsContraction
  decide

/-- `Q` at -2^15, just below 32767.5, and at 32767.5. -/
theorem witness_LiteralConversionRounds :
    (0 < 2 ∧ q ⟨-65536, 2⟩ 0 = some (-32768)) ∧ q ⟨65534, 2⟩ 0 = some 32767 ∧ q ⟨65535, 2⟩ 0 = none := by decide

end Sys2Proof.Tests
end

