-- ==== Sys2Proof/Proofs/StepCases.lean ====
section
/-!
PROOF. What a completed operation and a completed step have done, said once: an operation that completes passed its
checks and left one named state, and a step held, reset the block or ran one operation. The proofs about `step` go
through these.
-/

namespace Sys2Proof.Machine

/-! ## The operations -/

section Operations

variable {s t : State}

theorem execRd_next {addr : Addr} (h : execRd addr s = .next t) :
    ∃ r, readableAt addr = some r ∧ t = s.returnRead (s.readReg r) := by
  unfold execRd at h
  split at h
  · cases h
    exact ⟨_, ‹_›, rfl⟩
  · cases h

theorem execWr_next {addr : Addr} {v : BusWord} (h : execWr addr v s = .next t) :
    s.life ≠ .cfgError ∧ ∃ r, writableAt addr = some r ∧ t = s.writeReg r v := by
  unfold execWr at h
  split at h
  · cases h
  · split at h
    · cases h
      exact ⟨‹_›, _, ‹_›, rfl⟩
    · cases h

theorem execInit_next (h : execInit s = .next t) :
    s.life ≠ .cfgError ∧
      ((∃ addr, s.stg.firstUnfit = some addr ∧ t = s.raiseCfgError 1 addr) ∨
        (s.stg.firstUnfit = none ∧ t = s.initialize)) := by
  unfold execInit at h
  split at h
  · cases h
  · refine ⟨‹_›, ?_⟩
    split at h
    · cases h
      exact .inl ⟨_, ‹_›, rfl⟩
    · cases h
      exact .inr ⟨‹_›, rfl⟩

theorem execStart_next (h : execStart s = .next t) :
    s.life = .initialized ∧ t = { s with life := .running } := by
  unfold execStart at h
  split at h
  · cases h
  · cases h
    exact ⟨not_not.mp ‹_›, rfl⟩

theorem execSsArm_next (h : execSsArm s = .next t) :
    (s.life = .initialized ∨ s.life = .running) ∧
      ((SsDir.ofStaging s.stg.ssDir = none ∧ t = s.raiseCfgError 2 0x22) ∨
        ∃ dir, SsDir.ofStaging s.stg.ssDir = some dir ∧
          ((s.stg.ssPeriodT = 0 ∧ t = s.raiseCfgError 3 0x21) ∨
            (s.stg.ssPeriodT ≠ 0 ∧ t = s.armSoftStart dir))) := by
  unfold execSsArm at h
  split at h
  · cases h
  · refine ⟨by tauto, ?_⟩
    split at h
    · cases h
      exact .inl ⟨‹_›, rfl⟩
    · refine .inr ⟨_, ‹_›, ?_⟩
      split at h
      · cases h
        exact .inl ⟨‹_›, rfl⟩
      · cases h
        exact .inr ⟨‹_›, rfl⟩

theorem fitsWord_eq_false_iff {v : BusWord} : fitsWord v.toInt = false ↔ ¬ Fits v := by
  rw [← fitsWord_iff, Bool.not_eq_true]

theorem execSlCfg_next (h : execSlCfg s = .next t) :
    (s.life = .uninit ∨ s.life = .initialized) ∧
      ((¬ Fits s.stg.slDelta ∧ t = s.raiseCfgError 4 0x28) ∨
        (Fits s.stg.slDelta ∧ 65535 < s.stg.slSteps.toNat ∧ t = s.raiseCfgError 4 0x29) ∨
        (Fits s.stg.slDelta ∧ s.stg.slSteps.toNat ≤ 65535 ∧
          t = { s with sl := { s.sl with
            delta := toWord s.stg.slDelta.toInt, steps := s.stg.slSteps.setWidth 16, cfgd := true } })) := by
  unfold execSlCfg at h
  split at h
  · cases h
  · refine ⟨by tauto, ?_⟩
    split at h
    · cases h
      exact .inl ⟨fitsWord_eq_false_iff.mp ‹_›, rfl⟩
    · have hdelta : Fits s.stg.slDelta := not_not.mp (mt fitsWord_eq_false_iff.mpr ‹_›)
      split at h
      · cases h
        exact .inr (.inl ⟨hdelta, ‹_›, rfl⟩)
      · cases h
        exact .inr (.inr ⟨hdelta, not_lt.mp ‹_›, rfl⟩)

theorem execOrchEn_next (h : execOrchEn s = .next t) :
    s.manual = true ∧ t = { s with orch := .armed } := by
  obtain ⟨hmanual, hnext⟩ := manualGate_next h
  cases hnext
  exact ⟨hmanual, rfl⟩

theorem execUpdate_next (h : execUpdate s = .next t) : s.manual = true ∧ t = s.doUpdate := by
  obtain ⟨hmanual, hnext⟩ := manualGate_next h
  cases hnext
  exact ⟨hmanual, rfl⟩

theorem execSsStep_next (h : execSsStep s = .next t) : s.manual = true ∧ t = s.doSsStep := by
  obtain ⟨hmanual, hnext⟩ := manualGate_next h
  cases hnext
  exact ⟨hmanual, rfl⟩

theorem execSlRun_next (h : execSlRun s = .next t) :
    s.manual = true ∧ s.sl.cfgd = true ∧ s.sl.armed = true ∧ t = s.slopeRun := by
  obtain ⟨hmanual, hrun⟩ := manualGate_next h
  exact ⟨hmanual, doSlRun_next hrun⟩

/-- The period event triggered the sampler, or was masked. -/
theorem execEvPeriod_next (h : execEvPeriod s = .next t) :
    (s.orchestrated = true ∧ s.orch = .armed ∧ t = State.emit { s with orch := .sampleInFlight } .sampleTrigger) ∨
      (s.life ≠ .cfgError ∧ s.orchestrated = false ∧ t = s) := by
  refine (eventGate_next h).imp_left fun ⟨horch, hact⟩ => ⟨horch, ?_⟩
  split at hact
  · cases hact
  · cases hact
    exact ⟨not_not.mp ‹_›, rfl⟩

/-- The sample event ran its handler, or was masked. -/
theorem execEvSample_next {imm : Word} (h : execEvSample imm s = .next t) :
    (s.orchestrated = true ∧ s.orch = .sampleInFlight ∧ t = s.sampleHandler imm) ∨
      (s.life ≠ .cfgError ∧ s.orchestrated = false ∧ t = s) := by
  refine (eventGate_next h).imp_left fun ⟨horch, hact⟩ => ⟨horch, ?_⟩
  split at hact
  · cases hact
  · cases hact
    exact ⟨not_not.mp ‹_›, rfl⟩

/-- The slope event ran the ramp, or was masked. -/
theorem execEvSlope_next (h : execEvSlope s = .next t) :
    (s.orchestrated = true ∧ s.sl.cfgd = true ∧ s.sl.armed = true ∧ t = s.slopeRun) ∨
      (s.life ≠ .cfgError ∧ s.orchestrated = false ∧ t = s) :=
  (eventGate_next h).imp_left fun ⟨horch, hrun⟩ => ⟨horch, doSlRun_next hrun⟩

end Operations

/-! ## The step -/

/-- A reset is fetched from the pin `rst`, and taking it off the stream changes nothing else. -/
theorem fetch_reset {s u : State} (h : fetch s = .reset u) :
    ∃ rest, s.inputs = .rst :: rest ∧ u = { s with inputs := rest } := by
  unfold fetch at h
  split at h
  · cases h
  · cases h
    exact ⟨_, ‹_›, rfl⟩
  · unfold fetchFrame at h
    split at h <;> cases h
  · unfold fetchAlu at h
    split at h <;> cases h

/-- An operation is fetched from a frame, or from a micro-operation's issue, whose operands go to the ports; nothing
else changes but the stream. -/
theorem fetch_run {s u : State} {i : Instr} (h : fetch s = .run i u) :
    (∃ f rest, s.inputs = .frame f :: rest ∧ decode (.frame f) = .ok i ∧ u = { s with inputs := rest }) ∨
      ∃ op operands rest, s.inputs = .alu op operands :: rest ∧ decode (.alu op) = .ok i ∧
        u = { s with inputs := rest, alu := { s.alu with operands := operands } } := by
  unfold fetch at h
  split at h
  · cases h
  · cases h
  · unfold fetchFrame at h
    split at h
    · cases h
      exact .inl ⟨_, _, ‹_›, ‹_›, rfl⟩
    · cases h
  · unfold fetchAlu at h
    split at h
    · cases h
      exact .inr ⟨_, _, _, ‹_›, ‹_›, rfl⟩
    · cases h

/-- A step that completes held the state with no input waiting, reset the block, or ran one operation. -/
theorem step_next {s t : State} (h : step s = .next t) :
    (fetch s = .idle ∧ t = s) ∨ (∃ u, fetch s = .reset u ∧ t = u.resetPin) ∨
      ∃ i u, fetch s = .run i u ∧ exec i u = .next t := by
  unfold step at h
  split at h
  · cases h
    exact .inl ⟨‹_›, rfl⟩
  · cases h
    exact .inr (.inl ⟨_, ‹_›, rfl⟩)
  · exact .inr (.inr ⟨_, _, ‹_›, h⟩)
  · cases h
  · cases h

end Sys2Proof.Machine
end

