-- ==== Sys2Proof/Proofs/Parameters.lean ====
section
/-!
PROOF. The parameters of the block (00_scope.md R10 to R12): no update, no operation and no step writes `cfg`.
-/

namespace Sys2Proof.Machine

/-! ## The updates with a condition or a loop inside -/

@[simp] theorem armSoftStart_cfg (s : State) (d : SsDir) : (s.armSoftStart d).cfg = s.cfg := by
  rw [armSoftStart_frame]

@[simp] theorem doSsStep_cfg (s : State) : s.doSsStep.cfg = s.cfg := by
  rw [doSsStep_frame]

@[simp] theorem slopeRun_cfg (s : State) : s.slopeRun.cfg = s.cfg := by
  rw [slopeRun_frame]

@[simp] theorem writeReg_cfg (s : State) (r : Reg) (v : BusWord) : (s.writeReg r v).cfg = s.cfg := by
  rw [writeReg_frame]

@[simp] theorem sampleHandler_cfg (s : State) (imm : Word) : (s.sampleHandler imm).cfg = s.cfg := by
  simp [State.sampleHandler]

/-! ## The operations and the step -/

theorem exec_cfg {i : Instr} {s t : State} (h : exec i s = .next t) : t.cfg = s.cfg := by
  cases i with
  | rd addr =>
    obtain ⟨r, -, rfl⟩ := execRd_next h
    simp
  | wr addr data =>
    obtain ⟨-, r, -, rfl⟩ := execWr_next h
    simp
  | init => obtain ⟨-, ⟨addr, -, rfl⟩ | ⟨-, rfl⟩⟩ := execInit_next h <;> simp
  | start =>
    obtain ⟨-, rfl⟩ := execStart_next h
    rfl
  | ssArm =>
    obtain ⟨-, ⟨-, rfl⟩ | ⟨dir, -, ⟨-, rfl⟩ | ⟨-, rfl⟩⟩⟩ := execSsArm_next h <;> simp
  | slCfg =>
    obtain ⟨-, ⟨-, rfl⟩ | ⟨-, -, rfl⟩ | ⟨-, -, rfl⟩⟩ := execSlCfg_next h <;> simp
  | orchEn =>
    obtain ⟨-, rfl⟩ := execOrchEn_next h
    rfl
  | update =>
    obtain ⟨-, rfl⟩ := execUpdate_next h
    simp
  | ssStep =>
    obtain ⟨-, rfl⟩ := execSsStep_next h
    simp
  | slRun =>
    obtain ⟨-, -, -, rfl⟩ := execSlRun_next h
    simp
  | evPeriod => obtain ⟨-, -, rfl⟩ | ⟨-, -, rfl⟩ := execEvPeriod_next h <;> simp
  | evSample imm => obtain ⟨-, -, rfl⟩ | ⟨-, -, rfl⟩ := execEvSample_next h <;> simp
  | evSlope => obtain ⟨-, -, -, rfl⟩ | ⟨-, -, rfl⟩ := execEvSlope_next h <;> simp
  | fxSub | fxMul | fxMac | fxShift | fxSat | fxSatw | fxAdds =>
    cases h
    simp

theorem fetch_run_cfg {s u : State} {i : Instr} (h : fetch s = .run i u) : u.cfg = s.cfg := by
  obtain ⟨f, rest, -, -, rfl⟩ | ⟨op, operands, rest, -, -, rfl⟩ := fetch_run h <;> rfl

/-- Settles O57: a step holds the state, resets the block, which keeps its parameters, or runs an operation, and none
writes them. -/
theorem stepKeepsTheParameters : Obligations.StepKeepsTheParameters := by
  intro s t h
  obtain ⟨-, rfl⟩ | ⟨u, hreset, rfl⟩ | ⟨i, u, hrun, hexec⟩ := step_next h
  · rfl
  · obtain ⟨rest, -, rfl⟩ := fetch_reset hreset
    simp
  · exact (exec_cfg hexec).trans (fetch_run_cfg hrun)

end Sys2Proof.Machine
end

