-- ==== Sys2Proof/Proofs/Effects.lean ====
section
/-!
PROOF. The effects a completed operation can have, one constructor an effect, each with the check it passed; and the
induction of a step: what holds after a reset and is kept by every effect is kept by every step. The invariants of
10_state.md go through these two.
-/

namespace Sys2Proof.Machine

/-! ## Fields of the updates with a condition or a loop inside -/

@[simp] theorem writeReg_life (s : State) (r : Reg) (v : BusWord) : (s.writeReg r v).life = s.life := by
  rw [writeReg_frame]

@[simp] theorem writeReg_orch (s : State) (r : Reg) (v : BusWord) : (s.writeReg r v).orch = s.orch := by
  rw [writeReg_frame]

@[simp] theorem writeReg_act (s : State) (r : Reg) (v : BusWord) : (s.writeReg r v).act = s.act := by
  rw [writeReg_frame]

@[simp] theorem writeReg_hist (s : State) (r : Reg) (v : BusWord) : (s.writeReg r v).hist = s.hist := by
  rw [writeReg_frame]

@[simp] theorem writeReg_out (s : State) (r : Reg) (v : BusWord) : (s.writeReg r v).out = s.out := by
  rw [writeReg_frame]

@[simp] theorem writeReg_thresh (s : State) (r : Reg) (v : BusWord) : (s.writeReg r v).thresh = s.thresh := by
  rw [writeReg_frame]

@[simp] theorem writeReg_ss (s : State) (r : Reg) (v : BusWord) : (s.writeReg r v).ss = s.ss := by
  rw [writeReg_frame]

@[simp] theorem writeReg_sl (s : State) (r : Reg) (v : BusWord) : (s.writeReg r v).sl = s.sl := by
  rw [writeReg_frame]

@[simp] theorem writeReg_err (s : State) (r : Reg) (v : BusWord) : (s.writeReg r v).err = s.err := by
  rw [writeReg_frame]

@[simp] theorem writeReg_trace (s : State) (r : Reg) (v : BusWord) : (s.writeReg r v).trace = s.trace := by
  rw [writeReg_frame]

@[simp] theorem armSoftStart_life (s : State) (d : SsDir) : (s.armSoftStart d).life = s.life := by
  rw [armSoftStart_frame]

@[simp] theorem armSoftStart_orch (s : State) (d : SsDir) : (s.armSoftStart d).orch = s.orch := by
  rw [armSoftStart_frame]

@[simp] theorem armSoftStart_act (s : State) (d : SsDir) : (s.armSoftStart d).act = s.act := by
  rw [armSoftStart_frame]

@[simp] theorem armSoftStart_hist (s : State) (d : SsDir) : (s.armSoftStart d).hist = s.hist := by
  rw [armSoftStart_frame]

@[simp] theorem armSoftStart_out (s : State) (d : SsDir) : (s.armSoftStart d).out = s.out := by
  rw [armSoftStart_frame]

@[simp] theorem armSoftStart_thresh (s : State) (d : SsDir) : (s.armSoftStart d).thresh = s.thresh := by
  rw [armSoftStart_frame]

@[simp] theorem armSoftStart_stg (s : State) (d : SsDir) : (s.armSoftStart d).stg = s.stg := by
  rw [armSoftStart_frame]

@[simp] theorem armSoftStart_sl (s : State) (d : SsDir) : (s.armSoftStart d).sl = s.sl := by
  rw [armSoftStart_frame]

@[simp] theorem armSoftStart_err (s : State) (d : SsDir) : (s.armSoftStart d).err = s.err := by
  rw [armSoftStart_frame]

@[simp] theorem armSoftStart_trace (s : State) (d : SsDir) : (s.armSoftStart d).trace = s.trace := by
  rw [armSoftStart_frame]

@[simp] theorem doSsStep_life (s : State) : s.doSsStep.life = s.life := by rw [doSsStep_frame]

@[simp] theorem doSsStep_orch (s : State) : s.doSsStep.orch = s.orch := by rw [doSsStep_frame]

@[simp] theorem doSsStep_act (s : State) : s.doSsStep.act = s.act := by rw [doSsStep_frame]

@[simp] theorem doSsStep_hist (s : State) : s.doSsStep.hist = s.hist := by rw [doSsStep_frame]

@[simp] theorem doSsStep_out (s : State) : s.doSsStep.out = s.out := by rw [doSsStep_frame]

@[simp] theorem doSsStep_thresh (s : State) : s.doSsStep.thresh = s.thresh := by rw [doSsStep_frame]

@[simp] theorem doSsStep_stg (s : State) : s.doSsStep.stg = s.stg := by rw [doSsStep_frame]

@[simp] theorem doSsStep_sl (s : State) : s.doSsStep.sl = s.sl := by rw [doSsStep_frame]

@[simp] theorem doSsStep_err (s : State) : s.doSsStep.err = s.err := by rw [doSsStep_frame]

@[simp] theorem doSsStep_trace (s : State) : s.doSsStep.trace = s.trace := by rw [doSsStep_frame]

@[simp] theorem slopeRun_life (s : State) : s.slopeRun.life = s.life := by rw [slopeRun_frame]

@[simp] theorem slopeRun_orch (s : State) : s.slopeRun.orch = s.orch := by rw [slopeRun_frame]

@[simp] theorem slopeRun_act (s : State) : s.slopeRun.act = s.act := by rw [slopeRun_frame]

@[simp] theorem slopeRun_hist (s : State) : s.slopeRun.hist = s.hist := by rw [slopeRun_frame]

@[simp] theorem slopeRun_stg (s : State) : s.slopeRun.stg = s.stg := by rw [slopeRun_frame]

@[simp] theorem slopeRun_ss (s : State) : s.slopeRun.ss = s.ss := by rw [slopeRun_frame]

@[simp] theorem slopeRun_sl_delta (s : State) : s.slopeRun.sl.delta = s.sl.delta := by rw [slopeRun_frame]

@[simp] theorem slopeRun_sl_steps (s : State) : s.slopeRun.sl.steps = s.sl.steps := by rw [slopeRun_frame]

@[simp] theorem slopeRun_sl_cfgd (s : State) : s.slopeRun.sl.cfgd = s.sl.cfgd := by rw [slopeRun_frame]

@[simp] theorem slopeRun_sl_armed (s : State) : s.slopeRun.sl.armed = false := by rw [slopeRun_frame]

@[simp] theorem slopeRun_err (s : State) : s.slopeRun.err = s.err := by rw [slopeRun_frame]

/-! ## The values of `ERR` -/

/-- The value `raiseCfgError` writes into `ERR` (60_exceptions.md R191, R192). -/
def raisedErr (code info : BitVec 8) : BusWord := code.setWidth 32 + info.setWidth 32 * 256

theorem raiseCfgError_err_eq (s : State) (code info : BitVec 8) :
    (s.raiseCfgError code info).err = raisedErr code info := rfl

/-- An address `INIT` raises at is one of the nine it checks (44_control.md R172). -/
theorem firstUnfit_mem {g : Staging} {addr : BitVec 8} (h : g.firstUnfit = some addr) :
    addr ∈ [0x10#8, 0x11#8, 0x12#8, 0x13#8, 0x14#8, 0x15#8, 0x16#8, 0x17#8, 0x18#8] := by
  obtain ⟨p, hfind, rfl⟩ := Option.map_eq_some_iff.mp h
  exact List.mem_map_of_mem (List.mem_of_find?_eq_some hfind)

theorem raisedErr_init_mem {g : Staging} {addr : BitVec 8} (h : g.firstUnfit = some addr) :
    raisedErr 1 addr ∈ errValues := by
  have hall : ∀ a ∈ [0x10#8, 0x11#8, 0x12#8, 0x13#8, 0x14#8, 0x15#8, 0x16#8, 0x17#8, 0x18#8],
      raisedErr 1 a ∈ errValues := by decide
  exact hall addr (firstUnfit_mem h)

/-! ## What a completed operation did -/

/-- The effects of a completed operation, from the state `s`: the operation and the state it left, with what its checks
found of `LIFE`. An effect may name more operations than have it (a raise, a masked event, a micro-operation): the
invariants ask what was written, not by whom. -/
inductive Effect (s : State) : Instr → State → Prop
  | read (addr : Addr) (v : BusWord) : Effect s (.rd addr) (s.returnRead v)
  | stored (addr : Addr) (v : BusWord) (r : Reg) : Effect s (.wr addr v) (s.writeReg r v)
  | raised (i : Instr) (code info : BitVec 8) (herr : raisedErr code info ∈ errValues) :
      Effect s i (s.raiseCfgError code info)
  | initialized (hlife : s.life ≠ .cfgError) : Effect s .init s.initialize
  | started (hlife : s.life = .initialized) : Effect s .start { s with life := .running }
  | ssArmed (dir : SsDir) (hlife : s.life = .initialized ∨ s.life = .running)
      (hdir : SsDir.ofStaging s.stg.ssDir = some dir) : Effect s .ssArm (s.armSoftStart dir)
  | slConfigured (delta : Word) (steps : BitVec 16) :
      Effect s .slCfg { s with sl := { s.sl with delta := delta, steps := steps, cfgd := true } }
  | orchEnabled (hlife : s.life = .running) : Effect s .orchEn { s with orch := .armed }
  | updated (hlife : s.life = .running) : Effect s .update s.doUpdate
  | ssStepped (hlife : s.life = .running) : Effect s .ssStep s.doSsStep
  | ramped (i : Instr) (hi : i = .slRun ∨ i = .evSlope) (hlife : s.life = .running) : Effect s i s.slopeRun
  | triggered (hlife : s.life = .running) :
      Effect s .evPeriod (State.emit { s with orch := .sampleInFlight } .sampleTrigger)
  | sampled (imm : Word) (hlife : s.life = .running) : Effect s (.evSample imm) (s.sampleHandler imm)
  | masked (i : Instr) : Effect s i s
  | computed (i : Instr) (r : Int) : Effect s i (s.setAluResult r)

theorem running_of_manual {s : State} (h : s.manual = true) : s.life = .running := ((manual_iff s).mp h).1

theorem running_of_orchestrated {s : State} (h : s.orchestrated = true) : s.life = .running :=
  ((orchestrated_iff s).mp h).1

/-- Every operation that completes had one of these effects. -/
theorem exec_effect {i : Instr} {s t : State} (h : exec i s = .next t) : Effect s i t := by
  cases i with
  | rd addr =>
    obtain ⟨r, -, rfl⟩ := execRd_next h
    exact .read addr _
  | wr addr data =>
    obtain ⟨-, r, -, rfl⟩ := execWr_next h
    exact .stored addr data r
  | init =>
    obtain ⟨hlife, ⟨addr, hunfit, rfl⟩ | ⟨-, rfl⟩⟩ := execInit_next h
    · exact .raised _ _ _ (raisedErr_init_mem hunfit)
    · exact .initialized hlife
  | start =>
    obtain ⟨hlife, rfl⟩ := execStart_next h
    exact .started hlife
  | ssArm =>
    obtain ⟨hlife, ⟨-, rfl⟩ | ⟨dir, hdir, ⟨-, rfl⟩ | ⟨-, rfl⟩⟩⟩ := execSsArm_next h
    · exact .raised _ _ _ (by decide)
    · exact .raised _ _ _ (by decide)
    · exact .ssArmed dir hlife hdir
  | slCfg =>
    obtain ⟨-, ⟨-, rfl⟩ | ⟨-, -, rfl⟩ | ⟨-, -, rfl⟩⟩ := execSlCfg_next h
    · exact .raised _ _ _ (by decide)
    · exact .raised _ _ _ (by decide)
    · exact .slConfigured _ _
  | orchEn =>
    obtain ⟨hmanual, rfl⟩ := execOrchEn_next h
    exact .orchEnabled (running_of_manual hmanual)
  | update =>
    obtain ⟨hmanual, rfl⟩ := execUpdate_next h
    exact .updated (running_of_manual hmanual)
  | ssStep =>
    obtain ⟨hmanual, rfl⟩ := execSsStep_next h
    exact .ssStepped (running_of_manual hmanual)
  | slRun =>
    obtain ⟨hmanual, -, -, rfl⟩ := execSlRun_next h
    exact .ramped _ (.inl rfl) (running_of_manual hmanual)
  | evPeriod =>
    obtain ⟨horch, -, rfl⟩ | ⟨-, -, rfl⟩ := execEvPeriod_next h
    · exact .triggered (running_of_orchestrated horch)
    · exact .masked _
  | evSample imm =>
    obtain ⟨horch, -, rfl⟩ | ⟨-, -, rfl⟩ := execEvSample_next h
    · exact .sampled imm (running_of_orchestrated horch)
    · exact .masked _
  | evSlope =>
    obtain ⟨horch, -, -, rfl⟩ | ⟨-, -, rfl⟩ := execEvSlope_next h
    · exact .ramped _ (.inr rfl) (running_of_orchestrated horch)
    · exact .masked _
  | fxSub | fxMul | fxMac | fxShift | fxSat | fxSatw | fxAdds =>
    cases h
    exact .computed _ _

/-! ## The induction of a step -/

/-- What holds after a reset, does not see the input stream and the arithmetic unit's ports, and is kept by every
effect of an operation, is kept by every step. -/
theorem step_keeps {P : State → Prop} (hreset : ∀ p waiting, P (State.resetWith p waiting))
    (hinput : ∀ s inputs alu, P s → P { s with inputs := inputs, alu := alu })
    (heffect : ∀ s i t, P s → Effect s i t → P t) {s t : State} (hs : P s) (h : step s = .next t) : P t := by
  obtain ⟨-, rfl⟩ | ⟨u, -, rfl⟩ | ⟨i, u, hrun, hexec⟩ := step_next h
  · exact hs
  · exact hreset _ _
  · refine heffect u i t ?_ (exec_effect hexec)
    obtain ⟨f, rest, -, -, rfl⟩ | ⟨op, operands, rest, -, -, rfl⟩ := fetch_run hrun
    · exact hinput s rest s.alu hs
    · exact hinput s rest _ hs

end Sys2Proof.Machine
end

