-- ==== Sys2Proof/Proofs/PreContraction.lean ====
section
/-!
PROOF. `PRE` and the history (10_state.md R45, 41_compensator.md R125, R126, 40_arith.md R108): only `INIT` and an update
write them, and both leave `PRE` the contraction of what they wrote.
-/

namespace Sys2Proof.Machine

/-- The contraction invariant reads the active configuration and the history, nothing else. -/
def ContractionOk (c : ActiveCfg) (h : History) : Prop :=
  h.pre.toInt = partialSum c h ∧ -65535 ≤ h.e1.toInt ∧ h.e1.toInt ≤ 65535 ∧ -65535 ≤ h.e2.toInt ∧ h.e2.toInt ≤ 65535

theorem contractionOk_iff (s : State) : ContractionOk s.act s.hist ↔ PreIsContraction s ∧ HistoryRange s := Iff.rfl

theorem contractionOk_zero (c : ActiveCfg) : ContractionOk c .zero := by
  simp [ContractionOk, partialSum, fxMac, fxMul, History.zero]

/-- R125, R126: the update's history holds the error whole, keeps the previous one, and its `PRE` is exact. -/
theorem contractionOk_nextHistory {s : State} (h : ContractionOk s.act s.hist) :
    ContractionOk s.act s.nextHistory := by
  obtain ⟨-, he1, he1', -, -⟩ := h
  have hnew : s.nextHistory.e1.toInt = s.errorNow := ofInt_errorNow_toInt s
  obtain ⟨hlo, hhi⟩ := errorNow_range s
  exact ⟨ofInt_partialSum_toInt _ _, hnew ▸ hlo, hnew ▸ hhi, he1, he1'⟩

theorem effect_keeps_contraction {s t : State} {i : Instr} (hs : ContractionOk s.act s.hist) (h : Effect s i t) :
    ContractionOk t.act t.hist := by
  cases h with
  | initialized => exact contractionOk_zero _
  | updated => exact contractionOk_nextHistory hs
  | sampled imm =>
    have hupdate : ContractionOk _ (State.nextHistory { s with orch := .computeAndActuate, fdbk := imm }) :=
      contractionOk_nextHistory hs
    simpa [State.sampleHandler] using hupdate
  | read | raised | started | slConfigured | orchEnabled | triggered | masked | computed => exact hs
  | stored | ssArmed | ssStepped | ramped => simpa using hs

/-- Settles O52: the error range is part of the invariant an update needs and gives, and the narrowing of `PRE` to
40 bits is exact for every history. -/
theorem stepKeepsPreContraction : Obligations.StepKeepsPreContraction := by
  intro s t hpre hrange h
  have hkeep := step_keeps (P := fun u => ContractionOk u.act u.hist) (fun _ _ => contractionOk_zero _)
    (fun _ _ _ hu => hu) (fun _ _ _ => effect_keeps_contraction) ((contractionOk_iff s).mpr ⟨hpre, hrange⟩) h
  exact (contractionOk_iff t).mp hkeep

end Sys2Proof.Machine
end

