-- ==== Sys2Proof/Proofs/SoftStartInvariants.lean ====
section
/-!
PROOF. The soft-start's registers (10_state.md R38, R47, 42_softstart.md R142 to R145). The accumulator of a ramp under way
stays between its start and its target, so its cell never wraps; arming and stepping keep the invariant, and no other
operation but `INIT`, which zeroes them, writes them.
-/

namespace Sys2Proof.Machine

/-! ## The range of a ramp (R145) -/

/-- After `count` of `n` increments of `M / n`, rounded toward zero, a ramp lies between 0 and `M`. -/
theorem mul_tdiv_between (M : Int) {count n : Nat} (hcount : count ≤ n) :
    (0 ≤ M → 0 ≤ count * M.tdiv n ∧ count * M.tdiv n ≤ M) ∧
      (M ≤ 0 → M ≤ count * M.tdiv n ∧ count * M.tdiv n ≤ 0) := by
  have hpos : ∀ A : Int, 0 ≤ A → 0 ≤ count * A.tdiv n ∧ count * A.tdiv n ≤ A := by
    intro A hA
    have hq : 0 ≤ A.tdiv n := Int.tdiv_nonneg hA (Int.natCast_nonneg n)
    refine ⟨mul_nonneg (Int.natCast_nonneg count) hq, ?_⟩
    calc (count : Int) * A.tdiv n ≤ n * A.tdiv n := mul_le_mul_of_nonneg_right (by exact_mod_cast hcount) hq
      _ ≤ A := by
        have hrem := Int.tmod_nonneg (n : Int) hA
        have hsplit := Int.mul_tdiv_add_tmod A n
        omega
  refine ⟨hpos M, fun hM => ?_⟩
  have hneg := hpos (-M) (by omega)
  rw [Int.neg_tdiv, mul_neg] at hneg
  omega

/-- A `W + SS_FRAC`-bit value. -/
def FitsCell (p : Params) (x : Int) : Prop := -(32768 * 2 ^ p.ssFrac.val) ≤ x ∧ x < 32768 * 2 ^ p.ssFrac.val

theorem ssVal_ssCell_of_fits {p : Params} {x : Int} (h : FitsCell p x) : ssVal p (ssCell p x) = x :=
  ssVal_ssCell_of_range p x h.1 h.2

theorem fitsCell_ssScale (p : Params) (w : Word) : FitsCell p (ssScale p w.toInt) := ssScale_range p w

theorem fitsCell_zero (p : Params) : FitsCell p 0 := by
  have hp := two_pow_ssFrac_pos p
  constructor <;> omega

/-- R145: the accumulator of a ramp up to `w`, and of a ramp down from `w`, fits its cell after every step. -/
theorem fitsCell_ramp (p : Params) (w : Word) {count n : Nat} (hcount : count ≤ n) :
    FitsCell p (count * (ssScale p w.toInt).tdiv n) ∧
      FitsCell p (ssScale p w.toInt - count * (ssScale p w.toInt).tdiv n) := by
  obtain ⟨hlo, hhi⟩ := fitsCell_ssScale p w
  obtain ⟨hup, hdown⟩ := mul_tdiv_between (ssScale p w.toInt) hcount
  have hp := two_pow_ssFrac_pos p
  simp only [FitsCell]
  obtain hM | hM := le_total 0 (ssScale p w.toInt)
  · have := hup hM
    omega
  · have := hdown hM
    omega

/-- The increment itself fits its cell. -/
theorem fitsCell_increment (p : Params) (w : Word) {n : Nat} (hn : 1 ≤ n) :
    FitsCell p ((ssScale p w.toInt).tdiv n) := by
  simpa using (fitsCell_ramp p w hn).1

/-! ## Arming (R142, R146) -/

theorem ofStaging_ne_unset {v : BusWord} {dir : SsDir} (h : SsDir.ofStaging v = some dir) : dir ≠ .unset := by
  unfold SsDir.ofStaging at h
  split at h
  · cases h
    decide
  · split at h
    · cases h
      decide
    · cases h

theorem rampTarget_toInt (s : State) (dir : SsDir) :
    (s.rampTarget dir).toInt = if dir = .up then s.act.max.toInt else 0 := by
  unfold State.rampTarget
  split <;> rfl

theorem softStartOk_armSoftStart (s : State) {dir : SsDir} (hdir : dir ≠ .unset) :
    SoftStartOk (s.armSoftStart dir) := by
  unfold State.armSoftStart
  dsimp only
  split
  · exact ⟨hdir, rampTarget_toInt s dir, ssVal_ssCell_of_fits (fitsCell_ssScale s.cfg _)⟩
  · next hn =>
    have hpos : 1 ≤ (udiv s.stg.ssRampT s.stg.ssPeriodT).toNat :=
      Nat.one_le_iff_ne_zero.mpr fun hzero => hn (BitVec.eq_of_toNat_eq hzero)
    refine ⟨hpos, hpos, hdir, rampTarget_toInt s dir, ssVal_ssCell_of_fits (fitsCell_increment s.cfg _ hpos), ?_⟩
    have hstart : FitsCell s.cfg (s.rampStart dir) := by
      unfold State.rampStart
      split
      · exact fitsCell_zero _
      · exact fitsCell_ssScale _ _
    refine (ssVal_ssCell_of_fits hstart).trans ?_
    simp [State.rampStart, State.maxScaled, ssScale]

/-! ## Stepping (R143) -/

theorem doSsStep_of_not_ramping {s : State} (h : s.ss.state ≠ .ramping) : s.doSsStep = s := by
  unfold State.doSsStep
  split
  · exact absurd ‹_› h
  · rfl
  · rfl

/-- A step of a ramp under way advances, and settles when it was the last one. -/
theorem doSsStep_of_ramping {s : State} (h : s.ss.state = .ramping) : s.doSsStep = s.ssAdvance.ssSettle := by
  unfold State.doSsStep
  rw [h]

theorem softStartOk_ssSettle {s : State} (hdir : s.ss.dir ≠ .unset) (htarget : s.ss.target.toInt = s.latchedTarget)
    (hlast : s.ss.count = s.ss.n) : SoftStartOk s.ssSettle := by
  rw [State.ssSettle, if_pos hlast]
  exact ⟨hdir, htarget, ssVal_ssCell_of_fits (fitsCell_ssScale s.cfg _)⟩

theorem ssSettle_of_ne {s : State} (h : s.ss.count ≠ s.ss.n) : s.ssSettle = s := if_neg h

/-- Where the accumulator of a ramp stands after `count` steps. -/
def State.rampAt (s : State) (count : Nat) : Int :=
  if s.ss.dir = .up then count * ssVal s.cfg s.ss.delta else s.maxScaled - count * ssVal s.cfg s.ss.delta

theorem fitsCell_rampAt {s : State} {count : Nat} (hcount : count ≤ s.ss.n.toNat)
    (hdelta : ssVal s.cfg s.ss.delta = s.maxScaled.tdiv s.ss.n.toNat) : FitsCell s.cfg (s.rampAt count) := by
  obtain ⟨hup, hdown⟩ := fitsCell_ramp s.cfg s.act.max hcount
  unfold State.rampAt
  rw [hdelta]
  split
  · exact hup
  · exact hdown

theorem rampAt_succ (s : State) (count : Nat) :
    s.rampAt (count + 1) =
      if s.ss.dir = .up then s.rampAt count + ssVal s.cfg s.ss.delta else s.rampAt count - ssVal s.cfg s.ss.delta := by
  unfold State.rampAt
  split <;> push_cast <;> ring

theorem succ_toNat_of_lt {a b : BusWord} (h : a.toNat < b.toNat) : (a + 1).toNat = a.toNat + 1 := by
  bv_omega

theorem softStartOk_doSsStep {s : State} (h : SoftStartOk s) : SoftStartOk s.doSsStep := by
  by_cases hstate : s.ss.state = .ramping
  case neg => rwa [doSsStep_of_not_ramping hstate]
  unfold SoftStartOk at h
  rw [hstate] at h
  obtain ⟨hn, hcount, hdir, htarget, hdelta, hacc⟩ := h
  have hacc : ssVal s.cfg s.ss.acc = s.rampAt s.ss.count.toNat := hacc
  have hsucc := succ_toNat_of_lt hcount
  have hadvance : s.ssAdvance = { s with ss := { s.ss with
      acc := ssCell s.cfg (s.rampAt (s.ss.count.toNat + 1)), count := s.ss.count + 1 } } := by
    rw [State.ssAdvance, if_pos (BitVec.lt_def.mpr hcount), rampAt_succ, hacc]
  rw [doSsStep_of_ramping hstate, hadvance]
  by_cases hlast : s.ss.count + 1 = s.ss.n
  · exact softStartOk_ssSettle hdir htarget hlast
  · have hlt : (s.ss.count + 1).toNat < s.ss.n.toNat := by
      have hne : (s.ss.count + 1).toNat ≠ s.ss.n.toNat := fun heq => hlast (BitVec.eq_of_toNat_eq heq)
      omega
    rw [ssSettle_of_ne hlast]
    unfold SoftStartOk
    dsimp only
    rw [hstate]
    refine ⟨hn, hlt, hdir, htarget, hdelta, ?_⟩
    refine (ssVal_ssCell_of_fits (fitsCell_rampAt (by omega) hdelta)).trans ?_
    rw [← hsucc]
    rfl

/-! ## The soft-start invariant (R47) -/

theorem softStartOk_of_zero {s : State} (h : s.ss = .zero) : SoftStartOk s := by
  simp [SoftStartOk, h, SoftStart.zero]

/-- The invariant reads the parameters, the active configuration and the soft-start, nothing else. -/
theorem softStartOk_congr {s t : State} (hcfg : t.cfg = s.cfg) (hact : t.act = s.act) (hss : t.ss = s.ss)
    (h : SoftStartOk s) : SoftStartOk t := by
  simp only [SoftStartOk, State.latchedTarget, State.maxScaled, hcfg, hact, hss] at h ⊢
  exact h

theorem effect_keeps_softStartOk {s t : State} {i : Instr} (hs : SoftStartOk s) (h : Effect s i t) :
    SoftStartOk t := by
  cases h with
  | initialized => exact softStartOk_of_zero rfl
  | ssArmed dir hlife hdir => exact softStartOk_armSoftStart s (ofStaging_ne_unset hdir)
  | ssStepped => exact softStartOk_doSsStep hs
  | sampled imm =>
    have hupdate : SoftStartOk (State.doUpdate { s with orch := .computeAndActuate, fdbk := imm }) := hs
    exact softStartOk_doSsStep hupdate
  | read | raised | started | slConfigured | orchEnabled | updated | triggered | masked | computed => exact hs
  | stored | ramped => exact softStartOk_congr (by simp) (by simp) (by simp) hs

/-- Settles O53: only arming, stepping and `INIT` write the soft-start, and a ramp under way stays in its cell. -/
theorem stepKeepsSoftStartInvariant : Obligations.StepKeepsSoftStartInvariant := fun _ _ hs h =>
  step_keeps (fun _ _ => softStartOk_of_zero rfl) (fun _ _ _ hu => hu) (fun _ _ _ => effect_keeps_softStartOk) hs h

/-! ## The cells (R38, assumption log 9) -/

/-- What is put into a cell stands there sign-extended, whether or not it fitted. -/
theorem ssCell_toInt (p : Params) (x : Int) : (ssCell p x).toInt = ssVal p (ssCell p x) := by
  have hwidth : p.ssWidth ≤ 32 := by
    have := p.ssFrac.isLt
    simp only [Params.ssWidth]
    omega
  have hcell : (ssCell p x).toInt = (BitVec.ofInt p.ssWidth x).toInt := BitVec.toInt_signExtend_of_le hwidth
  rw [ssVal, ← BitVec.signExtend_eq_setWidth_of_le _ hwidth, BitVec.toInt_signExtend_eq_toInt_bmod_of_le _ hwidth,
    hcell, BitVec.toInt_bmod_cancel]

theorem cellsExtended_of_zero {s : State} (h : s.ss = .zero) : CellsExtended s := by
  simp [CellsExtended, ssVal, h, SoftStart.zero]

/-- The cells are read with the parameters and the soft-start, nothing else. -/
theorem cellsExtended_congr {s t : State} (hcfg : t.cfg = s.cfg) (hss : t.ss = s.ss) (h : CellsExtended s) :
    CellsExtended t := by
  rwa [CellsExtended, hcfg, hss]

theorem cellsExtended_armSoftStart (s : State) (dir : SsDir) : CellsExtended (s.armSoftStart dir) := by
  unfold State.armSoftStart
  dsimp only
  split
  · exact ⟨ssCell_toInt _ _, ssCell_toInt _ _⟩
  · exact ⟨ssCell_toInt _ _, ssCell_toInt _ _⟩

theorem cellsExtended_ssAdvance {s : State} (h : CellsExtended s) : CellsExtended s.ssAdvance := by
  unfold State.ssAdvance
  split
  · exact ⟨ssCell_toInt _ _, h.2⟩
  · exact h

theorem cellsExtended_ssSettle {s : State} (h : CellsExtended s) : CellsExtended s.ssSettle := by
  unfold State.ssSettle
  split
  · exact ⟨ssCell_toInt _ _, h.2⟩
  · exact h

theorem cellsExtended_doSsStep {s : State} (h : CellsExtended s) : CellsExtended s.doSsStep := by
  by_cases hstate : s.ss.state = .ramping
  · rw [doSsStep_of_ramping hstate]
    exact cellsExtended_ssSettle (cellsExtended_ssAdvance h)
  · rwa [doSsStep_of_not_ramping hstate]

theorem effect_keeps_cellsExtended {s t : State} {i : Instr} (hs : CellsExtended s) (h : Effect s i t) :
    CellsExtended t := by
  cases h with
  | initialized => exact cellsExtended_of_zero rfl
  | ssArmed dir => exact cellsExtended_armSoftStart s dir
  | ssStepped => exact cellsExtended_doSsStep hs
  | sampled imm =>
    have hupdate : CellsExtended (State.doUpdate { s with orch := .computeAndActuate, fdbk := imm }) := hs
    exact cellsExtended_doSsStep hupdate
  | read | raised | started | slConfigured | orchEnabled | updated | triggered | masked | computed => exact hs
  | stored | ramped => exact cellsExtended_congr (by simp) (by simp) hs

/-- Settles O54: every value written to a cell is sign-extended, and the parameters that give its width stay. -/
theorem stepKeepsSoftStartCellsExtended : Obligations.StepKeepsSoftStartCellsExtended := fun _ _ hs h =>
  step_keeps (fun _ _ => cellsExtended_of_zero rfl) (fun _ _ _ hu => hu) (fun _ _ _ => effect_keeps_cellsExtended) hs h

end Sys2Proof.Machine
end

