-- ==== Sys2Proof/Proofs/OutputBounds.lean ====
section
/-!
PROOF. The bounds of `OUT` (10_state.md R46, 41_compensator.md R124, R133): an update clamps to `[MIN, ss_hi]` and the
upper bound wins. `EV_SAMPLE` updates from the same bounds, and its soft-start step leaves `OUT`.
-/

namespace Sys2Proof.Machine

/-- 42_softstart.md R144: the upper bound, as the statements write it. -/
theorem ssHi_eq (s : State) :
    s.ssHi = if s.ss.state = .notStarted then s.act.max.toInt
      else min s.act.max.toInt (ssVal s.cfg s.ss.acc / 2 ^ s.cfg.ssFrac.val) := by
  unfold State.ssHi State.ssLimit
  cases s.ss.state with
  | notStarted => simp
  | ramping | settled => simp

theorem ssHi_le_max (s : State) : s.ssHi ≤ s.act.max.toInt := by
  rw [ssHi_eq]
  split
  · exact le_rfl
  · exact min_le_left _ _

/-- The handler's update reads the sample it was given; its soft-start step leaves `OUT`. -/
theorem sampleHandler_out (s : State) (imm : Word) :
    (s.sampleHandler imm).out = toWord (State.clampedOut { s with orch := .computeAndActuate, fdbk := imm }) :=
  doSsStep_out _

/-- An operation that updates leaves in `OUT` a value clamped to the bounds of the state it started from. -/
theorem update_out_clamped {s t : State} {i : Instr} (h : exec i s = .next t)
    (hi : i = .update ∨ (s.life = .running ∧ s.orch = .sampleInFlight ∧ ∃ imm, i = .evSample imm)) :
    ∃ y, t.out.toInt = fxSat y s.act.min.toInt s.ssHi := by
  obtain rfl | ⟨hlife, horch, imm, rfl⟩ := hi
  · obtain ⟨-, rfl⟩ := execUpdate_next h
    exact ⟨_, toWord_clampedOut_toInt s⟩
  · obtain ⟨-, -, rfl⟩ | ⟨-, hmasked, -⟩ := execEvSample_next h
    · rw [sampleHandler_out]
      exact ⟨_, toWord_clampedOut_toInt { s with orch := .computeAndActuate, fdbk := imm }⟩
    · simp [State.orchestrated, hlife, horch] at hmasked

/-- Settles O18: `OUT` is a clamp whose upper bound wins. -/
theorem outputLiesInItsBounds : Obligations.OutputLiesInItsBounds := by
  intro s t i h hi
  rw [← ssHi_eq]
  obtain ⟨y, hout⟩ := update_out_clamped h hi
  rw [hout]
  exact ⟨fxSat_le _ _ _, ssHi_le_max s, le_fxSat _ _ _, fxSat_of_lt _ _ _⟩

end Sys2Proof.Machine
end

