-- ==== Sys2Proof/Proofs/ConfigurationFrames.lean ====
section
/-!
PROOF. Who writes configuration (10_state.md R21, R40, 20_memory.md R72): `INIT` the active one, `SL_CFG` the slope's, `WR`
the staging registers, and no other operation.
-/

namespace Sys2Proof.Machine

section Frames

variable {s t : State} {i : Instr}

theorem effect_act (h : Effect s i t) (hi : i ≠ .init) : t.act = s.act := by
  cases h with
  | initialized => exact absurd rfl hi
  | read | raised | started | slConfigured | orchEnabled | updated | triggered | masked | computed => rfl
  | stored | ssArmed | ssStepped | ramped | sampled => simp [State.sampleHandler]

theorem effect_slopeConfiguration (h : Effect s i t) (hi : i ≠ .slCfg) :
    t.sl.delta = s.sl.delta ∧ t.sl.steps = s.sl.steps ∧ t.sl.cfgd = s.sl.cfgd := by
  cases h with
  | slConfigured => exact absurd rfl hi
  | read | raised | initialized | started | orchEnabled | updated | triggered | masked | computed => exact ⟨rfl, rfl, rfl⟩
  | stored | ssArmed | ssStepped | ramped | sampled => simp [State.sampleHandler]

theorem effect_stg (h : Effect s i t) (hi : ∀ a v, i ≠ .wr a v) : t.stg = s.stg := by
  cases h with
  | stored addr v => exact absurd rfl (hi addr v)
  | read | raised | initialized | started | slConfigured | orchEnabled | updated | triggered | masked | computed => rfl
  | ssArmed | ssStepped | ramped | sampled => simp [State.sampleHandler]

end Frames

/-- Settles O50: of the effects only `INIT`'s, `SL_CFG`'s and `WR`'s write these registers. -/
theorem onlyLatchingCommandsWriteConfiguration : Obligations.OnlyLatchingCommandsWriteConfiguration :=
  fun _ _ _ h =>
    ⟨effect_act (exec_effect h), effect_slopeConfiguration (exec_effect h), effect_stg (exec_effect h)⟩

end Sys2Proof.Machine
end

