-- ==== Sys2Proof/Proofs/Lifecycle.lean ====
section
/-!
PROOF. The lifecycle invariant (10_state.md R32, R42, 44_control.md R180, 60_exceptions.md R192, 70_reset_and_hazards.md
R222): an effect leaves the block before its first `INIT` with the datapath at reset, raises, configures, or happens in
`Running`, where the invariant asks only that `ComputeAndActuate` is over and `ERR` is 0.
-/

namespace Sys2Proof.Machine

/-! ## Events in the trace -/

@[simp] theorem writeReg_events (s : State) (r : Reg) (v : BusWord) : (s.writeReg r v).events = s.events := by
  simp [State.events]

@[simp] theorem returnRead_events (s : State) (v : BusWord) : (s.returnRead v).events = s.events := by
  simp [State.events, Output.event?]

@[simp] theorem emit_events (s : State) (e : OutEvent) : (s.emit e).events = s.events ++ [e] := by
  simp [State.events, Output.event?]

/-! ## The invariant in each lifecycle state -/

/-- In `Running` the invariant is about `ORCH` and `ERR` only. -/
theorem lifecycleOk_of_running {s : State} (hlife : s.life = .running) (horch : s.orch ≠ .computeAndActuate)
    (herr : s.err = 0) : LifecycleOk s := by
  simp [LifecycleOk, hlife, horch, herr]

/-- In `Initialized` the orchestrator is idle, the slope disarmed and `ERR` is 0. -/
theorem lifecycleOk_of_initialized {s : State} (hlife : s.life = .initialized) (horch : s.orch = .idle)
    (harmed : s.sl.armed = false) (herr : s.err = 0) : LifecycleOk s := by
  simp [LifecycleOk, hlife, horch, harmed, herr]

/-- In `CfgError` `ERR` names a cause. -/
theorem lifecycleOk_of_cfgError {s : State} (hlife : s.life = .cfgError) (horch : s.orch ≠ .computeAndActuate)
    (herr : s.err ∈ errValues) : LifecycleOk s := by
  simp [LifecycleOk, hlife, horch, herr]

theorem err_of_lifecycleOk {s : State} (h : LifecycleOk s) (hlife : s.life ≠ .cfgError) : s.err = 0 := by
  obtain ⟨-, -, herr, -⟩ := h
  exact herr hlife

theorem orch_of_lifecycleOk {s : State} (h : LifecycleOk s) : s.orch ≠ .computeAndActuate := by
  obtain ⟨horch, -⟩ := h
  exact horch

/-- Before `Running` the orchestrator is idle and the slope disarmed. -/
theorem idle_of_lifecycleOk {s : State} (h : LifecycleOk s) (hlife : s.life = .initialized) :
    s.orch = .idle ∧ s.sl.armed = false := by
  obtain ⟨-, horch, -, -, harmed, -⟩ := h
  simp only [hlife, reduceCtorEq, or_self, imp_false, not_not, Bool.not_eq_true] at horch harmed
  exact ⟨horch, harmed⟩

theorem lifecycleOk_resetWith (p : Params) (waiting : List Input) : LifecycleOk (State.resetWith p waiting) := by
  simp [LifecycleOk, State.events, Slope.zero]

/-! ## The step -/

theorem effect_keeps_lifecycleOk {s t : State} {i : Instr} (hs : LifecycleOk s) (h : Effect s i t) :
    LifecycleOk t := by
  have horch := orch_of_lifecycleOk hs
  have herr := err_of_lifecycleOk hs
  cases h with
  | raised _ code info hcode =>
    exact lifecycleOk_of_cfgError rfl horch (by rwa [raiseCfgError_err_eq])
  | initialized hlife => exact lifecycleOk_of_initialized rfl rfl rfl (herr hlife)
  | started hlife => exact lifecycleOk_of_running rfl horch (herr (by simp [hlife]))
  | ssArmed dir hlife =>
    obtain hlife | hlife := hlife
    · obtain ⟨hidle, harmed⟩ := idle_of_lifecycleOk hs hlife
      exact lifecycleOk_of_initialized (by simp [hlife]) (by simp [hidle]) (by simp [harmed]) (by simp [herr, hlife])
    · exact lifecycleOk_of_running (by simp [hlife]) (by simpa using horch) (by simp [herr, hlife])
  | orchEnabled hlife | triggered hlife => exact lifecycleOk_of_running hlife (by simp) (herr (by simp [hlife]))
  | updated hlife => exact lifecycleOk_of_running hlife horch (herr (by simp [hlife]))
  | ssStepped hlife | ramped _ _ hlife =>
    exact lifecycleOk_of_running (by simp [hlife]) (by simpa using horch) (by simp [herr, hlife])
  | sampled imm hlife =>
    exact lifecycleOk_of_running (by simp [State.sampleHandler, hlife]) (by simp [State.sampleHandler])
      (by simp [State.sampleHandler, herr, hlife])
  | read | stored => simpa [LifecycleOk] using hs
  | slConfigured | masked | computed => exact hs

/-- Settles O55: each effect checked `LIFE` before it acted, and a raise writes a value of R192. -/
theorem stepKeepsLifecycleInvariant : Obligations.StepKeepsLifecycleInvariant := fun _ _ hs h =>
  step_keeps lifecycleOk_resetWith (fun _ _ _ hu => hu) (fun _ _ _ => effect_keeps_lifecycleOk) hs h

end Sys2Proof.Machine
end

