-- ==== Sys2Proof/Proofs/ThresholdMirror.lean ====
section
/-!
PROOF. `THRESH`, `SL_CUR` and the actuator (10_state.md R26, R40, 20_memory.md R74, 70_reset_and_hazards.md R235): every
write of the two is a threshold write of the trace, an update writes `OUT` as well, and the ramp disarms when it ends.
-/

namespace Sys2Proof.Machine

/-! ## Threshold writes in the trace -/

theorem threshWrites_of_trace_eq {s t : State} (h : t.trace = s.trace) : t.threshWrites = s.threshWrites := by
  simp only [State.threshWrites, State.events, h]

@[simp] theorem returnRead_threshWrites (s : State) (v : BusWord) :
    (s.returnRead v).threshWrites = s.threshWrites := by
  simp [State.threshWrites]

@[simp] theorem emit_threshWrite_threshWrites (s : State) (v : Word) :
    (s.emit (.threshWrite v)).threshWrites = s.threshWrites ++ [v] := by
  simp [State.threshWrites, OutEvent.thresh?]

@[simp] theorem emit_sampleTrigger_threshWrites (s : State) :
    (s.emit .sampleTrigger).threshWrites = s.threshWrites := by
  simp [State.threshWrites, OutEvent.thresh?]

/-! ## The mirror -/

/-- The part of the invariant that holds inside a running ramp too: `THRESH` and `SL_CUR` are the last value written. -/
def MirrorOk (s : State) : Prop := s.thresh = s.threshWrites.getLastD 0 ∧ s.sl.cur = s.thresh

theorem thresholdOk_iff (s : State) : ThresholdOk s ↔ MirrorOk s ∧ (s.sl.armed = true → s.thresh = s.out) :=
  and_assoc.symm

theorem thresholdOk_doUpdate (s : State) : ThresholdOk s.doUpdate := by
  have hwrites : s.doUpdate.threshWrites = s.threshWrites ++ [toWord s.clampedOut] :=
    emit_threshWrite_threshWrites _ _
  simp [ThresholdOk, hwrites]

theorem mirrorOk_slopeStep (s : State) : MirrorOk s.slopeStep := by
  have hwrites : s.slopeStep.threshWrites = s.threshWrites ++ [s.slopeStep.thresh] :=
    emit_threshWrite_threshWrites _ _
  simp [MirrorOk, hwrites]

theorem mirrorOk_slopeLoop (n : Nat) {s : State} (h : MirrorOk s) : MirrorOk (State.slopeLoop n s) := by
  induction n generalizing s with
  | zero => exact h
  | succ n ih => exact ih (mirrorOk_slopeStep s)

theorem thresholdOk_slopeRun {s : State} (h : MirrorOk s) : ThresholdOk s.slopeRun :=
  (thresholdOk_iff _).mpr ⟨mirrorOk_slopeLoop _ h, by simp⟩

/-- The invariant sees the trace's threshold writes, `THRESH`, the slope and `OUT`, nothing else. -/
theorem thresholdOk_congr {s t : State} (hwrites : t.threshWrites = s.threshWrites) (hthresh : t.thresh = s.thresh)
    (hsl : t.sl = s.sl) (hout : t.out = s.out) (h : ThresholdOk s) : ThresholdOk t := by
  rwa [ThresholdOk, hwrites, hthresh, hsl, hout]

theorem thresholdOk_resetWith (p : Params) (waiting : List Input) : ThresholdOk (State.resetWith p waiting) := by
  simp [ThresholdOk, State.threshWrites, State.events, Slope.zero]

theorem thresholdOk_doSsStep {s : State} (h : ThresholdOk s) : ThresholdOk s.doSsStep :=
  thresholdOk_congr (threshWrites_of_trace_eq (by simp)) (by simp) (by simp) (by simp) h

theorem effect_keeps_thresholdOk {s t : State} {i : Instr} (hs : ThresholdOk s) (h : Effect s i t) :
    ThresholdOk t := by
  cases h with
  | updated => exact thresholdOk_doUpdate s
  | sampled imm => exact thresholdOk_doSsStep (thresholdOk_doUpdate _)
  | ramped => exact thresholdOk_slopeRun ((thresholdOk_iff s).mp hs).1
  | initialized =>
    obtain ⟨hmirror, -⟩ := (thresholdOk_iff s).mp hs
    exact (thresholdOk_iff _).mpr ⟨hmirror, by simp⟩
  | read => exact thresholdOk_congr (returnRead_threshWrites s _) rfl rfl rfl hs
  | triggered => exact thresholdOk_congr (emit_sampleTrigger_threshWrites _) rfl rfl rfl hs
  | ssStepped => exact thresholdOk_doSsStep hs
  | stored | ssArmed =>
    exact thresholdOk_congr (threshWrites_of_trace_eq (by simp)) (by simp) (by simp) (by simp) hs
  | raised | started | slConfigured | orchEnabled | masked | computed => exact hs

/-- Settles O56: the ramp keeps the mirror turn by turn, and disarms, so `OUT` is asked for only after an update. -/
theorem stepKeepsThresholdMirror : Obligations.StepKeepsThresholdMirror := fun _ _ hs h =>
  step_keeps thresholdOk_resetWith (fun _ _ _ hu => hu) (fun _ _ _ => effect_keeps_thresholdOk) hs h

end Sys2Proof.Machine
end

