-- ==== Sys2Proof/Proofs/ResetAndStatus.lean ====
section
/-!
PROOF. The state after reset (10_state.md R49) meets the invariants that every step keeps, and the fields of `STATUS`
(R41), each a code placed at its bits.
-/

namespace Sys2Proof.Machine

/-- Settles O2: each invariant's base case, the one `step_keeps` takes for the pin `rst`. -/
theorem resetMeetsEveryInvariant : Obligations.ResetMeetsEveryInvariant := by
  intro p waiting
  obtain ⟨hpre, hrange⟩ := (contractionOk_iff (State.resetWith p waiting)).mp (contractionOk_zero _)
  exact ⟨hrange, hpre, softStartOk_of_zero rfl, cellsExtended_of_zero rfl, lifecycleOk_resetWith p waiting,
    thresholdOk_resetWith p waiting⟩

/-! ## STATUS -/

theorem life_code_lt (l : Life) : l.code < 4 := by cases l <;> decide

theorem orch_code_lt (o : Orch) : o.code < 4 := by cases o <;> decide

theorem ssState_code_lt (x : SsState) : x.code < 4 := by cases x <;> decide

theorem ssDir_code_lt (d : SsDir) : d.code < 4 := by cases d <;> decide

theorem bool_toNat_eq_ite (b : Bool) : b.toNat = if b then 1 else 0 := by cases b <;> rfl

/-- R41: each field of `STATUS` is the code of its flag, and the bits above them are 0. -/
theorem status_fields (s : State) :
    s.status.toNat % 4 = s.life.code ∧ s.status.toNat / 4 % 4 = s.orch.code
      ∧ s.status.toNat / 16 % 4 = s.ss.state.code ∧ s.status.toNat / 64 % 4 = s.ss.dir.code
      ∧ s.status.toNat / 256 % 2 = s.sl.cfgd.toNat ∧ s.status.toNat / 512 % 2 = s.sl.armed.toNat
      ∧ s.status.toNat / 1024 = 0 := by
  have h1 := life_code_lt s.life
  have h2 := orch_code_lt s.orch
  have h3 := ssState_code_lt s.ss.state
  have h4 := ssDir_code_lt s.ss.dir
  have h5 := Bool.toNat_lt s.sl.cfgd
  have h6 := Bool.toNat_lt s.sl.armed
  simp only [State.status, BitVec.toNat_ofNat]
  omega

theorem status_resetWith (p : Params) (waiting : List Input) : (State.resetWith p waiting).status = 0 := by
  simp [State.status, Life.code, Orch.code, SsState.code, SsDir.code, SoftStart.zero, Slope.zero]

theorem exec_rd_of_readable {addr : Addr} {r : Reg} (s : State) (h : readableAt addr = some r) :
    exec (.rd addr) s = .next (s.returnRead (s.readReg r)) := by
  show execRd addr s = _
  rw [execRd, h]

theorem readableAt_status : readableAt 0x01 = some .status := by decide

/-- Settles O11: a read of 0x01 returns `STATUS`, whose fields are the codes of the flags. -/
theorem statusShowsTheFlagState : Obligations.StatusShowsTheFlagState := by
  intro s
  obtain ⟨hlife, horch, hstate, hdir, hcfgd, harmed, hupper⟩ := status_fields s
  refine ⟨s.status, exec_rd_of_readable s readableAt_status, ?_, ?_, ?_, ?_, ?_, ?_, hupper, ?_⟩
  · exact hlife
  · exact horch
  · exact hstate
  · exact hdir
  · rw [hcfgd, bool_toNat_eq_ite]
  · rw [harmed, bool_toNat_eq_ite]
  · rintro p waiting rfl
    exact status_resetWith p waiting

end Sys2Proof.Machine
end

