-- ==== Sys2Proof/Proofs/StepInputs.lean ====
section
/-!
PROOF. A step by the input that waits (20_memory.md R66, R69, 30_encoding.md R91): the equation of the fetch for each kind
of input, then of the step for an input that decodes.
-/

namespace Sys2Proof.Machine

section Inputs

variable {s : State} {rest : List Input}

/-! ## The fetch -/

theorem fetch_of_no_input (h : s.inputs = []) : fetch s = .idle := by rw [fetch, h]

theorem fetch_of_frame {f : Frame} (h : s.inputs = .frame f :: rest) :
    fetch s = fetchFrame f { s with inputs := rest } := by rw [fetch, h]

theorem fetch_of_alu {op : AluOp} {operands : AluOperands} (h : s.inputs = .alu op operands :: rest) :
    fetch s = fetchAlu op operands { s with inputs := rest } := by rw [fetch, h]

/-! ## The step -/

theorem step_of_no_input (h : s.inputs = []) : step s = .next s := by rw [step, fetch_of_no_input h]

theorem step_of_frame {f : Frame} {i : Instr} (h : s.inputs = .frame f :: rest) (hdecode : decode (.frame f) = .ok i) :
    step s = exec i { s with inputs := rest } := by
  rw [step, fetch_of_frame h, fetchFrame, hdecode]

theorem step_of_alu {op : AluOp} {operands : AluOperands} {i : Instr} (h : s.inputs = .alu op operands :: rest)
    (hdecode : decode (.alu op) = .ok i) :
    step s = exec i { s with inputs := rest, alu := { s.alu with operands := operands } } := by
  rw [step, fetch_of_alu h, fetchAlu, hdecode]

theorem decode_reserved_select : decode (.alu 7) = .error .reservedAluOp := rfl

theorem step_of_reserved_select {operands : AluOperands} (h : s.inputs = .alu 7 operands :: rest) :
    step s = .refused .reservedAluOp := by
  rw [step, fetch_of_alu h, fetchAlu, decode_reserved_select]

end Inputs

/-- Settles O7: one equation of the step for each kind of input. -/
theorem stepRunsTheDecodedInput : Obligations.StepRunsTheDecodedInput := fun _ _ =>
  ⟨fun _ _ => step_of_frame, fun _ _ _ => step_of_alu, fun _ => step_of_reserved_select, step_of_no_input⟩

end Sys2Proof.Machine
end

