-- ==== Sys2Proof/Proofs/RegisterSpace.lean ====
section
/-!
PROOF. The register space (20_memory.md R61 to R63). The tables that the statements write out are the rows of the map with
that access, each with what the model's read or store does there; since no two rows share an address, an access finds its
row by searching the map.
-/

namespace Sys2Proof.Machine

/-! ## Finding a row of the map -/

/-- The register of the row of an address, if the row has a property: `readableAt` and `writableAt` for any access. -/
def registerAt (p : RegRow → Bool) (addr : Addr) : Option Reg :=
  match rowAt addr with
  | some r => if p r then some r.reg else none
  | none => none

theorem readableAt_eq (addr : Addr) : readableAt addr = registerAt (fun r => r.acc.canRead) addr := rfl

theorem writableAt_eq (addr : Addr) :
    writableAt addr = registerAt (fun r => r.acc.canWrite && r.reg != .cmd) addr := rfl

/-- The search finds every row by its address, since the addresses are distinct. -/
theorem rowAt_eq_some_iff {addr : Addr} {row : RegRow} : rowAt addr = some row ↔ row ∈ regMap ∧ row.addr = addr := by
  constructor
  · intro h
    exact ⟨List.mem_of_find?_eq_some h, by simpa using List.find?_some h⟩
  · rintro ⟨hmem, rfl⟩
    cases hfind : rowAt row.addr with
    | none => simpa using List.find?_eq_none.mp hfind row hmem
    | some found =>
      have haddr : found.addr = row.addr := by simpa using List.find?_some hfind
      rw [List.inj_on_of_nodup_map regMap_addrs_distinct (List.mem_of_find?_eq_some hfind) hmem haddr]

theorem registerAt_eq_some_iff {p : RegRow → Bool} {addr : Addr} {r : Reg} :
    registerAt p addr = some r ↔ ∃ row ∈ regMap, row.addr = addr ∧ p row = true ∧ row.reg = r := by
  have hmatch : registerAt p addr = some r ↔ ∃ row, rowAt addr = some row ∧ p row = true ∧ row.reg = r := by
    unfold registerAt
    cases rowAt addr <;> simp
  simp only [hmatch, rowAt_eq_some_iff, and_assoc]

/-- A table made of the rows with a property holds exactly the entries that the search finds. -/
theorem mem_rows_iff {α : Type} {p : RegRow → Bool} {f : Reg → α} {addr : Addr} {x : α} :
    (addr, x) ∈ (regMap.filter p).map (fun row => (row.addr, f row.reg)) ↔
      ∃ r, registerAt p addr = some r ∧ f r = x := by
  simp only [List.mem_map, List.mem_filter, Prod.mk.injEq, registerAt_eq_some_iff]
  constructor
  · rintro ⟨row, ⟨hmem, hp⟩, haddr, hx⟩
    exact ⟨row.reg, ⟨row, hmem, haddr, hp, rfl⟩, hx⟩
  · rintro ⟨r, ⟨row, hmem, haddr, hp, rfl⟩, hx⟩
    exact ⟨row, ⟨hmem, hp⟩, haddr, hx⟩

/-! ## Reads -/

/-- R61: the rows with R access, each with the value of its register extended to the bus. -/
theorem readTable_eq (s : State) :
    readTable s = (regMap.filter (fun r => r.acc.canRead)).map (fun row => (row.addr, s.readReg row.reg)) := by
  unfold readTable
  rw [BitVec.ofNat_toNat]
  rfl

theorem mem_readTable_iff {s : State} {addr : Addr} {v : BusWord} :
    (addr, v) ∈ readTable s ↔ ∃ r, readableAt addr = some r ∧ s.readReg r = v := by
  rw [readTable_eq, readableAt_eq]
  exact mem_rows_iff

theorem exec_rd_of_unreadable {addr : Addr} (s : State) (h : readableAt addr = none) :
    exec (.rd addr) s = .fault .illegalFrame := by
  show execRd addr s = _
  rw [execRd, h]

/-- Settles O9: an address has an entry in R61's table exactly when the read finds a readable register there. -/
theorem readReturnsTheMappedRegister : Obligations.ReadReturnsTheMappedRegister := by
  intro s addr
  constructor
  · intro v hv
    obtain ⟨r, hr, rfl⟩ := mem_readTable_iff.mp hv
    exact ⟨exec_rd_of_readable s hr, returnRead_events s _⟩
  · intro hnone
    apply exec_rd_of_unreadable
    rw [Option.eq_none_iff_forall_ne_some]
    exact fun r hr => hnone _ (mem_readTable_iff.mpr ⟨r, hr, rfl⟩)

/-! ## Stores -/

/-- Saturating to 16 bits takes the bounds in either order. -/
theorem fxSatw_eq_max_min (x : Int) : fxSatw x = max (-32768) (min x 32767) := by
  simp only [fxSatw, fxSat]
  omega

/-- R63: the rows with W access but for `CMD`, each with the state after the store. -/
theorem storeTable_eq (s : State) (v : BusWord) :
    storeTable s v = (regMap.filter (fun r => r.acc.canWrite && r.reg != .cmd)).map
      (fun row => (row.addr, s.writeReg row.reg v)) := by
  unfold storeTable
  rw [← fxSatw_eq_max_min]
  rfl

theorem mem_storeTable_iff {s t : State} {addr : Addr} {v : BusWord} :
    (addr, t) ∈ storeTable s v ↔ ∃ r, writableAt addr = some r ∧ s.writeReg r v = t := by
  rw [storeTable_eq, writableAt_eq]
  exact mem_rows_iff (f := fun r => s.writeReg r v)

theorem exec_wr_of_writable {s : State} {addr : Addr} {r : Reg} (v : BusWord) (hlife : s.life ≠ .cfgError)
    (h : writableAt addr = some r) : exec (.wr addr v) s = .next (s.writeReg r v) := by
  show execWr addr v s = _
  rw [execWr, if_neg hlife, h]

theorem exec_wr_of_unwritable {s : State} {addr : Addr} (v : BusWord) (hlife : s.life ≠ .cfgError)
    (h : writableAt addr = none) : exec (.wr addr v) s = .fault .illegalFrame := by
  show execWr addr v s = _
  rw [execWr, if_neg hlife, h]

/-! ## The operations of the write frames -/

/-- 30_encoding.md R82: a write frame decodes to a command at `0x00` and to a store elsewhere. -/
theorem decode_writeFrame (addr : Addr) (d : BusWord) :
    decode (.frame (frameOf 1 addr d)) = if addr = 0 then decodeCommand d else .ok (.wr addr d) := by
  simp [decode, decodeFrame]

/-- 30_encoding.md R88: the data of a command names an operation of the command table, or `EV_SAMPLE`. -/
theorem decodeCommand_ok {d : BusWord} {i : Instr} (h : decodeCommand d = .ok i) :
    i ∈ commandTable.map Prod.snd ∨ ∃ imm, i = .evSample imm := by
  unfold decodeCommand at h
  split at h
  · split at h
    · cases h
      exact .inr ⟨_, rfl⟩
    · cases h
  · split at h
    · rename_i hlookup
      obtain ⟨before, after, htable, -⟩ := List.lookup_eq_some_iff.mp hlookup
      split at h
      · cases h
        exact .inl (List.mem_map_of_mem (htable ▸ List.mem_append_right before List.mem_cons_self))
      · cases h
    · cases h

theorem manualGate_of_cfgError {s : State} (h : s.life = .cfgError) (act : Outcome) :
    manualGate s act = .fault .seqFault := by
  simp [manualGate, State.manual, h]

theorem eventGate_of_cfgError {s : State} (h : s.life = .cfgError) (act : Outcome) :
    eventGate s act = .fault .seqFault := if_pos h

/-- 60_exceptions.md R196: in `CfgError` a store is refused before its address is looked at. -/
theorem exec_wr_of_cfgError {s : State} (h : s.life = .cfgError) (addr : Addr) (v : BusWord) :
    exec (.wr addr v) s = .fault .seqFault := if_pos h

/-- 60_exceptions.md R196: in `CfgError` every command is a `SeqFault`, by its own check of `LIFE` or by its gate. -/
theorem exec_command_of_cfgError {s : State} (h : s.life = .cfgError) {i : Instr}
    (hi : i ∈ commandTable.map Prod.snd ∨ ∃ imm, i = .evSample imm) : exec i s = .fault .seqFault := by
  obtain hi | ⟨imm, rfl⟩ := hi
  · have hcases : i = .init ∨ i = .start ∨ i = .ssArm ∨ i = .slCfg ∨ i = .orchEn ∨ i = .update ∨ i = .ssStep
        ∨ i = .slRun ∨ i = .evPeriod ∨ i = .evSlope := by simpa [commandTable] using hi
    obtain rfl | rfl | rfl | rfl | rfl | rfl | rfl | rfl | rfl | rfl := hcases
    · exact if_pos h
    · simp [exec, execStart, h]
    · simp [exec, execSsArm, h]
    · simp [exec, execSlCfg, h]
    · exact manualGate_of_cfgError h _
    · exact manualGate_of_cfgError h _
    · exact manualGate_of_cfgError h _
    · exact manualGate_of_cfgError h _
    · exact eventGate_of_cfgError h _
    · exact eventGate_of_cfgError h _
  · exact eventGate_of_cfgError h _

/-- Settles O10: R63's table holds exactly the stores that find a writable register, and a write frame that decodes is a
store or a command, both refused in `CfgError`. -/
theorem writeStoresIntoOneRegister : Obligations.WriteStoresIntoOneRegister := by
  refine ⟨fun s addr v hlife => ⟨fun t ht => ?_, fun _ hnone => ?_⟩, fun d i h => ?_, fun s addr v i hlife h => ?_⟩
  · obtain ⟨r, hr, rfl⟩ := mem_storeTable_iff.mp ht
    exact exec_wr_of_writable v hlife hr
  · apply exec_wr_of_unwritable v hlife
    rw [Option.eq_none_iff_forall_ne_some]
    exact fun r hr => hnone _ (mem_storeTable_iff.mpr ⟨r, hr, rfl⟩)
  · rw [decode_writeFrame, if_pos rfl] at h
    exact decodeCommand_ok h
  · rw [decode_writeFrame] at h
    split at h
    · exact exec_command_of_cfgError hlife (decodeCommand_ok h)
    · cases h
      exact exec_wr_of_cfgError hlife addr v

end Sys2Proof.Machine
end

