-- ==== Sys2Proof/Proofs/StagingUnseen.lean ====
section
/-!
PROOF. The staging registers are unseen until latched (20_memory.md R72, 70_reset_and_hazards.md R234): replacing them
commutes with every update and both gates that the other operations are made of, so with those operations, faults included.
-/

namespace Sys2Proof.Machine

/-- A state with other staging registers. -/
def State.withStaging (g : Staging) (s : State) : State := { s with stg := g }

/-- An outcome with other staging registers: those of the next state, if there is one. -/
def withStagingAfter (g : Staging) : Outcome → Outcome
  | .next t => .next (t.withStaging g)
  | .fault f => .fault f
  | .refused r => .refused r

section Commute

variable (s : State) (g : Staging)

/-! ## The updates -/

theorem slopeStep_withStaging : (s.withStaging g).slopeStep = s.slopeStep.withStaging g := rfl

theorem ssAdvance_withStaging : (s.withStaging g).ssAdvance = s.ssAdvance.withStaging g := by
  unfold State.ssAdvance
  rw [apply_ite (State.withStaging g)]
  rfl

theorem ssSettle_withStaging : (s.withStaging g).ssSettle = s.ssSettle.withStaging g := by
  unfold State.ssSettle
  rw [apply_ite (State.withStaging g)]
  rfl

theorem doSsStep_withStaging : (s.withStaging g).doSsStep = s.doSsStep.withStaging g := by
  by_cases h : s.ss.state = .ramping
  · rw [doSsStep_of_ramping h, doSsStep_of_ramping (s := s.withStaging g) h, ssAdvance_withStaging,
      ssSettle_withStaging]
  · rw [doSsStep_of_not_ramping h, doSsStep_of_not_ramping (s := s.withStaging g) h]

theorem sampleHandler_withStaging (imm : Word) :
    (s.withStaging g).sampleHandler imm = (s.sampleHandler imm).withStaging g :=
  congrArg (fun t : State => { t with orch := .armed })
    (doSsStep_withStaging (State.doUpdate { s with orch := .computeAndActuate, fdbk := imm }) g)

theorem slopeLoop_withStaging (n : Nat) :
    State.slopeLoop n (s.withStaging g) = (State.slopeLoop n s).withStaging g := by
  induction n generalizing s with
  | zero => rfl
  | succ n ih =>
    rw [State.slopeLoop, State.slopeLoop, slopeStep_withStaging]
    exact ih s.slopeStep

theorem slopeRun_withStaging : (s.withStaging g).slopeRun = s.slopeRun.withStaging g :=
  congrArg (fun t : State => { t with sl := { t.sl with armed := false } })
    (slopeLoop_withStaging s g s.sl.steps.toNat)

theorem doSlRun_withStaging : (s.withStaging g).doSlRun = withStagingAfter g s.doSlRun := by
  unfold State.doSlRun
  rw [slopeRun_withStaging, apply_ite (withStagingAfter g)]
  rfl

/-! ## The gates, which read `LIFE` and `ORCH` only -/

variable {s g}

theorem manualGate_withStaging {act act' : Outcome} (h : act' = withStagingAfter g act) :
    manualGate (s.withStaging g) act' = withStagingAfter g (manualGate s act) := by
  unfold manualGate
  rw [h, apply_ite (withStagingAfter g)]
  rfl

theorem eventGate_withStaging {act act' : Outcome} (h : act' = withStagingAfter g act) :
    eventGate (s.withStaging g) act' = withStagingAfter g (eventGate s act) := by
  unfold eventGate
  rw [h, apply_ite (withStagingAfter g), apply_ite (withStagingAfter g)]
  rfl

end Commute

/-- Settles O51: each operation left by its hypotheses is made of a gate and updates that commute with replacing the
staging registers. -/
theorem stagingIsUnseenUntilLatched : Obligations.StagingIsUnseenUntilLatched := by
  intro i s g hinit hssArm hslCfg hrd hwr
  show exec i (s.withStaging g) = withStagingAfter g (exec i s)
  cases i with
  | init => exact absurd rfl hinit
  | ssArm => exact absurd rfl hssArm
  | slCfg => exact absurd rfl hslCfg
  | rd addr => exact absurd rfl (hrd addr)
  | wr addr v => exact absurd rfl (hwr addr v)
  | start =>
    show _ = withStagingAfter g (execStart s)
    rw [execStart, apply_ite (withStagingAfter g)]
    rfl
  | orchEn | update => exact manualGate_withStaging rfl
  | ssStep => exact manualGate_withStaging (congrArg Host.Outcome.next (doSsStep_withStaging s g))
  | slRun => exact manualGate_withStaging (doSlRun_withStaging s g)
  | evPeriod =>
    refine eventGate_withStaging ?_
    rw [apply_ite (withStagingAfter g)]
    rfl
  | evSample imm =>
    refine eventGate_withStaging ?_
    rw [sampleHandler_withStaging, apply_ite (withStagingAfter g)]
    rfl
  | evSlope => exact eventGate_withStaging (doSlRun_withStaging s g)
  | fxSub | fxMul | fxMac | fxShift | fxSat | fxSatw | fxAdds => rfl

end Sys2Proof.Machine
end

