-- ==== Sys2Proof/Proofs/Encoding.lean ====
section
/-!
PROOF. The decoder and the encoder (30_encoding.md R81 to R88, R91). What each stage of the decoder accepts is said
once, as an `↔` over the frame's fields and the two tables; both round trips read these, and so do the statements about frames
as numbers.
-/

namespace Sys2Proof

/-! ## The tables -/

/-- In a table whose keys are distinct the search finds exactly the entries. -/
theorem lookup_eq_some_iff_mem {α β : Type} [DecidableEq α] {l : List (α × β)} (h : (l.map Prod.fst).Nodup) {k : α}
    {v : β} : l.lookup k = some v ↔ (k, v) ∈ l := by
  induction l with
  | nil => simp
  | cons entry l ih =>
    obtain ⟨key, value⟩ := entry
    obtain ⟨hkey, hl⟩ := List.nodup_cons.mp h
    by_cases hk : k = key
    · subst hk
      have hmem : (k, v) ∉ l := fun hv => hkey (List.mem_map.mpr ⟨_, hv, rfl⟩)
      simp [hmem, @eq_comm _ v]
    · rw [List.lookup_cons, beq_false_of_ne hk]
      simp [hk, ih hl]

theorem lookup_commandTable_iff {code : BitVec 8} {i : Instr} :
    commandTable.lookup code = some i ↔ (code, i) ∈ commandTable :=
  lookup_eq_some_iff_mem (List.nodup_cons.mp commandTable_codes_distinct).2

/-- R88: the code of `EV_SAMPLE` is no CMD code. -/
theorem code_ne_sampleCode {code : BitVec 8} {i : Instr} (h : (code, i) ∈ commandTable) : code ≠ sampleCode := by
  rintro rfl
  exact (List.nodup_cons.mp commandTable_codes_distinct).1 (List.mem_map_of_mem (f := Prod.fst) h)

/-- R85, R88: a command is well formed and its frame is the one of its code. -/
theorem encode_of_mem_commandTable {code : BitVec 8} {i : Instr} (h : (code, i) ∈ commandTable) :
    i.wf = true ∧ encode i = .frame (commandFrame code) := by
  have hall : ∀ p ∈ commandTable, p.2.wf = true ∧ encode p.2 = .frame (commandFrame p.1) := by decide
  exact hall _ h

/-- R91: a micro-operation is well formed and its word is its operation select. -/
theorem encode_of_mem_aluTable {op : AluOp} {i : Instr} (h : (op, i) ∈ aluTable) :
    i.wf = true ∧ encode i = .alu op := by
  have hall : ∀ p ∈ aluTable, p.2.wf = true ∧ encode p.2 = .alu p.1 := by decide
  exact hall _ h

/-! ## What the decoder accepts -/

/-- R82 cases 3 and 4: a write to `0x00` is `EV_SAMPLE` or a command of the table, each with its zero bits. -/
theorem decodeCommand_eq_ok_iff {d : BusWord} {i : Instr} :
    decodeCommand d = .ok i ↔
      (dataCode d = sampleCode ∧ dataMiddle d = 0 ∧ i = .evSample (dataImm d)) ∨
        (dataUpper d = 0 ∧ (dataCode d, i) ∈ commandTable) := by
  constructor
  · intro h
    unfold decodeCommand at h
    split at h
    · split at h
      · cases h
        exact .inl ⟨‹_›, ‹_›, rfl⟩
      · cases h
    · split at h
      · split at h
        · cases h
          exact .inr ⟨‹_›, lookup_commandTable_iff.mp ‹_›⟩
        · cases h
      · cases h
  · rintro (⟨hcode, hmiddle, rfl⟩ | ⟨hupper, hmem⟩)
    · rw [decodeCommand, if_pos hcode, if_pos hmiddle]
    · rw [decodeCommand, if_neg (code_ne_sampleCode hmem), lookup_commandTable_iff.mpr hmem]
      exact if_pos hupper

/-- R82: the three kinds of frame that decode. -/
theorem decode_frame_eq_ok_iff {f : Frame} {i : Instr} :
    decode (.frame f) = .ok i ↔
      (frameW f = false ∧ i = .rd (frameAddr f)) ∨
        (frameW f = true ∧ frameAddr f ≠ 0 ∧ i = .wr (frameAddr f) (frameData f)) ∨
        (frameW f = true ∧ frameAddr f = 0 ∧ decodeCommand (frameData f) = .ok i) := by
  show decodeFrame f = .ok i ↔ _
  constructor
  · intro h
    unfold decodeFrame at h
    split at h
    · cases h
      exact .inl ⟨‹_›, rfl⟩
    · have hw : frameW f = true := Bool.eq_true_of_not_eq_false ‹_›
      split at h
      · cases h
        exact .inr (.inl ⟨hw, ‹_›, rfl⟩)
      · exact .inr (.inr ⟨hw, not_not.mp ‹_›, h⟩)
  · rintro (⟨hw, rfl⟩ | ⟨hw, haddr, rfl⟩ | ⟨hw, haddr, h⟩)
    · rw [decodeFrame, if_pos hw]
    · rw [decodeFrame, if_neg (by simp [hw]), if_pos haddr]
    · rw [decodeFrame, if_neg (by simp [hw]), if_neg (not_not.mpr haddr), h]

/-- R91: the operation selects that decode are those of the table. -/
theorem decode_alu_eq_ok_iff {op : AluOp} {i : Instr} : decode (.alu op) = .ok i ↔ (op, i) ∈ aluTable := by
  rw [← lookup_eq_some_iff_mem aluTable_codes_distinct]
  show decodeAlu op = .ok i ↔ _
  unfold decodeAlu
  cases aluTable.lookup op <;> simp

/-! ## The fields as numbers (R81) -/

theorem dataCode_toNat (d : BusWord) : (dataCode d).toNat = d.toNat % 2 ^ 8 := by
  simp [dataCode]

theorem dataMiddle_toNat (d : BusWord) : (dataMiddle d).toNat = d.toNat / 2 ^ 8 % 2 ^ 8 := by
  simp [dataMiddle, Nat.shiftRight_eq_div_pow]

theorem dataImm_toNat (d : BusWord) : (dataImm d).toNat = d.toNat / 2 ^ 16 % 2 ^ 16 := by
  simp [dataImm, Nat.shiftRight_eq_div_pow]

theorem dataUpper_toNat (d : BusWord) : (dataUpper d).toNat = d.toNat / 2 ^ 8 % 2 ^ 24 := by
  simp [dataUpper, Nat.shiftRight_eq_div_pow]

theorem frameAddr_toNat (f : Frame) : (frameAddr f).toNat = f.toNat / 2 ^ 32 % 2 ^ 8 := by
  simp [frameAddr, Nat.shiftRight_eq_div_pow]

theorem frameData_toNat (f : Frame) : (frameData f).toNat = f.toNat % 2 ^ 32 := by
  simp [frameData]

theorem frameW_iff (f : Frame) : frameW f = true ↔ f.toNat / 2 ^ 40 = 1 := by
  have hlt := f.isLt
  rw [frameW, ← BitVec.testBit_toNat, Nat.testBit_eq_decide_div_mod_eq, decide_eq_true_iff]
  omega

theorem frameW_eq_false_iff (f : Frame) : frameW f = false ↔ f.toNat / 2 ^ 40 = 0 := by
  have hlt := f.isLt
  rw [← Bool.not_eq_true, frameW_iff]
  omega

/-- R86: the data of an `EV_SAMPLE` frame. -/
def sampleData (imm : Word) : BusWord := imm ++ sampleCode.setWidth 16

theorem sampleData_toNat (imm : Word) : (sampleData imm).toNat = imm.toNat * 2 ^ 16 + 0x21 := by
  have h : (sampleData imm).toNat = imm.toNat <<< 16 ||| 0x21 := BitVec.toNat_append imm (sampleCode.setWidth 16)
  rw [h, ← Nat.shiftLeft_add_eq_or_of_lt (by decide), Nat.shiftLeft_eq]

/-! ## Words from their fields -/

/-- R81: a frame is its three fields. -/
theorem frameOf_fields (f : Frame) : frameOf (BitVec.ofBool (frameW f)) (frameAddr f) (frameData f) = f := by
  apply BitVec.eq_of_getLsbD_eq
  intro i hi
  rw [frameOf_getLsbD]
  split
  · simp [frameData, *]
  · split
    · have h1 : i - 32 < 8 := by omega
      have h2 : 32 + (i - 32) = i := by omega
      simp [frameAddr, h1, h2]
    · have h40 : i = 40 := by omega
      simp [frameW, h40]

/-- A write frame is its address and its data. -/
theorem frameOf_one_fields {f : Frame} (h : frameW f = true) : frameOf 1 (frameAddr f) (frameData f) = f := by
  have hf := frameOf_fields f
  rwa [h] at hf

/-- R85: the data of a command is its code, its upper bits being zero. -/
theorem setWidth_dataCode {d : BusWord} (h : dataUpper d = 0) : (dataCode d).setWidth 32 = d := by
  have hupper : (dataUpper d).toNat = 0 := by rw [h]; rfl
  rw [dataUpper_toNat] at hupper
  apply BitVec.eq_of_toNat_eq
  rw [BitVec.toNat_setWidth, dataCode_toNat]
  omega

/-- R86: the data of an `EV_SAMPLE` is its immediate above the code, its middle bits being zero. -/
theorem sampleData_dataImm {d : BusWord} (hcode : dataCode d = sampleCode) (hmiddle : dataMiddle d = 0) :
    sampleData (dataImm d) = d := by
  have h1 : (dataCode d).toNat = 0x21 := by rw [hcode]; rfl
  have h2 : (dataMiddle d).toNat = 0 := by rw [hmiddle]; rfl
  rw [dataCode_toNat] at h1
  rw [dataMiddle_toNat] at h2
  apply BitVec.eq_of_toNat_eq
  rw [sampleData_toNat, dataImm_toNat]
  omega

/-! ## Decoding what was encoded -/

theorem decode_writeFrame_zero (d : BusWord) : decode (.frame (frameOf 1 0 d)) = decodeCommand d :=
  (Machine.decode_writeFrame 0 d).trans (if_pos rfl)

theorem decode_readFrame (addr : Addr) (d : BusWord) : decode (.frame (frameOf 0 addr d)) = .ok (.rd addr) := by
  simp [decode, decodeFrame]

/-- R85, R88: the frame of a code of the table decodes to its command. -/
theorem decode_commandFrame {code : BitVec 8} {i : Instr} (h : (code, i) ∈ commandTable) :
    decode (.frame (commandFrame code)) = .ok i := by
  have hcode : dataCode (code.setWidth 32) = code := by
    apply BitVec.eq_of_toNat_eq
    rw [dataCode_toNat, BitVec.toNat_setWidth]
    omega
  have hupper : dataUpper (code.setWidth 32) = 0 := by
    apply BitVec.eq_of_toNat_eq
    rw [dataUpper_toNat, BitVec.toNat_setWidth]
    show _ = 0
    omega
  rw [commandFrame, decode_writeFrame_zero, decodeCommand_eq_ok_iff]
  exact .inr ⟨hupper, hcode.symm ▸ h⟩

/-- R86: the `EV_SAMPLE` frame of an immediate decodes to the event with that immediate. -/
theorem decode_sampleFrame (imm : Word) : decode (.frame (frameOf 1 0 (sampleData imm))) = .ok (.evSample imm) := by
  have hcode : dataCode (sampleData imm) = sampleCode := by
    apply BitVec.eq_of_toNat_eq
    rw [dataCode_toNat, sampleData_toNat]
    show _ = 0x21
    omega
  have hmiddle : dataMiddle (sampleData imm) = 0 := by
    apply BitVec.eq_of_toNat_eq
    rw [dataMiddle_toNat, sampleData_toNat]
    show _ = 0
    omega
  have himm : dataImm (sampleData imm) = imm := by
    apply BitVec.eq_of_toNat_eq
    rw [dataImm_toNat, sampleData_toNat]
    omega
  rw [decode_writeFrame_zero, decodeCommand_eq_ok_iff]
  exact .inl ⟨hcode, hmiddle, congrArg Instr.evSample himm.symm⟩

end Sys2Proof

namespace Sys2Proof.Machine

/-- Settles O3: the fields of each format's frame read back, and a code or a select finds its own row. -/
theorem decodeInvertsEncode : Obligations.DecodeInvertsEncode := by
  intro i hwf
  cases i with
  | rd addr => exact decode_readFrame addr 0
  | wr addr d =>
    have haddr : addr ≠ 0 := by simpa [Instr.wf] using hwf
    exact (decode_writeFrame addr d).trans (if_neg haddr)
  | evSample imm => exact decode_sampleFrame imm
  | init | start | ssArm | slCfg | orchEn | update | ssStep | slRun | evPeriod | evSlope =>
    exact decode_commandFrame (by decide)
  | fxSub | fxMul | fxMac | fxShift | fxSat | fxSatw | fxAdds => exact decode_alu_eq_ok_iff.mpr (by decide)

/-- A write to `0x00` that decodes is the encoding of its command or event. -/
theorem encode_of_decodeCommand {d : BusWord} {i : Instr} (h : decodeCommand d = .ok i) :
    i.wf = true ∧ encode i = .frame (frameOf 1 0 d) := by
  obtain ⟨hcode, hmiddle, rfl⟩ | ⟨hupper, hmem⟩ := decodeCommand_eq_ok_iff.mp h
  · exact ⟨rfl, congrArg (fun x => CodeWord.frame (frameOf 1 0 x)) (sampleData_dataImm hcode hmiddle)⟩
  · obtain ⟨hwf, hencode⟩ := encode_of_mem_commandTable hmem
    exact ⟨hwf, by rw [hencode, commandFrame, setWidth_dataCode hupper]⟩

/-- Settles O4: the fields that a kind of frame leaves free are the operation's operands, but for a read's data. -/
theorem encodeInvertsDecode : Obligations.EncodeInvertsDecode := by
  intro c i h
  cases c with
  | alu op =>
    obtain ⟨hwf, hencode⟩ := encode_of_mem_aluTable (decode_alu_eq_ok_iff.mp h)
    exact ⟨hwf, .inl hencode⟩
  | frame f =>
    obtain ⟨hw, rfl⟩ | ⟨hw, haddr, rfl⟩ | ⟨hw, haddr, hcommand⟩ := decode_frame_eq_ok_iff.mp h
    · have hf := frameOf_fields f
      rw [hw] at hf
      exact ⟨rfl, .inr ⟨_, _, rfl, congrArg CodeWord.frame hf.symm⟩⟩
    · exact ⟨by simpa [Instr.wf] using haddr, .inl (congrArg CodeWord.frame (frameOf_one_fields hw))⟩
    · obtain ⟨hwf, hencode⟩ := encode_of_decodeCommand hcommand
      have hf := frameOf_one_fields hw
      rw [haddr] at hf
      exact ⟨hwf, .inl (by rw [hencode, hf])⟩

/-- Settles O6: the decoder run on each word. -/
theorem writtenOutWordsDecode : Obligations.WrittenOutWordsDecode :=
  ⟨rfl, rfl, rfl, rfl, rfl, rfl, rfl, rfl, rfl⟩

end Sys2Proof.Machine
end

