-- ==== Sys2Proof/Proofs/IllegalFrames.lean ====
section
/-!
PROOF. Frames as numbers and the frames that fault (30_encoding.md R82, R89): the tests of R82 on the frame's bits are
those of the decoder's fields, and a frame that decodes to nothing, or names an address without that access, faults when
it is taken.
-/

namespace Sys2Proof

/-! ## The fields of a frame's data as numbers (R81) -/

theorem frameCode_toNat (f : Frame) : (dataCode (frameData f)).toNat = f.toNat % 2 ^ 8 := by
  rw [dataCode_toNat, frameData_toNat]
  omega

theorem frameMiddle_toNat (f : Frame) : (dataMiddle (frameData f)).toNat = f.toNat / 2 ^ 8 % 2 ^ 8 := by
  rw [dataMiddle_toNat, frameData_toNat]
  omega

theorem frameUpper_toNat (f : Frame) : (dataUpper (frameData f)).toNat = f.toNat / 2 ^ 8 % 2 ^ 24 := by
  rw [dataUpper_toNat, frameData_toNat]
  omega

theorem frameAddr_eq_ofNat (f : Frame) : frameAddr f = BitVec.ofNat 8 (f.toNat / 2 ^ 32 % 2 ^ 8) := by
  rw [← frameAddr_toNat, BitVec.ofNat_toNat, BitVec.setWidth_eq]

theorem frameData_eq_ofNat (f : Frame) : frameData f = BitVec.ofNat 32 f.toNat := by
  apply BitVec.eq_of_toNat_eq
  rw [frameData_toNat, BitVec.toNat_ofNat]

theorem frameImm_eq_ofNat (f : Frame) : dataImm (frameData f) = BitVec.ofNat 16 (f.toNat / 2 ^ 16) := by
  apply BitVec.eq_of_toNat_eq
  rw [dataImm_toNat, frameData_toNat, BitVec.toNat_ofNat]
  omega

theorem frameCode_eq_extractLsb' (f : Frame) : dataCode (frameData f) = f.extractLsb' 0 8 := by
  apply BitVec.eq_of_toNat_eq
  rw [frameCode_toNat, BitVec.extractLsb'_toNat, Nat.shiftRight_zero]

theorem frameAddr_eq_zero_iff (f : Frame) : frameAddr f = 0 ↔ f.toNat / 2 ^ 32 % 2 ^ 8 = 0 := by
  rw [← frameAddr_toNat, BitVec.toNat_eq]
  rfl

theorem frameCode_eq_sampleCode_iff (f : Frame) : dataCode (frameData f) = sampleCode ↔ f.toNat % 2 ^ 8 = 0x21 := by
  rw [← frameCode_toNat, BitVec.toNat_eq]
  rfl

theorem frameMiddle_eq_zero_iff (f : Frame) : dataMiddle (frameData f) = 0 ↔ f.toNat / 2 ^ 8 % 2 ^ 8 = 0 := by
  rw [← frameMiddle_toNat, BitVec.toNat_eq]
  rfl

theorem frameUpper_eq_zero_iff (f : Frame) : dataUpper (frameData f) = 0 ↔ f.toNat / 2 ^ 8 % 2 ^ 24 = 0 := by
  rw [← frameUpper_toNat, BitVec.toNat_eq]
  rfl

/-- R88: the command table with its codes as numbers. -/
def commandTableNat : List (Nat × Instr) := commandTable.map (Prod.map BitVec.toNat id)

theorem frameCode_mem_iff (f : Frame) (i : Instr) :
    (dataCode (frameData f), i) ∈ commandTable ↔ (f.toNat % 2 ^ 8, i) ∈ commandTableNat := by
  have hinj : Function.Injective (Prod.map (BitVec.toNat (w := 8)) (id : Instr → Instr)) :=
    Function.Injective.prodMap (fun _ _ => BitVec.eq_of_toNat_eq) Function.injective_id
  rw [← frameCode_toNat]
  exact (List.mem_map_of_injective hinj).symm

/-- A write frame to `0x00`, where the commands are. -/
theorem commandFrame_iff (f : Frame) : f.toNat / 2 ^ 32 = 2 ^ 8 ↔ frameW f = true ∧ frameAddr f = 0 := by
  have hlt := f.isLt
  rw [frameW_iff, frameAddr_eq_zero_iff]
  omega

/-- R82: a write frame to `0x00` decodes as its data does. -/
theorem decode_frame_of_command {f : Frame} (hw : frameW f = true) (haddr : frameAddr f = 0) :
    decode (.frame f) = decodeCommand (frameData f) := by
  rw [← decode_writeFrame_zero, ← haddr, frameOf_one_fields hw]

/-- A word that decodes to no operation decodes to an error. -/
theorem exists_error_of_ne_ok {x : Except DecodeError Instr} (h : ∀ i, x ≠ .ok i) : ∃ e, x = .error e := by
  cases x with
  | error e => exact ⟨e, rfl⟩
  | ok i => exact absurd rfl (h i)

end Sys2Proof

namespace Sys2Proof.Machine

/-- R89: a frame that decodes to no operation faults when it is taken. -/
theorem step_of_undecodable {s : State} {f : Frame} {rest : List Input} (h : s.inputs = .frame f :: rest)
    (hdecode : ∀ i, decode (.frame f) ≠ .ok i) : step s = .fault .illegalFrame := by
  obtain ⟨e, he⟩ := exists_error_of_ne_ok hdecode
  rw [step, fetch_of_frame h, fetchFrame, he]

/-- Settles O5: each test of R82 on the number is one of the decoder's fields, and the decoder accepts nothing but its
four cases. -/
theorem frameDecodesByFirstMatchingCase : Obligations.FrameDecodesByFirstMatchingCase := by
  intro f w addr code codes
  have hcodes : codes = commandTableNat := rfl
  have hdecode (hw : w = 1) (haddr : addr = 0) : decode (.frame f) = decodeCommand (frameData f) :=
    decode_frame_of_command ((frameW_iff f).mpr hw) ((frameAddr_eq_zero_iff f).mpr haddr)
  refine ⟨fun hw => ?_, fun hw haddr => ?_, fun hw haddr hcode hmiddle => ?_, fun hw haddr hupper i hi => ?_,
    fun hw haddr hsample hcommand => ?_⟩
  · exact decode_frame_eq_ok_iff.mpr (.inl ⟨(frameW_eq_false_iff f).mpr hw, by rw [frameAddr_eq_ofNat]⟩)
  · rw [decode_frame_eq_ok_iff, frameData_eq_ofNat, ← frameAddr_eq_ofNat]
    exact .inr (.inl ⟨(frameW_iff f).mpr hw, mt (frameAddr_eq_zero_iff f).mp haddr, rfl⟩)
  · rw [hdecode hw haddr, decodeCommand_eq_ok_iff, frameImm_eq_ofNat]
    exact .inl ⟨(frameCode_eq_sampleCode_iff f).mpr hcode, (frameMiddle_eq_zero_iff f).mpr hmiddle, rfl⟩
  · rw [hdecode hw haddr, decodeCommand_eq_ok_iff]
    exact .inr ⟨(frameUpper_eq_zero_iff f).mpr hupper, (frameCode_mem_iff f i).mpr (hcodes ▸ hi)⟩
  · have hnone : ∀ i, decode (.frame f) ≠ .ok i := by
      intro i hi
      rw [hdecode hw haddr, decodeCommand_eq_ok_iff, frameCode_eq_sampleCode_iff, frameMiddle_eq_zero_iff,
        frameUpper_eq_zero_iff, frameCode_mem_iff, ← hcodes] at hi
      obtain ⟨hcode, hmiddle, -⟩ | ⟨hupper, hmem⟩ := hi
      · exact hsample ⟨hcode, hmiddle⟩
      · exact hcommand ⟨hupper, i, hmem⟩
    exact ⟨exists_error_of_ne_ok hnone, fun s rest h => step_of_undecodable h hnone⟩

/-! ## The illegal frames -/

theorem mem_commandCodes_iff {code : BitVec 8} : code ∈ commandCodes ↔ ∃ i, (code, i) ∈ commandTable := by
  have h : commandCodes = commandTable.map Prod.fst := rfl
  simp [h]

/-- R88: an accepted command has the code of `EV_SAMPLE` and zero middle bits, or a CMD code and zero upper bits. -/
theorem decodeCommand_code {d : BusWord} {i : Instr} (h : decodeCommand d = .ok i) :
    (dataCode d = sampleCode ∧ dataMiddle d = 0) ∨ (dataCode d ∈ commandCodes ∧ dataUpper d = 0) := by
  obtain ⟨hcode, hmiddle, -⟩ | ⟨hupper, hmem⟩ := decodeCommand_eq_ok_iff.mp h
  · exact .inl ⟨hcode, hmiddle⟩
  · exact .inr ⟨mem_commandCodes_iff.mpr ⟨i, hmem⟩, hupper⟩

theorem sampleCode_not_mem_commandCodes : sampleCode ∉ commandCodes := by decide

/-- R89: a write to `0x00` faults unless its data has one of the two accepted forms. -/
theorem step_of_bad_command {s : State} {f : Frame} {rest : List Input} (h : s.inputs = .frame f :: rest)
    (hf : f.toNat / 2 ^ 32 = 2 ^ 8)
    (hsample : ¬ (f.extractLsb' 0 8 = sampleCode ∧ f.toNat / 2 ^ 8 % 2 ^ 8 = 0))
    (hcommand : ¬ (f.extractLsb' 0 8 ∈ commandCodes ∧ f.toNat / 2 ^ 8 % 2 ^ 24 = 0)) :
    step s = .fault .illegalFrame := by
  obtain ⟨hw, haddr⟩ := (commandFrame_iff f).mp hf
  apply step_of_undecodable h
  intro i hi
  rw [decode_frame_of_command hw haddr] at hi
  have hform := decodeCommand_code hi
  rw [frameCode_eq_extractLsb', frameMiddle_eq_zero_iff, frameUpper_eq_zero_iff] at hform
  exact hform.elim hsample hcommand

/-- 20_memory.md R61: where no row has the access, the search finds no register. -/
theorem registerAt_eq_none {p : RegRow → Bool} {addr : Addr} (h : addr ∉ (regMap.filter p).map (·.addr)) :
    registerAt p addr = none := by
  rw [Option.eq_none_iff_forall_ne_some]
  intro r hr
  obtain ⟨row, hmem, rfl, hp, -⟩ := registerAt_eq_some_iff.mp hr
  exact h (List.mem_map_of_mem (List.mem_filter.mpr ⟨hmem, hp⟩))

theorem readableAt_eq_none {addr : Addr} (h : addr ∉ readAddrs) : readableAt addr = none :=
  registerAt_eq_none h

theorem writableAt_eq_none {addr : Addr} (h : addr ∉ storeAddrs) : writableAt addr = none :=
  registerAt_eq_none h

/-- Settles O8: a bad command decodes to nothing, and an access finds no register with that access. -/
theorem illegalFramesFault : Obligations.IllegalFramesFault := by
  intro s f rest h
  refine ⟨fun hf hcode => ?_, fun hf hcode hupper => ?_, fun hf hcode hmiddle => ?_, fun hw haddr => ?_,
    fun hw haddr hlife => ?_⟩
  · exact step_of_bad_command h hf (fun ⟨hsample, _⟩ => List.ne_of_not_mem_cons hcode hsample)
      (fun ⟨hcommand, _⟩ => List.not_mem_of_not_mem_cons hcode hcommand)
  · exact step_of_bad_command h hf (fun ⟨hsample, _⟩ => sampleCode_not_mem_commandCodes (hsample ▸ hcode))
      (fun ⟨_, hzero⟩ => hupper hzero)
  · have hsample : f.extractLsb' 0 8 = sampleCode := hcode
    exact step_of_bad_command h hf (fun ⟨_, hzero⟩ => hmiddle hzero)
      (fun ⟨hcommand, _⟩ => sampleCode_not_mem_commandCodes (hsample ▸ hcommand))
  · have hdecode := decode_frame_eq_ok_iff.mpr (.inl ⟨(frameW_eq_false_iff f).mpr hw, rfl⟩)
    exact (step_of_frame h hdecode).trans (exec_rd_of_unreadable _ (readableAt_eq_none haddr))
  · have hdecode := decode_frame_eq_ok_iff.mpr
      (.inr (.inl ⟨(frameW_iff f).mpr hw, List.ne_of_not_mem_cons haddr, rfl⟩))
    have hnone := writableAt_eq_none (List.not_mem_of_not_mem_cons haddr)
    exact (step_of_frame h hdecode).trans (exec_wr_of_unwritable _ hlife hnone)

end Sys2Proof.Machine
end

