-- ==== Sys2Proof/Proofs/LiteralConversion.lean ====
section
/-!
PROOF. The literal conversion `Q` (30_encoding.md R95). With `x = v.num * 2^F`, the result is the sign of `x` times the
rounded magnitude, and a rounded magnitude `m` is the one number with `2|x| - d < 2md ≤ 2|x| + d`: the upper bound is
reached, the lower is not, so a tie goes away from zero.
-/

namespace Sys2Proof.Machine

/-- `n / d` rounded to nearest, a tie upwards. -/
def roundedRatio (n d : Nat) : Nat := (2 * n + d) / (2 * d)

theorem roundedRatio_bounds (n : Nat) {d : Nat} (hd : 0 < d) :
    2 * (roundedRatio n d * d) ≤ 2 * n + d ∧ 2 * n < 2 * (roundedRatio n d * d) + d := by
  have hdiv := Nat.div_add_mod (2 * n + d) (2 * d)
  have hmod := Nat.mod_lt (2 * n + d) (show 0 < 2 * d by omega)
  have hprod : 2 * d * ((2 * n + d) / (2 * d)) = 2 * (roundedRatio n d * d) := by
    unfold roundedRatio
    ring
  omega

theorem scaledRound_eq (v : RealLit) (F : Nat) :
    v.scaledRound F = v.num.sign * roundedRatio (v.num.natAbs * 2 ^ F) v.den := by
  rw [RealLit.scaledRound, roundedRatio, mul_assoc]

/-- R95: the rounded value has the sign of the literal and lies within half a unit of it, where the bound towards zero
is strict: a tie goes the other way. -/
theorem scaledRound_bounds (v : RealLit) (F : Nat) (hden : 0 < v.den) :
    (0 ≤ v.num * 2 ^ F ∧ 0 ≤ v.scaledRound F * v.den ∧
        2 * (v.num * 2 ^ F) - v.den < 2 * (v.scaledRound F * v.den) ∧
        2 * (v.scaledRound F * v.den) ≤ 2 * (v.num * 2 ^ F) + v.den) ∨
      (v.num * 2 ^ F < 0 ∧ v.scaledRound F * v.den ≤ 0 ∧
        2 * (v.num * 2 ^ F) - v.den ≤ 2 * (v.scaledRound F * v.den) ∧
        2 * (v.scaledRound F * v.den) < 2 * (v.num * 2 ^ F) + v.den) := by
  obtain ⟨hhi, hlo⟩ := roundedRatio_bounds (v.num.natAbs * 2 ^ F) hden
  have hx : v.num * 2 ^ F = v.num.sign * (v.num.natAbs * 2 ^ F : Nat) := by
    rw [Nat.cast_mul, ← mul_assoc, Int.sign_mul_natAbs]
    norm_cast
  have hr : v.scaledRound F * v.den = v.num.sign * (roundedRatio (v.num.natAbs * 2 ^ F) v.den * v.den : Nat) := by
    rw [scaledRound_eq]
    push_cast
    ring
  rw [hx, hr]
  have hnum : v.num < 0 → 0 < v.num.natAbs * 2 ^ F := fun hneg => by
    have habs : 0 < v.num.natAbs := by omega
    positivity
  generalize roundedRatio (v.num.natAbs * 2 ^ F) v.den * v.den = rd at *
  generalize v.num.natAbs * 2 ^ F = n at *
  obtain hneg | hzero | hpos := lt_trichotomy v.num 0
  · have := hnum hneg
    rw [Int.sign_eq_neg_one_of_neg hneg]
    omega
  · rw [hzero, Int.sign_zero]
    omega
  · rw [Int.sign_eq_one_of_pos hpos]
    omega

/-- R95: the range check of `Q`, made on the literal scaled. -/
def LiteralInRange (v : RealLit) (F : Nat) : Prop :=
  -(2 ^ 15) * v.den ≤ v.num * 2 ^ F ∧ v.num * 2 ^ F < 2 ^ 15 * v.den

theorem not_literalInRange_iff {v : RealLit} {F : Nat} :
    ¬ LiteralInRange v F ↔ v.num * 2 ^ F < -(2 ^ 15) * v.den ∨ 2 ^ 15 * v.den ≤ v.num * 2 ^ F := by
  rw [LiteralInRange, not_and_or, not_le, not_lt]

/-- R95: the rounding stays in the range of a scaled word but for 32768, which the top half-step gives. -/
theorem scaledRound_range {v : RealLit} {F : Nat} (hden : 0 < v.den) (hin : LiteralInRange v F) :
    -32768 ≤ v.scaledRound F ∧ v.scaledRound F ≤ 32768 ∧
      (v.scaledRound F = 32768 ↔ 65535 * v.den ≤ 2 * (v.num * 2 ^ F)) := by
  obtain ⟨hlo, hhi⟩ := hin
  have hd : (0 : Int) < v.den := by exact_mod_cast hden
  have hle : ∀ a b : Int, a ≤ b ↔ a * v.den ≤ b * v.den := fun a b => (mul_le_mul_iff_left₀ hd).symm
  have hmin := hle (v.scaledRound F) (-32769)
  have hmax := hle 32769 (v.scaledRound F)
  have htop := hle 32768 (v.scaledRound F)
  have hbelow := hle (v.scaledRound F) 32767
  have hround := scaledRound_bounds v F hden
  generalize v.scaledRound F * v.den = rd at *
  generalize v.num * 2 ^ F = x at *
  omega

/-- R95: the rounding is within half a unit, and at half a unit it is the farther from zero. -/
theorem scaledRound_nearest (v : RealLit) (F : Nat) (hden : 0 < v.den) :
    2 * |v.scaledRound F * v.den - v.num * 2 ^ F| ≤ v.den ∧
      (2 * |v.scaledRound F * v.den - v.num * 2 ^ F| = v.den → |v.num * 2 ^ F| < |v.scaledRound F * v.den|) := by
  have hround := scaledRound_bounds v F hden
  generalize v.scaledRound F * v.den = rd at *
  generalize v.num * 2 ^ F = x at *
  simp only [abs_eq_max_neg]
  omega

/-- R95: `Q` is the rounding of a literal in range, unless that is 32768. -/
theorem q_of_inRange {v : RealLit} {F : Nat} (hden : 0 < v.den) (h : LiteralInRange v F) :
    q v F = if v.scaledRound F = 32768 then none else some (v.scaledRound F) := by
  rw [q, if_neg hden.ne', if_neg (mt not_literalInRange_iff.mpr (not_not.mpr h))]

theorem q_of_not_inRange {v : RealLit} {F : Nat} (hden : 0 < v.den) (h : ¬ LiteralInRange v F) : q v F = none := by
  rw [q, if_neg hden.ne', if_pos (not_literalInRange_iff.mp h)]

/-- Settles O60: outside the range both sides of the `↔` hold; inside it `Q` is the rounding, an error exactly in the
top half-step. -/
theorem literalConversionRounds : Obligations.LiteralConversionRounds := by
  intro v F hden
  rw [← or_assoc, ← not_literalInRange_iff]
  by_cases hin : LiteralInRange v F
  · obtain ⟨hmin, hmax, htop⟩ := scaledRound_range hden hin
    rw [q_of_inRange hden hin, ← htop]
    split
    next hoverflow => simp [hoverflow]
    next hfits =>
      refine ⟨by simp [hin, hfits], fun r hr => ?_⟩
      cases hr
      exact ⟨hmin, by omega, scaledRound_nearest v F hden⟩
  · rw [q_of_not_inRange hden hin]
    simp [hin]

end Sys2Proof.Machine
end

