-- ==== Sys2Proof/Proofs/Arithmetic.lean ====
section
/-!
PROOF. The arithmetic unit (40_arith.md R101 to R107). Each micro-operation puts one function's value on the result port;
what that value is, is said of the function: the clamp case by case, the shift as one floor division between two multiples
of `2^s`.
-/

namespace Sys2Proof.Machine

/-! ## The micro-operations -/

theorem exec_fxSub (s : State) :
    exec .fxSub s = .next (s.setAluResult (fxSub s.alu.operands.a s.alu.operands.b)) := rfl

theorem exec_fxMul (s : State) :
    exec .fxMul s = .next (s.setAluResult (fxMul s.alu.operands.a s.alu.operands.b)) := rfl

theorem exec_fxMac (s : State) :
    exec .fxMac s = .next (s.setAluResult (fxMac s.alu.operands.acc s.alu.operands.a s.alu.operands.b)) := rfl

theorem exec_fxShift (s : State) :
    exec .fxShift s = .next (s.setAluResult (fxShift s.cfg.rnd s.alu.operands.x s.alu.operands.s)) := rfl

theorem exec_fxSat (s : State) :
    exec .fxSat s =
      .next (s.setAluResult (fxSat s.alu.operands.x s.alu.operands.lo.toInt s.alu.operands.hi.toInt)) := rfl

theorem exec_fxSatw (s : State) : exec .fxSatw s = .next (s.setAluResult (fxSatw s.alu.operands.x)) := rfl

theorem exec_fxAdds (s : State) :
    exec .fxAdds s = .next (s.setAluResult (fxAdds s.alu.operands.a s.alu.operands.b)) := rfl

/-! ## The clamp (R105, R106) -/

theorem fxSat_of_lt_lo {x lo hi : Int} (hbounds : lo ≤ hi) (h : x < lo) : fxSat x lo hi = lo := by
  rw [fxSat, max_eq_right h.le, min_eq_left hbounds]

theorem fxSat_of_hi_lt {x lo hi : Int} (h : hi < x) : fxSat x lo hi = hi :=
  min_eq_right (h.le.trans (le_max_left x lo))

theorem fxSat_of_mem {x lo hi : Int} (hlo : lo ≤ x) (hhi : x ≤ hi) : fxSat x lo hi = x := by
  rw [fxSat, max_eq_left hlo, min_eq_left hhi]

/-- Clamped to two scaled words, crossing ones too, a value is a scaled word. -/
theorem fxSat_words_range (x : Int) (lo hi : Word) :
    -32768 ≤ fxSat x lo.toInt hi.toInt ∧ fxSat x lo.toInt hi.toInt ≤ 32767 := by
  obtain ⟨hlo, -⟩ := word_toInt_range lo
  obtain ⟨hhi, hhi'⟩ := word_toInt_range hi
  exact ⟨le_min (hlo.trans (le_max_right _ _)) hhi, (fxSat_le _ _ _).trans hhi'⟩

theorem fxSatw_of_lt_range {x : Int} (h : x < -32768) : fxSatw x = -32768 := fxSat_of_lt_lo (by norm_num) h

theorem fxSatw_of_range_lt {x : Int} (h : 32767 < x) : fxSatw x = 32767 := fxSat_of_hi_lt h

/-! ## The shift (R104) -/

/-- What is added before the floor: half a unit of the result under `NEAREST`, if there is a bit to drop. -/
def roundingOffset (rnd : Rounding) (s : Nat) : Int :=
  match rnd, s with
  | .nearest, n + 1 => 2 ^ n
  | _, _ => 0

theorem fxShift_eq_div (rnd : Rounding) (x : Int) (s : Nat) :
    fxShift rnd x s = (x + roundingOffset rnd s) / 2 ^ s := by
  cases s with
  | zero => cases rnd <;> simp [roundingOffset]
  | succ n => cases rnd <;> simp [fxShift, roundingOffset]

theorem roundingOffset_trunc (s : Nat) : roundingOffset .trunc s = 0 := rfl

theorem two_mul_roundingOffset_nearest {s : Nat} (h : s ≠ 0) : 2 * roundingOffset .nearest s = 2 ^ s := by
  obtain ⟨n, rfl⟩ := Nat.exists_eq_succ_of_ne_zero h
  exact (pow_succ' 2 n).symm

theorem roundingOffset_range (rnd : Rounding) (s : Nat) : 0 ≤ roundingOffset rnd s ∧ roundingOffset rnd s < 2 ^ s := by
  have hpow : (0 : Int) < 2 ^ s := by positivity
  cases rnd with
  | trunc => exact ⟨le_rfl, hpow⟩
  | nearest =>
    obtain rfl | hs := eq_or_ne s 0
    · decide
    · have := two_mul_roundingOffset_nearest hs
      omega

/-- The shift is the one integer whose unit interval, scaled by `2^s`, holds the operand with its rounding offset. -/
theorem fxShift_bounds (rnd : Rounding) (x : Int) (s : Nat) :
    fxShift rnd x s * 2 ^ s ≤ x + roundingOffset rnd s ∧ x + roundingOffset rnd s < (fxShift rnd x s + 1) * 2 ^ s := by
  have hpow : (0 : Int) < 2 ^ s := by positivity
  rw [fxShift_eq_div]
  exact ⟨Int.ediv_mul_le _ hpow.ne', Int.lt_ediv_add_one_mul_self _ hpow⟩

/-- A shift does not leave a bound on the magnitude, rounding up included. -/
theorem abs_fxShift_le {x B : Int} (rnd : Rounding) (s : Nat) (h : |x| ≤ B) : |fxShift rnd x s| ≤ B := by
  have hpow : (1 : Int) ≤ 2 ^ s := one_le_pow₀ (by norm_num)
  have hscale : B ≤ B * 2 ^ s := le_mul_of_one_le_right ((abs_nonneg x).trans h) hpow
  obtain ⟨hoff, hoff'⟩ := roundingOffset_range rnd s
  rw [abs_le] at h ⊢
  rw [fxShift_eq_div]
  constructor
  · rw [Int.le_ediv_iff_mul_le (by omega), neg_mul]
    omega
  · rw [← Int.lt_add_one_iff, Int.ediv_lt_iff_lt_mul (by omega), add_mul]
    omega

/-! ## The statements -/

/-- Settles O39: two scaled words are at most 65535 apart. -/
theorem fxSubIsExact : Obligations.FxSubIsExact :=
  ⟨rfl, fun s => ⟨exec_fxSub s, by omega⟩⟩

/-- Settles O40: the product is taken in the integers, without narrowing. -/
theorem fxMulIsExact : Obligations.FxMulIsExact := ⟨rfl, exec_fxMul⟩

/-- Settles O41: product and sum are taken in the integers, without narrowing. -/
theorem fxMacIsExact : Obligations.FxMacIsExact := ⟨rfl, exec_fxMac⟩

/-- Settles O42: both roundings are the bounds of the one floor division, with an offset of 0 or of half a unit. -/
theorem fxShiftRoundsAsConfigured : Obligations.FxShiftRoundsAsConfigured := by
  refine ⟨rfl, fun s => ⟨_, exec_fxShift s, ?_, ?_, ?_⟩⟩
  · intro hs
    rw [hs, fxShift_zero]
  · intro hrnd
    simpa [hrnd, roundingOffset_trunc] using fxShift_bounds s.cfg.rnd s.alu.operands.x s.alu.operands.s
  · intro hs hrnd
    have hhalf := two_mul_roundingOffset_nearest hs
    obtain ⟨hlo, hhi⟩ := fxShift_bounds .nearest s.alu.operands.x s.alu.operands.s
    rw [hrnd]
    constructor <;> linarith

/-- Settles O43, by the clamp's four cases. -/
theorem fxSatClamps : Obligations.FxSatClamps :=
  ⟨rfl, fun s => ⟨_, exec_fxSat s, fxSat_of_lt _ _ _,
    fun hbounds => ⟨fxSat_of_lt_lo hbounds, fxSat_of_hi_lt, fxSat_of_mem⟩, fxSat_words_range _ _ _⟩⟩

/-- Settles O44: `FX_SATW` is the clamp to the range of a scaled word, whose bounds do not cross. -/
theorem fxSatwSaturates : Obligations.FxSatwSaturates :=
  ⟨rfl, fun s => ⟨_, exec_fxSatw s, fxSatw_of_lt_range, fxSatw_of_range_lt, fxSatw_of_range _⟩⟩

/-- Settles O45: the addition is `FX_SATW` of the exact sum. -/
theorem fxAddsSaturatesTheExactSum : Obligations.FxAddsSaturatesTheExactSum :=
  ⟨rfl, fun s => ⟨_, exec_fxAdds s, fxSatw_of_lt_range, fxSatw_of_range_lt, fxSatw_of_range _⟩⟩

end Sys2Proof.Machine
end

