-- ==== Sys2Proof/Proofs/WideValues.lean ====
section
/-!
PROOF. The bounds on the wide values of an update (40_arith.md R108). Every product is of a scaled word with a scaled word
or with an error; `PRE` is the sum of four of them, the accumulator of five, and a shift keeps the bound.
-/

namespace Sys2Proof.Machine

theorem abs_word_le (w : Word) : |w.toInt| ≤ 32768 := by
  obtain ⟨hlo, hhi⟩ := word_toInt_range w
  exact abs_le.mpr ⟨hlo, by omega⟩

theorem abs_error_le (s : State) : |s.act.ref.toInt - s.fdbk.toInt| ≤ 65535 := abs_le.mpr (errorNow_range s)

theorem abs_coefficient_mul_error_le (w : Word) {e : Int} (he : |e| ≤ 65535) : |w.toInt * e| ≤ 2147450880 :=
  abs_mul_le (abs_word_le w) he

theorem abs_coefficient_mul_output_le (w u : Word) : |w.toInt * u.toInt| ≤ 1073741824 :=
  abs_mul_le (abs_word_le w) (abs_word_le u)

/-- With the stored errors in range, `PRE` is below `2^33` with room for one more product. -/
theorem abs_pre_le {s : State} (hrange : HistoryRange s) (hpre : PreIsContraction s) :
    |s.hist.pre.toInt| ≤ 6442385408 := by
  obtain ⟨he1, he1', he2, he2'⟩ := hrange
  have hu1 := abs_coefficient_mul_output_le s.act.a1 s.hist.u1
  have hu2 := abs_coefficient_mul_output_le s.act.a2 s.hist.u2
  have hb1 := abs_coefficient_mul_error_le s.act.b1 (abs_le.mpr ⟨he1, he1'⟩)
  have hb2 := abs_coefficient_mul_error_le s.act.b2 (abs_le.mpr ⟨he2, he2'⟩)
  rw [PreIsContraction] at hpre
  rw [abs_le] at hu1 hu2 hb1 hb2 ⊢
  omega

/-- Settles O20: the bounds follow the datapath, from the error through the accumulator and the shift to the gain. -/
theorem wideValuesStayInTheirBounds : Obligations.WideValuesStayInTheirBounds := by
  intro s hrange hpre e0 acc u0w
  have herr : |e0| ≤ 65535 := abs_error_le s
  have hb0 : |s.act.b0.toInt * e0| ≤ 2147450880 := abs_coefficient_mul_error_le s.act.b0 herr
  have hpreBound := abs_pre_le hrange hpre
  have hacc : |acc| ≤ 8589836288 := (abs_add_le _ _).trans (add_le_add hpreBound hb0)
  have hacc33 : |acc| < 2 ^ 33 := hacc.trans_lt (by norm_num)
  have hu0w : |u0w| ≤ 2 ^ 33 := abs_fxShift_le _ _ hacc33.le
  have hgain : |s.act.k.toInt * u0w| ≤ 2 ^ 48 := abs_mul_le (abs_word_le s.act.k) hu0w
  exact ⟨herr, abs_coefficient_mul_output_le _ _, hb0, hpreBound, hacc, hacc33, hu0w, hgain⟩

end Sys2Proof.Machine
end

