-- ==== Sys2Proof/Proofs/Compensator.lean ====
section
/-!
PROOF. The compensator (41_compensator.md). Every value of an `UPDATE` fits the register that takes it, `U1` once it is
saturated, so the output and the history are the integers of R121 to R126. With `PRE` the contraction of the history they
are one step of the textbook recurrence (R120), and the arithmetic unit's operations run in turn compute them (R130).
-/

namespace Sys2Proof.Machine

/-! ## The values of an update -/

theorem exec_update_of_manual {s : State} (hlife : s.life = .running) (horch : s.orch = .idle) :
    exec .update s = .next s.doUpdate :=
  if_pos ((manual_iff s).mpr ⟨hlife, horch⟩)

theorem nextHistory_e1_toInt (s : State) : s.nextHistory.e1.toInt = s.errorNow := ofInt_errorNow_toInt s

theorem nextHistory_u1_toInt (s : State) : s.nextHistory.u1.toInt = fxSatw s.filterOut := toWord_fxSatw_toInt _

/-- R126: the new `PRE` is exact; the contraction reads the history but not its old `PRE`. -/
theorem nextHistory_pre_toInt (s : State) : s.nextHistory.pre.toInt = partialSum s.act s.nextHistory :=
  ofInt_partialSum_toInt _ _

theorem preIsContraction_doUpdate (s : State) : PreIsContraction s.doUpdate := nextHistory_pre_toInt s

/-- Settles O16: in manual mode `UPDATE` is `DoUpdate`, and each of its narrowings is exact but that of `U1`, which
saturates. -/
theorem updateComputesOneRecurrenceStep : Obligations.UpdateComputesOneRecurrenceStep := by
  intro s hlife horch
  refine ⟨toWord s.clampedOut, s.nextHistory, exec_update_of_manual hlife horch, ?_⟩
  rw [← ssHi_eq]
  exact ⟨toWord_clampedOut_toInt s, nextHistory_e1_toInt s, rfl,
    (nextHistory_u1_toInt s).trans (fxSatw_eq_max_min _), rfl, nextHistory_pre_toInt s⟩

/-! ## The textbook recurrence (R120) -/

/-- The textbook outputs for a sequence of samples, from the history a state holds. -/
def State.textbook (s : State) (samples : List Word) : List Int :=
  textbookOutputs s.cfg s.act s.hist.e1.toInt s.hist.e2.toInt s.hist.u1.toInt s.hist.u2.toInt samples

/-- The filter output of the textbook equation: the accumulation of an update starts from the contraction. -/
theorem filterOut_of_preIsContraction {s : State} (hpre : PreIsContraction s) :
    s.filterOut = fxShift s.cfg.rnd
      (s.act.a1.toInt * s.hist.u1.toInt + s.act.a2.toInt * s.hist.u2.toInt + s.act.b0.toInt * s.errorNow
        + s.act.b1.toInt * s.hist.e1.toInt + s.act.b2.toInt * s.hist.e2.toInt) s.cfg.fC := by
  rw [PreIsContraction] at hpre
  rw [State.filterOut, fxMac, hpre, Params.shU]
  congr 1
  ring

/-- R144: without a soft-start the clamp is to the configured bounds. -/
theorem ssHi_of_notStarted {s : State} (hss : s.ss.state = .notStarted) : s.ssHi = s.act.max.toInt := by
  rw [ssHi_eq, if_pos hss]

/-- An update takes one step of the recurrence: its output is the first, and the others follow from its history. -/
theorem textbook_cons {s : State} (hpre : PreIsContraction s) (hss : s.ss.state = .notStarted) (rest : List Word) :
    s.textbook (s.fdbk :: rest) = s.clampedOut :: s.doUpdate.textbook rest := by
  have hfilter := filterOut_of_preIsContraction hpre
  have hhi := ssHi_of_notStarted hss
  have hu1 := (nextHistory_u1_toInt s).trans (fxSatw_eq_max_min _)
  rw [State.textbook, State.textbook, textbookOutputs, doUpdate_hist, nextHistory_e1_toInt, hu1, hfilter,
    State.clampedOut, State.gainOut, hfilter, hhi]
  rfl

/-- Settles O17: the output is the clamp that heads the textbook outputs. -/
theorem updateFollowsTheTextbookEquation : Obligations.UpdateFollowsTheTextbookEquation := by
  intro s t hpre hss h
  obtain ⟨-, rfl⟩ := execUpdate_next h
  have hhead : (s.textbook [s.fdbk]).head? = some s.clampedOut := by rw [textbook_cons hpre hss, List.head?_cons]
  refine ⟨?_, preIsContraction_doUpdate s⟩
  rw [doUpdate_out, toWord_clampedOut_toInt]
  exact hhead

/-! ## The micro-operations (R130) -/

/-- A micro-operation that completes shows on the result port what it put there. -/
theorem aluRun_of_exec {i : Instr} {operands : AluOperands} {s : State} {r : Int}
    (h : exec i { s with alu := { s.alu with operands := operands } } =
      .next (State.setAluResult { s with alu := { s.alu with operands := operands } } r)) :
    aluRun i operands s = some r := by
  rw [aluRun, h]
  rfl

/-- Settles O19: the values of R121 to R124 are by definition the arithmetic unit's functions in turn, and the bound of
the clamp, the output, `U1` and `E1` fit their registers. -/
theorem microOperationsComposeToUpdate : Obligations.MicroOperationsComposeToUpdate := by
  intro s t h
  obtain ⟨-, rfl⟩ := execUpdate_next h
  have hhi : (BitVec.ofInt 16 s.ssHi).toInt = s.ssHi := toWord_toInt _ (ssHi_range s).1 (ssHi_range s).2
  refine ⟨s.errorNow, _, s.filterOut, _, s.gainOut, aluRun_of_exec (exec_fxSub _), aluRun_of_exec (exec_fxMac _),
    aluRun_of_exec (exec_fxShift _), aluRun_of_exec (exec_fxMul _), aluRun_of_exec (exec_fxShift _), ?_, ?_,
    nextHistory_e1_toInt s⟩
  · rw [aluRun_of_exec (exec_fxSat _), hhi, doUpdate_out, toWord_clampedOut_toInt]
    rfl
  · rw [aluRun_of_exec (exec_fxSatw _), doUpdate_hist, nextHistory_u1_toInt]

end Sys2Proof.Machine
end

