-- ==== Sys2Proof/Proofs/ManualRun.lean ====
section
/-!
PROOF. A manual run, frame by frame (41_compensator.md R120, R128, 44_control.md R170): a `WR FDBK` frame stores the
sample, an `UPDATE` frame takes one step of the textbook recurrence, and the period ends in manual mode with `PRE` the
contraction again, from which the next one starts.
-/

namespace Sys2Proof.Machine

/-! ## The two frames of a period -/

/-- R63: a sample extended to the bus is stored as it was. -/
theorem writeReg_fdbk_signExtend (s : State) (fb : Word) :
    s.writeReg .fdbk (fb.signExtend 32) = { s with fdbk := fb } := by
  obtain ⟨hlo, hhi⟩ := word_toInt_range fb
  have hstored : toWord (fxSatw (fb.signExtend 32).toInt) = fb := by
    rw [BitVec.toInt_signExtend_of_le (by decide), fxSatw_of_range _ hlo hhi, toWord_of_toInt]
  simp only [State.writeReg, hstored]

theorem writableAt_fdbk : writableAt 0x03 = some .fdbk := by decide

/-- A state with the sample `fb` stored and the inputs `rest` still waiting. -/
def State.sampled (s : State) (fb : Word) (rest : List Input) : State := { s with inputs := rest, fdbk := fb }

theorem step_storeSample {s : State} {fb : Word} {rest : List Input} (hlife : s.life = .running)
    (h : s.inputs = .frame (frameOf 1 0x03 (fb.signExtend 32)) :: rest) :
    step s = .next (s.sampled fb rest) := by
  have hdecode := (decode_writeFrame 0x03 (fb.signExtend 32)).trans (if_neg (by decide))
  rw [step_of_frame h hdecode, exec_wr_of_writable _ (by simp [hlife]) writableAt_fdbk, writeReg_fdbk_signExtend,
    State.sampled]

theorem step_update {s : State} {rest : List Input} (hlife : s.life = .running) (horch : s.orch = .idle)
    (h : s.inputs = .frame 0x10000000010 :: rest) :
    step s = .next (State.doUpdate { s with inputs := rest }) :=
  (step_of_frame h (decode_commandFrame (code := 0x10) (by decide))).trans (exec_update_of_manual hlife horch)

/-! ## The run -/

theorem run_succ_of_step {M : Host.Core} {s t : M.State} (n : Nat) (h : M.step s = .next t) :
    M.run (n + 1) s = M.run n t := by
  simp only [Host.Core.run, h]

theorem run_period {s : State} {fb : Word} {rest : List Input} (n : Nat) (hlife : s.life = .running)
    (horch : s.orch = .idle) (h : s.inputs = sampleAndUpdate fb ++ rest) :
    Host.Core.run core (n + 2) s = Host.Core.run core n (s.sampled fb rest).doUpdate := by
  have hstore : step s = .next (s.sampled fb (.frame 0x10000000010 :: rest)) := step_storeSample hlife h
  have hupdate : step (s.sampled fb (.frame 0x10000000010 :: rest)) = .next (s.sampled fb rest).doUpdate :=
    step_update (rest := rest) hlife horch rfl
  exact (run_succ_of_step (M := core) _ hstore).trans (run_succ_of_step (M := core) _ hupdate)

theorem doUpdate_threshWrites (s : State) :
    s.doUpdate.threshWrites = s.threshWrites ++ [toWord s.clampedOut] :=
  emit_threshWrite_threshWrites _ _

/-- Settles O59, by induction on the samples: each period writes the head of the textbook outputs and meets the
hypotheses for the rest. -/
theorem manualRunFollowsTheTextbookRecurrence : Obligations.ManualRunFollowsTheTextbookRecurrence := by
  intro s samples waiting hlife horch hss hpre hinputs
  induction samples generalizing s with
  | nil => exact ⟨s, rfl, hinputs, (List.append_nil _).symm⟩
  | cons fb samples ih =>
    rw [List.flatMap_cons, List.append_assoc] at hinputs
    let u : State := s.sampled fb (samples.flatMap sampleAndUpdate ++ waiting)
    obtain ⟨t, hrun, hwaiting, hwrites⟩ := ih u.doUpdate hlife horch hss (preIsContraction_doUpdate u) rfl
    have htextbook : s.textbook (fb :: samples) = u.clampedOut :: u.doUpdate.textbook samples :=
      textbook_cons (s := u) hpre hss samples
    refine ⟨t, (run_period _ hlife horch hinputs).trans hrun, hwaiting, ?_⟩
    show _ = _ ++ (s.textbook (fb :: samples)).map _
    rw [htextbook, List.map_cons, hwrites, doUpdate_threshWrites, List.append_assoc]
    rfl

end Sys2Proof.Machine
end

