-- ==== Sys2Proof/Proofs/SoftStartArming.lean ====
section
/-!
PROOF. Arming the soft-start (42_softstart.md R142, R146) and what the compensator sees of it (R144, R145): the two raises
of `SS_ARM`, the ramp it starts or settles at once, and the range of the limit in every state that meets the soft-start
invariant.
-/

namespace Sys2Proof.Machine

/-! ## The invariant in each soft-start state (R47) -/

section Invariant

variable {s : State}

/-- A ramp under way: the increment is the quotient of R142, and the accumulator stands where `SS_COUNT` steps took it. -/
theorem softStartOk_of_ramping (h : SoftStartOk s) (hstate : s.ss.state = .ramping) :
    1 ≤ s.ss.n.toNat ∧ s.ss.count.toNat < s.ss.n.toNat ∧ s.ss.dir ≠ .unset ∧ s.ss.target.toInt = s.latchedTarget ∧
      ssVal s.cfg s.ss.delta = s.maxScaled.tdiv s.ss.n.toNat ∧ ssVal s.cfg s.ss.acc = s.rampAt s.ss.count.toNat := by
  unfold SoftStartOk at h
  rwa [hstate] at h

theorem softStartOk_of_settled (h : SoftStartOk s) (hstate : s.ss.state = .settled) :
    s.ss.dir ≠ .unset ∧ s.ss.target.toInt = s.latchedTarget ∧
      ssVal s.cfg s.ss.acc = s.ss.target.toInt * 2 ^ s.cfg.ssFrac.val := by
  unfold SoftStartOk at h
  rwa [hstate] at h

theorem ssVal_acc_of_notStarted (h : SoftStartOk s) (hstate : s.ss.state = .notStarted) : ssVal s.cfg s.ss.acc = 0 := by
  unfold SoftStartOk at h
  rw [hstate] at h
  simp [h, SoftStart.zero, ssVal]

theorem ssVal_acc_of_settled (h : SoftStartOk s) (hstate : s.ss.state = .settled) :
    ssVal s.cfg s.ss.acc = s.latchedTarget * 2 ^ s.cfg.ssFrac.val := by
  obtain ⟨-, htarget, hacc⟩ := softStartOk_of_settled h hstate
  rw [hacc, htarget]

/-- R144: the limit of a settled soft-start is the target of its direction. -/
theorem ssLimit_of_settled (h : SoftStartOk s) (hstate : s.ss.state = .settled) : s.ssLimit = s.latchedTarget := by
  rw [State.ssLimit, ssVal_acc_of_settled h hstate]
  exact Int.mul_ediv_cancel _ (two_pow_ssFrac_pos s.cfg).ne'

/-- The target of either direction in the accumulator's scale: `MAX` or 0. -/
theorem latchedTarget_scaled (s : State) :
    s.latchedTarget * 2 ^ s.cfg.ssFrac.val = if s.ss.dir = .up then s.maxScaled else 0 := by
  rw [State.latchedTarget, State.maxScaled]
  split
  · rfl
  · exact zero_mul _

/-- R145 (a): the accumulator lies between 0 and `MAX`, on either side of 0. -/
theorem ssVal_acc_between (h : SoftStartOk s) :
    (0 ≤ s.maxScaled → 0 ≤ ssVal s.cfg s.ss.acc ∧ ssVal s.cfg s.ss.acc ≤ s.maxScaled) ∧
      (s.maxScaled ≤ 0 → s.maxScaled ≤ ssVal s.cfg s.ss.acc ∧ ssVal s.cfg s.ss.acc ≤ 0) := by
  cases hstate : s.ss.state with
  | notStarted =>
    rw [ssVal_acc_of_notStarted h hstate]
    omega
  | ramping =>
    obtain ⟨-, hcount, -, -, hdelta, hacc⟩ := softStartOk_of_ramping h hstate
    have hbetween := mul_tdiv_between s.maxScaled hcount.le
    rw [hacc, State.rampAt, hdelta]
    split <;> omega
  | settled =>
    rw [ssVal_acc_of_settled h hstate, latchedTarget_scaled]
    split <;> omega

end Invariant

theorem maxScaled_nonneg_iff (s : State) : 0 ≤ s.maxScaled ↔ 0 ≤ s.act.max.toInt :=
  mul_nonneg_iff_of_pos_right (two_pow_ssFrac_pos s.cfg)

theorem abs_maxScaled (s : State) : |s.maxScaled| = |s.act.max.toInt| * 2 ^ s.cfg.ssFrac.val := by
  rw [State.maxScaled, abs_mul, abs_of_pos (two_pow_ssFrac_pos s.cfg)]

/-- An accumulator from 0 to `MAX` gives a limit from 0 to `MAX`. -/
theorem scaled_ediv_range {p : Params} {x m : Int} (hx : 0 ≤ x) (hm : x ≤ m * 2 ^ p.ssFrac.val) :
    0 ≤ x / 2 ^ p.ssFrac.val ∧ x / 2 ^ p.ssFrac.val ≤ m :=
  ⟨Int.ediv_nonneg hx (two_pow_ssFrac_pos p).le,
    (Int.ediv_le_ediv (two_pow_ssFrac_pos p) hm).trans_eq (Int.mul_ediv_cancel _ (two_pow_ssFrac_pos p).ne')⟩

/-- Settles O28: the accumulator lies between 0 and `MAX` in its scale, and the floor keeps that. -/
theorem softStartStaysWithinMax : Obligations.SoftStartStaysWithinMax := by
  intro s h
  obtain ⟨hnonneg, hnonpos⟩ := ssVal_acc_between h
  refine ⟨?_, fun hmax => ?_⟩
  · rw [← abs_maxScaled]
    obtain hM | hM := le_total 0 s.maxScaled
    · obtain ⟨hlo, hhi⟩ := hnonneg hM
      rwa [abs_of_nonneg hlo, abs_of_nonneg hM]
    · obtain ⟨hlo, hhi⟩ := hnonpos hM
      rw [abs_of_nonpos hhi, abs_of_nonpos hM]
      exact neg_le_neg hlo
  · obtain ⟨hlo, hhi⟩ := hnonneg ((maxScaled_nonneg_iff s).mpr hmax)
    exact ⟨hlo, hhi, scaled_ediv_range hlo hhi⟩

/-- R144: the bound of a settled soft-start. -/
theorem ssHi_of_settled {s : State} (h : SoftStartOk s) (hstate : s.ss.state = .settled) :
    s.ssHi = min s.act.max.toInt s.latchedTarget := by
  rw [← ssLimit_of_settled h hstate, State.ssHi, hstate]

/-- Settles O29: the bound is `MAX` or the minimum of R144 by definition, and a settled limit is its target. -/
theorem upperBoundFollowsTheSoftStart : Obligations.UpperBoundFollowsTheSoftStart := by
  intro s
  refine ⟨ssHi_of_notStarted, fun hstate => ?_, fun h hstate hdir => ?_, fun h hstate hdir => ?_⟩
  · rw [ssHi_eq, if_neg]
    obtain hstate | hstate := hstate <;> simp [hstate]
  · rw [ssHi_of_settled h hstate, State.latchedTarget, if_pos hdir, min_self]
  · rw [ssHi_of_settled h hstate, State.latchedTarget, if_neg (by simp [hdir])]

/-! ## `SS_ARM` (R142) -/

/-- The direction that `C_SS_DIR` names once it has passed its check. -/
def Staging.rampDir (g : Staging) : SsDir := if g.ssDir = 1 then .up else .down

theorem rampDir_eq_up_iff {g : Staging} : g.rampDir = .up ↔ g.ssDir = 1 := by
  simp [Staging.rampDir]

theorem ofStaging_of_defined {g : Staging} (h : g.ssDir = 1 ∨ g.ssDir = 2) :
    SsDir.ofStaging g.ssDir = some g.rampDir := by
  obtain h | h := h <;> rw [Staging.rampDir, h] <;> rfl

theorem ofStaging_of_undefined {v : BusWord} (h1 : v ≠ 1) (h2 : v ≠ 2) : SsDir.ofStaging v = none := by
  rw [SsDir.ofStaging, if_neg h1, if_neg h2]

section Arm

variable {s : State} (hlife : s.life = .initialized ∨ s.life = .running)
include hlife

theorem exec_ssArm_of_undefined (hdir : SsDir.ofStaging s.stg.ssDir = none) :
    exec .ssArm s = .next (s.raiseCfgError 2 0x22) := by
  rw [exec, execSsArm, if_neg (by tauto), hdir]

theorem exec_ssArm_of_defined {dir : SsDir} (hdir : SsDir.ofStaging s.stg.ssDir = some dir) :
    exec .ssArm s =
      if s.stg.ssPeriodT = 0 then .next (s.raiseCfgError 3 0x21) else .next (s.armSoftStart dir) := by
  rw [exec, execSsArm, if_neg (by tauto), hdir]

theorem exec_ssArm_of_armFits (hfits : ArmFits s) : exec .ssArm s = .next (s.armSoftStart s.stg.rampDir) := by
  obtain ⟨hdir, hperiod⟩ := hfits
  rw [exec_ssArm_of_defined hlife (ofStaging_of_defined hdir), if_neg hperiod]

end Arm

/-- Settles O23: the two checks in their order, and the two values of `ERR`. -/
theorem ssArmRaisesOnBadConfiguration : Obligations.SsArmRaisesOnBadConfiguration := by
  refine fun s hlife => ⟨fun h1 h2 => ?_, fun hdir hperiod => ?_⟩
  · rw [exec_ssArm_of_undefined hlife (ofStaging_of_undefined h1 h2)]
    rfl
  · rw [exec_ssArm_of_defined hlife (ofStaging_of_defined hdir), if_pos hperiod]
    rfl

/-! ## The armed soft-start (R142, R146) -/

section Armed

variable (s : State) (dir : SsDir)

/-- Both ways of arming latch the direction, the length and the target, and zero the count. -/
theorem armSoftStart_ss_frame :
    (s.armSoftStart dir).ss = { (s.armSoftStart dir).ss with
      dir := dir, n := udiv s.stg.ssRampT s.stg.ssPeriodT, count := 0, target := s.rampTarget dir } := by
  unfold State.armSoftStart
  dsimp only
  split <;> rfl

@[simp] theorem armSoftStart_dir : (s.armSoftStart dir).ss.dir = dir := by rw [armSoftStart_ss_frame]

@[simp] theorem armSoftStart_count : (s.armSoftStart dir).ss.count = 0 := by rw [armSoftStart_ss_frame]

@[simp] theorem armSoftStart_target : (s.armSoftStart dir).ss.target = s.rampTarget dir := by
  rw [armSoftStart_ss_frame]

@[simp] theorem armSoftStart_n : (s.armSoftStart dir).ss.n = udiv s.stg.ssRampT s.stg.ssPeriodT := by
  rw [armSoftStart_ss_frame]

theorem armSoftStart_n_toNat :
    (s.armSoftStart dir).ss.n.toNat = s.stg.ssRampT.toNat / s.stg.ssPeriodT.toNat := by
  rw [armSoftStart_n, udiv_toNat]

theorem udiv_eq_zero_iff (a b : BusWord) : udiv a b = 0 ↔ a.toNat / b.toNat = 0 := by
  rw [← udiv_toNat]
  exact BitVec.toNat_eq

variable {s dir}

theorem armSoftStart_state_of_pos (h : 1 ≤ s.stg.ssRampT.toNat / s.stg.ssPeriodT.toNat) :
    (s.armSoftStart dir).ss.state = .ramping := by
  rw [State.armSoftStart, if_neg]
  rw [udiv_eq_zero_iff]
  omega

/-- R146: a ramp shorter than one period. -/
theorem armSoftStart_of_zero (h : s.stg.ssRampT.toNat / s.stg.ssPeriodT.toNat = 0) :
    (s.armSoftStart dir).ss.state = .settled ∧ (s.armSoftStart dir).ss.delta = ssCell s.cfg 0 := by
  rw [State.armSoftStart, if_pos ((udiv_eq_zero_iff _ _).mpr h)]
  exact ⟨rfl, rfl⟩

end Armed

theorem rampDir_ne_unset (g : Staging) : g.rampDir ≠ .unset := by
  unfold Staging.rampDir
  split <;> decide

theorem rampTarget_rampDir (s : State) :
    s.rampTarget s.stg.rampDir = if s.stg.ssDir = 1 then s.act.max else 0 := by
  simp only [State.rampTarget, rampDir_eq_up_iff]

/-- Settles O21: the armed ramp meets the soft-start invariant with the count at 0, which says what its cells hold. -/
theorem ssArmStartsTheRamp : Obligations.SsArmStartsTheRamp := by
  intro s hlife hdir hperiod hn
  have hstate : (s.armSoftStart s.stg.rampDir).ss.state = .ramping := armSoftStart_state_of_pos hn
  obtain ⟨-, -, -, -, hdelta, hacc⟩ :=
    softStartOk_of_ramping (softStartOk_armSoftStart s (rampDir_ne_unset s.stg)) hstate
  refine ⟨(s.armSoftStart s.stg.rampDir).ss, ?_, hstate, armSoftStart_dir _ _, armSoftStart_n_toNat _ _,
    armSoftStart_count _ _, (armSoftStart_target _ _).trans (rampTarget_rampDir s), ?_, ?_⟩
  · rw [← armSoftStart_frame]
    exact exec_ssArm_of_armFits hlife ⟨hdir, hperiod⟩
  · simpa [State.maxScaled] using hdelta
  · simpa [State.rampAt, State.maxScaled, rampDir_eq_up_iff] using hacc

theorem exec_ssStep_of_manual {s : State} (h : s.manual = true) : exec .ssStep s = .next s.doSsStep := if_pos h

/-- Settles O22: the invariant of a settled soft-start gives the accumulator and the limit, and no step moves it. -/
theorem shortRampSettlesAtOnce : Obligations.ShortRampSettlesAtOnce := by
  intro s hlife hdir hperiod hn
  obtain ⟨hstate, hdelta⟩ := armSoftStart_of_zero (dir := s.stg.rampDir) hn
  have hok := softStartOk_armSoftStart s (rampDir_ne_unset s.stg)
  obtain ⟨-, htarget, hacc⟩ := softStartOk_of_settled hok hstate
  refine ⟨(s.armSoftStart s.stg.rampDir).ss, ?_, hstate, armSoftStart_dir _ _, ?_, armSoftStart_count _ _,
    (armSoftStart_target _ _).trans (rampTarget_rampDir s), ?_, by rwa [armSoftStart_cfg] at hacc, ?_,
    fun t hss hrun horch => ?_⟩
  · rw [← armSoftStart_frame]
    exact exec_ssArm_of_armFits hlife ⟨hdir, hperiod⟩
  · rw [armSoftStart_n, udiv_eq_zero_iff, hn]
  · rw [hdelta, ssVal_ssCell_of_fits (fitsCell_zero _)]
  · rw [← armSoftStart_frame, htarget]
    exact ssLimit_of_settled hok hstate
  · rw [exec_ssStep_of_manual ((manual_iff t).mpr ⟨hrun, horch⟩), doSsStep_of_not_ramping]
    rw [hss, hstate]
    decide

end Sys2Proof.Machine
end

