-- ==== Sys2Proof/Proofs/SoftStartRamp.lean ====
section
/-!
PROOF. A soft-start ramp from arming to its end (42_softstart.md R143, R145, R147, R148). What one step does to a ramp under
way; where a ramp stands `j` steps after it was armed, whatever stepped it; and how its limit moves.
-/

namespace Sys2Proof.Machine

/-! ## One step (R143) -/

section Step

variable {s : State}

/-- The cell holds where the ramp stands after one step more. -/
theorem ssVal_nextCell (h : SoftStartOk s) (hstate : s.ss.state = .ramping) :
    ssVal s.cfg (ssCell s.cfg (s.rampAt (s.ss.count.toNat + 1))) = s.rampAt (s.ss.count.toNat + 1) := by
  obtain ⟨-, hcount, -, -, hdelta, -⟩ := softStartOk_of_ramping h hstate
  exact ssVal_ssCell_of_fits (fitsCell_rampAt hcount hdelta)

theorem ssAdvance_of_ramping (h : SoftStartOk s) (hstate : s.ss.state = .ramping) :
    s.ssAdvance = { s with ss := { s.ss with
      acc := ssCell s.cfg (s.rampAt (s.ss.count.toNat + 1)), count := s.ss.count + 1 } } := by
  obtain ⟨-, hcount, -, -, -, hacc⟩ := softStartOk_of_ramping h hstate
  rw [State.ssAdvance, if_pos (BitVec.lt_def.mpr hcount), rampAt_succ, hacc]

theorem count_succ_toNat (h : SoftStartOk s) (hstate : s.ss.state = .ramping) :
    (s.ss.count + 1).toNat = s.ss.count.toNat + 1 := by
  obtain ⟨-, hcount, -⟩ := softStartOk_of_ramping h hstate
  exact succ_toNat_of_lt hcount

theorem doSsStep_before_last (h : SoftStartOk s) (hstate : s.ss.state = .ramping)
    (hcount : s.ss.count.toNat + 1 < s.ss.n.toNat) :
    s.doSsStep = { s with ss := { s.ss with
      acc := ssCell s.cfg (s.rampAt (s.ss.count.toNat + 1)), count := s.ss.count + 1 } } := by
  rw [doSsStep_of_ramping hstate, ssAdvance_of_ramping h hstate, ssSettle_of_ne]
  intro heq
  rw [← count_succ_toNat h hstate] at hcount
  exact hcount.ne (congrArg BitVec.toNat heq)

theorem doSsStep_last (h : SoftStartOk s) (hstate : s.ss.state = .ramping)
    (hcount : s.ss.count.toNat + 1 = s.ss.n.toNat) :
    s.doSsStep = { s with ss := { s.ss with
      acc := ssCell s.cfg (ssScale s.cfg s.ss.target.toInt), count := s.ss.n, state := .settled } } := by
  have hlast : s.ss.count + 1 = s.ss.n := BitVec.eq_of_toNat_eq ((count_succ_toNat h hstate).trans hcount)
  rw [doSsStep_of_ramping hstate, ssAdvance_of_ramping h hstate, State.ssSettle, if_pos hlast]
  simp only [hlast]

end Step

/-- Settles O24: before the last step, at it, and outside a ramp; the invariant keeps the moved accumulator in its cell. -/
theorem ssStepAdvancesOrSettles : Obligations.SsStepAdvancesOrSettles := by
  intro s hlife horch h
  rw [exec_ssStep_of_manual ((manual_iff s).mpr ⟨hlife, horch⟩)]
  refine ⟨fun hstate hcount => ?_, fun hstate hcount => ?_, fun hstate => by rw [doSsStep_of_not_ramping hstate]⟩
  · obtain ⟨-, -, -, -, -, hacc⟩ := softStartOk_of_ramping h hstate
    refine ⟨_, _, by rw [doSsStep_before_last h hstate hcount], count_succ_toNat h hstate, ?_⟩
    rw [ssVal_nextCell h hstate, rampAt_succ, hacc]
  · exact ⟨ssCell s.cfg (ssScale s.cfg s.ss.target.toInt), by rw [doSsStep_last h hstate hcount],
      ssVal_ssCell_of_fits (fitsCell_ssScale s.cfg _)⟩

theorem ssAdvance_ss_frame (s : State) :
    s.ssAdvance.ss = { s.ss with count := s.ssAdvance.ss.count, acc := s.ssAdvance.ss.acc } := by
  unfold State.ssAdvance
  split <;> rfl

theorem ssSettle_ss_frame (s : State) :
    s.ssSettle.ss = { s.ss with state := s.ssSettle.ss.state, acc := s.ssSettle.ss.acc } := by
  unfold State.ssSettle
  split <;> rfl

/-- No step, in a ramp or outside one, changes what arming latched. -/
theorem doSsStep_ss_frame (s : State) :
    s.doSsStep.ss = { s.ss with
      state := s.doSsStep.ss.state, count := s.doSsStep.ss.count, acc := s.doSsStep.ss.acc } := by
  by_cases hstate : s.ss.state = .ramping
  · rw [doSsStep_of_ramping hstate, ssSettle_ss_frame, ssAdvance_ss_frame]
  · rw [doSsStep_of_not_ramping hstate]

@[simp] theorem doSsStep_dir (s : State) : s.doSsStep.ss.dir = s.ss.dir := by rw [doSsStep_ss_frame]

@[simp] theorem doSsStep_n (s : State) : s.doSsStep.ss.n = s.ss.n := by rw [doSsStep_ss_frame]

@[simp] theorem doSsStep_delta (s : State) : s.doSsStep.ss.delta = s.ss.delta := by rw [doSsStep_ss_frame]

/-! ## A ramp after `j` steps (R145 (c), R148) -/

/-- `s` has the ramp that was armed in `t`, `j` steps later: under way with the count at `j` before step `N`, settled from
then on. -/
structure RampStepped (t : State) (j : Nat) (s : State) : Prop where
  cfg : s.cfg = t.cfg
  act : s.act = t.act
  dir : s.ss.dir = t.ss.dir
  n : s.ss.n = t.ss.n
  delta : s.ss.delta = t.ss.delta
  ok : SoftStartOk s
  phase : (j < t.ss.n.toNat ∧ s.ss.state = .ramping ∧ s.ss.count.toNat = j) ∨
    (t.ss.n.toNat ≤ j ∧ s.ss.state = .settled)

theorem RampStepped.ramping {t s : State} {j : Nat} (h : RampStepped t j s) (hj : j < t.ss.n.toNat) :
    s.ss.state = .ramping ∧ s.ss.count.toNat = j := by
  obtain ⟨-, hphase⟩ | ⟨hn, -⟩ := h.phase
  · exact hphase
  · omega

theorem RampStepped.settled {t s : State} {j : Nat} (h : RampStepped t j s) (hj : t.ss.n.toNat ≤ j) :
    s.ss.state = .settled := by
  obtain ⟨hn, -⟩ | ⟨-, hsettled⟩ := h.phase
  · omega
  · exact hsettled

/-- The ramp is a matter of the parameters, the active configuration and the soft-start, nothing else. -/
theorem RampStepped.congr {t s w : State} {j : Nat} (h : RampStepped t j s) (hcfg : w.cfg = s.cfg)
    (hact : w.act = s.act) (hss : w.ss = s.ss) : RampStepped t j w where
  cfg := hcfg.trans h.cfg
  act := hact.trans h.act
  dir := hss ▸ h.dir
  n := hss ▸ h.n
  delta := hss ▸ h.delta
  ok := softStartOk_congr hcfg hact hss h.ok
  phase := hss ▸ h.phase

/-- One step later. -/
theorem RampStepped.doSsStep {t s : State} {j : Nat} (h : RampStepped t j s) : RampStepped t (j + 1) s.doSsStep where
  cfg := by rw [doSsStep_cfg, h.cfg]
  act := by rw [doSsStep_act, h.act]
  dir := by rw [doSsStep_dir, h.dir]
  n := by rw [doSsStep_n, h.n]
  delta := by rw [doSsStep_delta, h.delta]
  ok := softStartOk_doSsStep h.ok
  phase := by
    obtain ⟨hj, hstate, hcount⟩ | ⟨hn, hstate⟩ := h.phase
    · rw [← h.n, ← hcount] at hj ⊢
      obtain hlt | hlast := Nat.lt_or_eq_of_le (Nat.succ_le_of_lt hj)
      · left
        rw [doSsStep_before_last h.ok hstate hlt]
        exact ⟨hlt, hstate, count_succ_toNat h.ok hstate⟩
      · right
        rw [doSsStep_last h.ok hstate hlast]
        exact ⟨hlast.ge, rfl⟩
    · right
      rw [doSsStep_of_not_ramping (by simp [hstate])]
      exact ⟨by omega, hstate⟩

theorem RampStepped.iterate {t s : State} (h : RampStepped t 0 s) (k : Nat) :
    RampStepped t k (State.doSsStep^[k] s) := by
  induction k with
  | zero => exact h
  | succ k ih =>
    rw [Function.iterate_succ_apply']
    exact ih.doSsStep

/-- Arming that did not settle at once leaves a ramp before its first step. -/
theorem rampStepped_armSoftStart {s : State} {dir : SsDir} (hdir : dir ≠ .unset)
    (hstate : (s.armSoftStart dir).ss.state = .ramping) : RampStepped (s.armSoftStart dir) 0 (s.armSoftStart dir) := by
  have hok := softStartOk_armSoftStart s hdir
  obtain ⟨hn, -⟩ := softStartOk_of_ramping hok hstate
  exact ⟨rfl, rfl, rfl, rfl, rfl, hok, .inl ⟨hn, hstate, by simp⟩⟩

theorem RampStepped.ssLimit_of_settled {t s : State} {j : Nat} (h : RampStepped t j s) (hj : t.ss.n.toNat ≤ j) :
    s.ssLimit = t.latchedTarget := by
  rw [Machine.ssLimit_of_settled h.ok (h.settled hj), State.latchedTarget, State.latchedTarget, h.dir, h.act]

/-! ## Who steps it (R143, R148, 44_control.md R176) -/

theorem execAll_cons_of_next {i : Instr} {is : List Instr} {s t : State} (h : exec i s = .next t) :
    execAll (i :: is) s = execAll is t := by
  rw [execAll, h]

@[simp] theorem doSsStep_manual (s : State) : s.doSsStep.manual = s.manual := by
  simp [State.manual]

theorem iterate_doSsStep_manual (s : State) (k : Nat) : (State.doSsStep^[k] s).manual = s.manual := by
  induction k with
  | zero => rfl
  | succ k ih => rw [Function.iterate_succ_apply', doSsStep_manual, ih]

/-- In manual mode: `SS_STEP`. -/
theorem execAll_replicate_ssStep {s : State} (h : s.manual = true) (k : Nat) :
    execAll (List.replicate k .ssStep) s = .next (State.doSsStep^[k] s) := by
  induction k generalizing s with
  | zero => rfl
  | succ k ih =>
    rw [List.replicate_succ, execAll_cons_of_next (exec_ssStep_of_manual h), ih (by rwa [doSsStep_manual]),
      Function.iterate_succ_apply]

theorem RampStepped.of_execAll {t s u : State} {k : Nat} (h : RampStepped t 0 s) (hmanual : s.manual = true)
    (hrun : execAll (List.replicate k .ssStep) s = .next u) : RampStepped t k u := by
  rw [execAll_replicate_ssStep hmanual] at hrun
  cases hrun
  exact h.iterate k

/-- A state whose sampler was triggered for a period. -/
def State.triggered (s : State) : State := State.emit { s with orch := .sampleInFlight } .sampleTrigger

theorem exec_evPeriod_of_armed {s : State} (hlife : s.life = .running) (horch : s.orch = .armed) :
    exec .evPeriod s = .next s.triggered := by
  simp [exec, execEvPeriod, eventGate, State.orchestrated, State.triggered, hlife, horch]

theorem exec_evSample_of_sampleInFlight {s : State} (imm : Word) (hlife : s.life = .running)
    (horch : s.orch = .sampleInFlight) : exec (.evSample imm) s = .next (s.sampleHandler imm) := by
  simp [exec, execEvSample, eventGate, State.orchestrated, hlife, horch]

theorem execAll_period {s : State} (imm : Word) (is : List Instr) (hlife : s.life = .running)
    (horch : s.orch = .armed) :
    execAll (.evPeriod :: .evSample imm :: is) s = execAll is (s.triggered.sampleHandler imm) := by
  rw [execAll_cons_of_next (exec_evPeriod_of_armed hlife horch),
    execAll_cons_of_next (exec_evSample_of_sampleInFlight (s := s.triggered) imm hlife rfl)]

/-- The sample handler is one soft-start step for the ramp: its update and its writes of `ORCH` and `FDBK` leave it. -/
theorem RampStepped.period {t s : State} {j : Nat} (h : RampStepped t j s) (imm : Word) :
    RampStepped t (j + 1) (s.triggered.sampleHandler imm) := by
  have hupdate : RampStepped t j (State.doUpdate { s.triggered with orch := .computeAndActuate, fdbk := imm }) :=
    h.congr rfl rfl rfl
  exact hupdate.doSsStep.congr rfl rfl rfl

/-- In orchestrated mode: each period's sample. -/
theorem RampStepped.periods {t s : State} {j : Nat} (h : RampStepped t j s) (hlife : s.life = .running)
    (horch : s.orch = .armed) (samples : List Word) :
    ∃ u, execAll (samples.flatMap (fun x => [.evPeriod, .evSample x])) s = .next u ∧
      RampStepped t (j + samples.length) u := by
  induction samples generalizing s j with
  | nil => exact ⟨s, rfl, h⟩
  | cons x samples ih =>
    obtain ⟨u, hrun, hu⟩ := ih (h.period x) (by simp [State.sampleHandler, State.triggered, hlife]) rfl
    refine ⟨u, (execAll_period x _ hlife horch).trans hrun, ?_⟩
    rwa [List.length_cons, ← Nat.add_assoc, Nat.add_right_comm]

/-- Settles O25: the armed ramp is stepped by `SS_STEP` or by the samples of the periods, and a settled one by neither. -/
theorem rampReachesItsTargetInExactlyN : Obligations.RampReachesItsTargetInExactlyN := by
  intro s hlife hdir hperiod hn
  have harmed := rampStepped_armSoftStart (rampDir_ne_unset s.stg) (armSoftStart_state_of_pos hn)
  have hlimit : (s.armSoftStart s.stg.rampDir).latchedTarget = if s.stg.ssDir = 1 then s.act.max.toInt else 0 := by
    simp only [State.latchedTarget, armSoftStart_dir, armSoftStart_act, rampDir_eq_up_iff]
  dsimp only
  rw [← hlimit, ← armSoftStart_n_toNat s s.stg.rampDir]
  refine ⟨_, exec_ssArm_of_armFits hlife ⟨hdir, hperiod⟩, fun w hcfg hact hss hrun => ?_⟩
  have hw := harmed.congr hcfg hact hss
  refine ⟨fun horch => ⟨fun k hk => ?_, ?_⟩, fun horch samples => ?_⟩
  · exact ⟨_, execAll_replicate_ssStep ((manual_iff w).mpr ⟨hrun, horch⟩) k, (hw.iterate k).ramping hk⟩
  · have hmanual := (manual_iff w).mpr ⟨hrun, horch⟩
    have hu := hw.iterate (s.armSoftStart s.stg.rampDir).ss.n.toNat
    have hsettled := hu.settled le_rfl
    refine ⟨_, execAll_replicate_ssStep hmanual _, hsettled, hu.ssLimit_of_settled le_rfl, fun k => ?_⟩
    rw [execAll_replicate_ssStep (by rwa [iterate_doSsStep_manual]),
      Function.iterate_fixed (doSsStep_of_not_ramping (ne_of_eq_of_ne hsettled (by decide)))]
  · obtain ⟨u, hexec, hu⟩ := hw.periods hrun horch samples
    rw [Nat.zero_add] at hu
    exact ⟨u, hexec, hu.ramping, fun hle => ⟨hu.settled hle, hu.ssLimit_of_settled hle⟩⟩

/-! ## How the limit moves (R145 (b), R147) -/

theorem mul_tdiv_lt {M : Int} (hM : 0 < M) {j n : Nat} (hj : j < n) : j * M.tdiv n < M := by
  have hq : 0 ≤ M.tdiv n := Int.tdiv_nonneg hM.le (Int.natCast_nonneg n)
  obtain ⟨hbetween, -⟩ := mul_tdiv_between M (Nat.succ_le_of_lt hj)
  obtain ⟨-, hle⟩ := hbetween hM.le
  push_cast [add_mul] at hle
  obtain hzero | hpos := hq.eq_or_lt
  · rw [← hzero, mul_zero]
    exact hM
  · omega

/-- How far a ramp has come from its start after `j` steps, in the accumulator's scale. -/
def State.rampProgress (t : State) (j : Nat) : Int :=
  if j < t.ss.n.toNat then j * ssVal t.cfg t.ss.delta else t.maxScaled

/-- R145, R147: the accumulator after `j` steps, up from 0 or down from `MAX`. -/
theorem RampStepped.ssVal_acc {t s : State} {j : Nat} (h : RampStepped t j s) :
    ssVal s.cfg s.ss.acc = if t.ss.dir = .up then t.rampProgress j else t.maxScaled - t.rampProgress j := by
  have hM : s.maxScaled = t.maxScaled := by rw [State.maxScaled, State.maxScaled, h.cfg, h.act]
  obtain ⟨hj, hstate, hcount⟩ | ⟨hn, hstate⟩ := h.phase
  · obtain ⟨-, -, -, -, -, hacc⟩ := softStartOk_of_ramping h.ok hstate
    rw [hacc, State.rampAt, State.rampProgress, if_pos hj, hcount, hM, h.dir, h.delta, h.cfg]
  · rw [ssVal_acc_of_settled h.ok hstate, latchedTarget_scaled, State.rampProgress, if_neg hn.not_gt, hM, h.dir,
      sub_self]

section Progress

variable {t : State} (hdelta : ssVal t.cfg t.ss.delta = t.maxScaled.tdiv t.ss.n.toNat) (hM : 0 ≤ t.maxScaled)
include hdelta hM

theorem rampProgress_range (j : Nat) : 0 ≤ t.rampProgress j ∧ t.rampProgress j ≤ t.maxScaled := by
  rw [State.rampProgress, hdelta]
  split
  case isTrue hj =>
    obtain ⟨hbetween, -⟩ := mul_tdiv_between t.maxScaled hj.le
    exact hbetween hM
  case isFalse => exact ⟨hM, le_rfl⟩

theorem rampProgress_mono {j k : Nat} (hjk : j ≤ k) : t.rampProgress j ≤ t.rampProgress k := by
  by_cases hk : k < t.ss.n.toNat
  · rw [State.rampProgress, State.rampProgress, if_pos hk, if_pos (by omega), hdelta]
    have hq : 0 ≤ t.maxScaled.tdiv t.ss.n.toNat := Int.tdiv_nonneg hM (Int.natCast_nonneg _)
    exact mul_le_mul_of_nonneg_right (by exact_mod_cast hjk) hq
  · rw [State.rampProgress.eq_def t k, if_neg hk]
    exact (rampProgress_range hdelta hM j).2

end Progress

theorem rampProgress_lt {t : State} (hdelta : ssVal t.cfg t.ss.delta = t.maxScaled.tdiv t.ss.n.toNat)
    (hM : 0 < t.maxScaled) {j : Nat} (hj : j < t.ss.n.toNat) : t.rampProgress j < t.maxScaled := by
  rw [State.rampProgress, if_pos hj, hdelta]
  exact mul_tdiv_lt hM hj

/-- R145 (b), R147: the limit after `j` steps. -/
theorem RampStepped.ssLimit {t s : State} {j : Nat} (h : RampStepped t j s) :
    s.ssLimit =
      (if t.ss.dir = .up then t.rampProgress j else t.maxScaled - t.rampProgress j) / 2 ^ t.cfg.ssFrac.val := by
  rw [State.ssLimit, h.ssVal_acc, h.cfg]

/-- An `SS_ARM` that left a ramp under way in manual mode: its direction is the one `C_SS_DIR` names. -/
theorem exec_ssArm_ramping {s t : State} (h : exec .ssArm s = .next t) (horch : s.orch = .idle)
    (hrun : t.life = .running) (hstate : t.ss.state = .ramping) :
    RampStepped t 0 t ∧ t.manual = true ∧ t.act = s.act ∧ SsDir.ofStaging s.stg.ssDir = some t.ss.dir := by
  obtain ⟨-, ⟨-, rfl⟩ | ⟨dir, hdir, ⟨-, rfl⟩ | ⟨-, rfl⟩⟩⟩ := execSsArm_next h
  · simp at hrun
  · simp at hrun
  · exact ⟨rampStepped_armSoftStart (ofStaging_ne_unset hdir) hstate,
      (manual_iff _).mpr ⟨hrun, by rwa [armSoftStart_orch]⟩, armSoftStart_act _ _, by rwa [armSoftStart_dir]⟩

/-- Settles O26: the limit is the floor of the progress, which rises and stays below `MAX` before the last step. -/
theorem rampUpRisesBelowMax : Obligations.RampUpRisesBelowMax := by
  intro s t v j _ horch hdir hmax harm hrun hstate hj hv
  obtain ⟨hramp, hmanual, hact, hlatched⟩ := exec_ssArm_ramping harm horch hrun hstate
  have hup : t.ss.dir = .up := by
    rw [hdir] at hlatched
    exact (Option.some.inj hlatched).symm
  have hlimit : ∀ {k u}, execAll (List.replicate k .ssStep) t = .next u →
      u.ssLimit = t.rampProgress k / 2 ^ t.cfg.ssFrac.val := fun hu => by
    rw [(hramp.of_execAll hmanual hu).ssLimit, if_pos hup]
  obtain ⟨-, -, -, -, hdelta, -⟩ := softStartOk_of_ramping hramp.ok hstate
  have hp := two_pow_ssFrac_pos t.cfg
  have hM : 0 < t.maxScaled := mul_pos (hact ▸ hmax) hp
  refine ⟨?_, ?_, ?_, fun k w hjk _ hw => ?_⟩
  · rw [hlimit hv, State.rampProgress, if_pos hj]
  · rw [hlimit hv]
    exact Int.ediv_nonneg (rampProgress_range hdelta hM.le j).1 hp.le
  · rw [hlimit hv, ← hact]
    exact Int.ediv_lt_of_lt_mul hp (rampProgress_lt hdelta hM hj)
  · rw [hlimit hv, hlimit hw]
    exact Int.ediv_le_ediv hp (rampProgress_mono hdelta hM.le hjk)

/-- Settles O27: the limit is the floor of what the progress leaves of `MAX`, and the settled one is the target 0. -/
theorem rampDownFallsToZero : Obligations.RampDownFallsToZero := by
  intro s t v j _ horch hdir hmax harm hrun hstate hj hv
  obtain ⟨hramp, hmanual, hact, hlatched⟩ := exec_ssArm_ramping harm horch hrun hstate
  have hdown : t.ss.dir ≠ .up := by
    rw [hdir] at hlatched
    rw [← Option.some.inj hlatched]
    decide
  have hlimit : ∀ {k u}, execAll (List.replicate k .ssStep) t = .next u →
      u.ssLimit = (t.maxScaled - t.rampProgress k) / 2 ^ t.cfg.ssFrac.val := fun hu => by
    rw [(hramp.of_execAll hmanual hu).ssLimit, if_neg hdown]
  obtain ⟨-, -, -, -, hdelta, -⟩ := softStartOk_of_ramping hramp.ok hstate
  have hp := two_pow_ssFrac_pos t.cfg
  have hM : 0 ≤ t.maxScaled := (maxScaled_nonneg_iff t).mpr (hact ▸ hmax)
  obtain ⟨hlo, hhi⟩ := rampProgress_range hdelta hM j
  have hrange : 0 ≤ v.ssLimit ∧ v.ssLimit ≤ t.act.max.toInt := by
    rw [hlimit hv]
    exact scaled_ediv_range (sub_nonneg.mpr hhi) (sub_le_self _ hlo)
  rw [hact] at hrange
  refine ⟨?_, hrange.1, hrange.2, fun k w hjk _ hw => ?_, _, execAll_replicate_ssStep hmanual _, ?_⟩
  · rw [hlimit hv, State.rampProgress, if_pos hj, State.maxScaled, hact]
  · rw [hlimit hv, hlimit hw]
    exact Int.ediv_le_ediv hp (sub_le_sub_left (rampProgress_mono hdelta hM hjk) _)
  · have hu := hramp.iterate t.ss.n.toNat
    refine ⟨hu.settled le_rfl, (hu.ssLimit_of_settled le_rfl).trans ?_⟩
    rw [State.latchedTarget, if_neg hdown]

end Sys2Proof.Machine
end

