-- ==== Sys2Proof/Proofs/SlopeRamp.lean ====
section
/-!
PROOF. The slope ramp (43_slope.md). `SL_CFG` checks and latches (R156). The ramp's loop, which saturates at every turn,
writes the line through `SL_CUR` saturated once (R157, R159), so its end is a closed form of the slope registers it
started from: the sequences of R157 and R158 are read off it, and the soft-start step, which neither reads nor writes what
it changes, commutes with it (R161).
-/

namespace Sys2Proof.Machine

/-! ## The configuration (R156) -/

section Configure

variable {s : State} (hlife : s.life = .uninit ∨ s.life = .initialized)
include hlife

theorem exec_slCfg_of_not_fits (hdelta : ¬ Fits s.stg.slDelta) :
    exec .slCfg s = .next (s.raiseCfgError 4 0x28) := by
  rw [exec, execSlCfg, if_neg (by tauto), if_pos (fitsWord_eq_false_iff.mpr hdelta)]

theorem exec_slCfg_of_fits (hdelta : Fits s.stg.slDelta) :
    exec .slCfg s =
      if 65535 < s.stg.slSteps.toNat then .next (s.raiseCfgError 4 0x29)
      else .next { s with sl := { s.sl with
        delta := toWord s.stg.slDelta.toInt, steps := s.stg.slSteps.setWidth 16, cfgd := true } } := by
  rw [exec, execSlCfg, if_neg (by tauto), if_neg (mt fitsWord_eq_false_iff.mp (not_not.mpr hdelta))]

end Configure

/-- Settles O30: both values fit the registers that take them. -/
theorem slCfgLatchesTheSlope : Obligations.SlCfgLatchesTheSlope := by
  intro s hlife hdelta hsteps
  refine ⟨_, _, (exec_slCfg_of_fits hlife hdelta).trans (if_neg (not_lt.mpr hsteps)),
    toWord_toInt _ hdelta.1 hdelta.2, ?_⟩
  rw [BitVec.toNat_setWidth, Nat.mod_eq_of_lt (by omega)]

/-- Settles O31: the two checks in their order, and the two values of `ERR`. -/
theorem slCfgRaisesOnBadConfiguration : Obligations.SlCfgRaisesOnBadConfiguration :=
  fun _ hlife => ⟨exec_slCfg_of_not_fits hlife,
    fun hdelta hsteps => (exec_slCfg_of_fits hlife hdelta).trans (if_pos hsteps)⟩

/-! ## The line (R157, R159) -/

/-- The point `i` of the line from `SL_CUR` with slope `SL_DELTA`, saturated once. -/
def Slope.value (sl : Slope) (i : Nat) : Word := toWord (fxSatw (sl.cur.toInt + i * sl.delta.toInt))

/-- The first `n` points after `SL_CUR`. -/
def Slope.values (sl : Slope) (n : Nat) : List Word := (List.range n).map (fun i => sl.value (i + 1))

theorem Slope.value_toInt (sl : Slope) (i : Nat) :
    (sl.value i).toInt = max (-32768) (min (sl.cur.toInt + i * sl.delta.toInt) 32767) := by
  rw [Slope.value, toWord_fxSatw_toInt, fxSatw_eq_max_min]

@[simp] theorem Slope.values_length (sl : Slope) (n : Nat) : (sl.values n).length = n := by
  simp [Slope.values]

theorem Slope.value_zero (sl : Slope) : sl.value 0 = sl.cur := by
  obtain ⟨hlo, hhi⟩ := word_toInt_range sl.cur
  simp [Slope.value, fxSatw_of_range _ hlo hhi]

/-- Saturating after one step and again after `i` more is saturating once: a value cut off at a bound goes on toward
that bound. -/
theorem fxSatw_fxSatw_add {c : Int} (d : Int) (i : Nat) (hlo : -32768 ≤ c) (hhi : c ≤ 32767) :
    fxSatw (fxSatw (c + d) + i * d) = fxSatw (c + (i + 1) * d) := by
  have hnext : (i + 1) * d = i * d + d := add_one_mul _ _
  rw [hnext, fxSatw, fxSatw, fxSatw, fxSat, fxSat, fxSat]
  obtain hd | hd := le_total 0 d
  · have hrest : 0 ≤ i * d := mul_nonneg (Int.natCast_nonneg i) hd
    omega
  · have hrest : i * d ≤ 0 := mul_nonpos_of_nonneg_of_nonpos (Int.natCast_nonneg i) hd
    omega

/-- The line goes on from its first point. -/
theorem Slope.value_from_first (sl : Slope) (i : Nat) :
    Slope.value { sl with cur := sl.value 1 } i = sl.value (i + 1) := by
  obtain ⟨hlo, hhi⟩ := word_toInt_range sl.cur
  have hfirst : (sl.value 1).toInt = fxSatw (sl.cur.toInt + sl.delta.toInt) := by
    rw [Slope.value, toWord_fxSatw_toInt, Nat.cast_one, one_mul]
  show toWord (fxSatw ((sl.value 1).toInt + i * sl.delta.toInt)) = _
  rw [hfirst, fxSatw_fxSatw_add _ _ hlo hhi, Slope.value, Nat.cast_succ]

theorem Slope.values_succ (sl : Slope) (n : Nat) :
    sl.values (n + 1) = sl.value 1 :: Slope.values { sl with cur := sl.value 1 } n := by
  simp [Slope.values, List.range_succ_eq_map, Slope.value_from_first]

/-! ## The loop and the run (R157) -/

/-- The state after a sequence of threshold writes of the slope generator. -/
def State.afterWrites (s : State) (ws : List Word) : State :=
  { s with
    sl := { s.sl with cur := (s.sl.cur :: ws).getLastD 0 }
    thresh := (s.thresh :: ws).getLastD 0
    trace := s.trace ++ ws.map (fun v => .event (.threshWrite v)) }

theorem afterWrites_nil (s : State) : s.afterWrites [] = s := by
  simp [State.afterWrites]

theorem afterWrites_cons (s : State) (v : Word) (ws : List Word) :
    (s.afterWrites [v]).afterWrites ws = s.afterWrites (v :: ws) := by
  simp [State.afterWrites]

theorem slopeStep_eq_afterWrites (s : State) : s.slopeStep = s.afterWrites [s.sl.value 1] := by
  simp [State.slopeStep, State.emit, State.afterWrites, Slope.value, fxAdds]

/-- The loop writes the line. -/
theorem slopeLoop_eq_afterWrites (n : Nat) (s : State) : State.slopeLoop n s = s.afterWrites (s.sl.values n) := by
  induction n generalizing s with
  | zero => exact (afterWrites_nil s).symm
  | succ n ih =>
    rw [State.slopeLoop, ih, slopeStep_eq_afterWrites, afterWrites_cons, Slope.values_succ]
    rfl

/-- The state after a ramp that wrote a sequence: the generator is disarmed as well. -/
def State.ramped (s : State) (ws : List Word) : State :=
  { s.afterWrites ws with sl := { (s.afterWrites ws).sl with armed := false } }

theorem slopeRun_eq_ramped (s : State) : s.slopeRun = s.ramped (s.sl.values s.sl.steps.toNat) := by
  rw [State.slopeRun, slopeLoop_eq_afterWrites]
  rfl

theorem exec_slRun_of_armed {s : State} (hmanual : s.manual = true) (hcfgd : s.sl.cfgd = true)
    (harmed : s.sl.armed = true) : exec .slRun s = .next s.slopeRun := by
  rw [exec, execSlRun, manualGate, if_pos hmanual, State.doSlRun, hcfgd, harmed]
  rfl

/-- Settles O32: the values are the line's. -/
theorem slopeRampWritesALinearSequence : Obligations.SlopeRampWritesALinearSequence := by
  intro s hlife horch hcfgd harmed
  refine ⟨s.sl.values s.sl.steps.toNat, ?_, Slope.values_length _ _, fun i hi => ?_⟩
  · rw [exec_slRun_of_armed ((manual_iff s).mpr ⟨hlife, horch⟩) hcfgd harmed, slopeRun_eq_ramped]
    rfl
  · simp [Slope.values, Slope.value_toInt]

/-! ## An update and its ramp (R158) -/

theorem ramped_threshWrites (s : State) (ws : List Word) : (s.ramped ws).threshWrites = s.threshWrites ++ ws := by
  simp [State.ramped, State.afterWrites, State.threshWrites, State.events, List.filterMap_map, Function.comp_def,
    Output.event?, OutEvent.thresh?]

theorem execAll_pair_of_next {i j : Instr} {s t u : State} (hi : exec i s = .next t) (hj : exec j t = .next u) :
    execAll [i, j] s = .next u := by
  rw [execAll_cons_of_next hi, execAll_cons_of_next hj, execAll]

/-- Element 0 of a period is where its line starts. -/
theorem Slope.cur_cons_values (sl : Slope) (n : Nat) : sl.cur :: sl.values n = (List.range (n + 1)).map sl.value := by
  simp [Slope.values, List.range_succ_eq_map, Slope.value_zero]

/-- Settles O33: the update writes where the ramp's line starts, and the ramp writes the rest of it. -/
theorem periodWritesStepsPlusOneValues : Obligations.PeriodWritesStepsPlusOneValues := by
  intro s hlife horch hcfgd
  let u := s.doUpdate
  let rest := u.sl.values u.sl.steps.toNat
  have hrun : exec .slRun u = .next (u.ramped rest) := by
    rw [exec_slRun_of_armed ((manual_iff u).mpr ⟨hlife, horch⟩) hcfgd rfl, slopeRun_eq_ramped]
  refine ⟨u.ramped rest, u.sl.cur :: rest, execAll_pair_of_next (exec_update_of_manual hlife horch) hrun, ?_,
    congrArg Nat.succ (Slope.values_length _ _), fun i hi => ?_, rfl, rfl, rfl⟩
  · rw [ramped_threshWrites, doUpdate_threshWrites, List.append_assoc]
    rfl
  · simp only [rest, Slope.cur_cons_values, List.getElem_map, List.getElem_range, Slope.value_toInt]
    rfl

/-! ## The soft-start step (R161, 60_exceptions.md R199) -/

section Commute

variable (s : State) (ws : List Word)

theorem ssAdvance_ramped : (s.ramped ws).ssAdvance = s.ssAdvance.ramped ws := by
  unfold State.ssAdvance
  rw [apply_ite (fun t : State => t.ramped ws)]
  rfl

theorem ssSettle_ramped : (s.ramped ws).ssSettle = s.ssSettle.ramped ws := by
  unfold State.ssSettle
  rw [apply_ite (fun t : State => t.ramped ws)]
  rfl

/-- Nothing a ramp writes is read by a soft-start step. -/
theorem doSsStep_ramped : (s.ramped ws).doSsStep = s.doSsStep.ramped ws := by
  by_cases h : s.ss.state = .ramping
  · rw [doSsStep_of_ramping h, doSsStep_of_ramping (s := s.ramped ws) h, ssAdvance_ramped, ssSettle_ramped]
  · rw [doSsStep_of_not_ramping h, doSsStep_of_not_ramping (s := s.ramped ws) h]

end Commute

/-- Nothing a soft-start step writes is read by a ramp, whose line is in the slope registers. -/
theorem slopeRun_doSsStep (s : State) : s.doSsStep.slopeRun = s.slopeRun.doSsStep := by
  rw [slopeRun_eq_ramped, slopeRun_eq_ramped, doSsStep_ramped, doSsStep_sl]

/-- Settles O34: neither operation closes the other's gate, and the two updates commute. -/
theorem rampAndSoftStartStepCommute : Obligations.RampAndSoftStartStepCommute := by
  intro s hlife horch hcfgd harmed
  have hmanual := (manual_iff s).mpr ⟨hlife, horch⟩
  have hafter : exec .ssStep s.slopeRun = .next s.slopeRun.doSsStep :=
    exec_ssStep_of_manual (by simpa [State.manual] using hmanual)
  have hbefore : exec .slRun s.doSsStep = .next s.doSsStep.slopeRun :=
    exec_slRun_of_armed (by simpa using hmanual) (by simpa using hcfgd) (by simpa using harmed)
  rw [slopeRun_doSsStep] at hbefore
  exact ⟨s.slopeRun.doSsStep, execAll_pair_of_next (exec_slRun_of_armed hmanual hcfgd harmed) hafter,
    execAll_pair_of_next (exec_ssStep_of_manual hmanual) hbefore⟩

end Sys2Proof.Machine
end

