-- ==== Sys2Proof/Proofs/Initialization.lean ====
section
/-!
PROOF. `INIT` (44_control.md R172): its checks find the first of the nine staging values that is out of range, and
without one the values fit the registers that latch them.
-/

namespace Sys2Proof.Machine

section Init

variable {s : State} (hlife : s.life ≠ .cfgError)
include hlife

theorem exec_init_of_initFits (hfits : InitFits s) : exec .init s = .next s.initialize := by
  rw [exec, execInit, if_neg hlife, (firstUnfit_eq_none_iff s).mpr hfits]

theorem exec_init_of_firstUnfit {addr : BitVec 8} (h : s.stg.firstUnfit = some addr) :
    exec .init s = .next (s.raiseCfgError 1 addr) := by
  rw [exec, execInit, if_neg hlife, h]

end Init

/-- The low 16 bits hold a value that fits a scaled word. -/
theorem setWidth_toInt_of_fits {v : BusWord} (h : Fits v) : (v.setWidth 16).toInt = v.toInt := by
  obtain ⟨hlo, hhi⟩ := h
  have hword : v.setWidth 16 = toWord v.toInt := by
    apply BitVec.eq_of_toInt_eq
    rw [toWord, BitVec.toInt_setWidth, BitVec.toInt_ofInt, BitVec.toInt_eq_toNat_bmod,
      Int.bmod_bmod_of_dvd (by decide)]
  rw [hword, toWord_toInt _ hlo hhi]

/-- Settles O12: the checks pass, and the low bits of a value that fits are the value. -/
theorem initLatchesAndZeroes : Obligations.InitLatchesAndZeroes := by
  intro s hlife hfits
  have hexec := exec_init_of_initFits hlife hfits
  obtain ⟨href, ha1, ha2, hb0, hb1, hb2, hk, hmin, hmax⟩ := hfits
  exact ⟨s.stg.latch, setWidth_toInt_of_fits href, setWidth_toInt_of_fits ha1, setWidth_toInt_of_fits ha2,
    setWidth_toInt_of_fits hb0, setWidth_toInt_of_fits hb1, setWidth_toInt_of_fits hb2, setWidth_toInt_of_fits hk,
    setWidth_toInt_of_fits hmin, setWidth_toInt_of_fits hmax, hexec⟩

theorem firstUnfit_of_append {g : Staging} {before after : List (BitVec 8 × BusWord)} {addr : BitVec 8} {v : BusWord}
    (hargs : g.initArgs = before ++ (addr, v) :: after) (hbefore : ∀ p ∈ before, Fits p.2) (hv : ¬ Fits v) :
    g.firstUnfit = some addr := by
  have hfind : g.initArgs.find? (fun p => !fitsWord p.2.toInt) = some (addr, v) :=
    List.find?_eq_some_iff_append.mpr
      ⟨by simp [fitsWord_eq_false_iff, hv], before, after, hargs, fun p hp => by simp [fitsWord_iff, hbefore p hp]⟩
  rw [Staging.firstUnfit, hfind, Option.map_some]

/-- 60_exceptions.md R192: `ERR` holds the code in its low byte and the information above it. -/
theorem raisedErr_eq_ofNat (code info : BitVec 8) :
    raisedErr code info = BitVec.ofNat 32 (code.toNat + info.toNat * 256) := by
  rw [BitVec.ofNat_add, BitVec.ofNat_mul, BitVec.ofNat_toNat, BitVec.ofNat_toNat]
  rfl

/-- Settles O13: the values before the first unfit one pass, so the search finds that one. -/
theorem initRaisesAtTheFirstUnfitValue : Obligations.InitRaisesAtTheFirstUnfitValue := by
  intro s before after addr v hlife hargs hbefore hv
  rw [exec_init_of_firstUnfit hlife (firstUnfit_of_append hargs hbefore hv)]
  have herr := raisedErr_eq_ofNat 1 addr
  exact congrArg (fun e : BusWord => Host.Outcome.next { s with err := e, life := .cfgError }) herr

end Sys2Proof.Machine
end

