-- ==== Sys2Proof/Proofs/GatesAndEvents.lean ====
section
/-!
PROOF. The gates of manual mode and of the events (44_control.md R178, 60_exceptions.md R198), what the commands that
enter `Running` and end manual mode check (R173, R174), and what the three events do (R175 to R177). The sample's handler and
the ramp are those of manual mode, since neither an update, a soft-start step nor a ramp reads `ORCH`.
-/

namespace Sys2Proof.Machine

/-! ## The gates -/

section Gates

variable {s : State} (act : Outcome)

theorem manualGate_of_not_manual (h : s.life ≠ .running ∨ s.orch ≠ .idle) :
    manualGate s act = .fault .seqFault := by
  apply if_neg
  rw [manual_iff]
  tauto

theorem eventGate_of_orchestrated (hlife : s.life = .running) (horch : s.orch ≠ .idle) : eventGate s act = act := by
  rw [eventGate, if_neg (by simp [hlife]), if_pos ((orchestrated_iff s).mpr ⟨hlife, horch⟩)]

theorem eventGate_of_masked (hlife : s.life ≠ .cfgError) (h : s.life ≠ .running ∨ s.orch = .idle) :
    eventGate s act = .next s := by
  rw [eventGate, if_neg hlife, if_neg]
  rw [orchestrated_iff]
  tauto

end Gates

/-! ## Into `Running` and out of manual mode (R173, R174) -/

/-- Settles O14: the one check of `START`, passed and not. -/
theorem startEntersRunning : Obligations.StartEntersRunning :=
  ⟨by decide, fun _ hlife => if_neg (not_not.mpr hlife), fun _ hlife => if_pos hlife⟩

/-- Settles O15: the gate of manual mode lets `ORCH_EN` pass once, and then none of the four. -/
theorem orchEnArmsTheOrchestrator : Obligations.OrchEnArmsTheOrchestrator := by
  refine fun s => ⟨fun hlife horch => ⟨if_pos ((manual_iff s).mpr ⟨hlife, horch⟩), fun i hi => ?_⟩,
    manualGate_of_not_manual _⟩
  have hclosed (act : Outcome) : manualGate { s with orch := .armed } act = .fault .seqFault :=
    manualGate_of_not_manual act (.inr (by simp))
  have hcases : i = .update ∨ i = .ssStep ∨ i = .slRun ∨ i = .orchEn := by simpa using hi
  obtain rfl | rfl | rfl | rfl := hcases <;> exact hclosed _

/-! ## The period event (R175) -/

/-- Settles O35: the event's gate, and behind it the check of `ORCH`. -/
theorem evPeriodTriggersTheSample : Obligations.EvPeriodTriggersTheSample := by
  refine ⟨by decide, fun s => ⟨exec_evPeriod_of_armed, fun hlife horch harmed => ?_, eventGate_of_masked _,
    fun hlife => eventGate_of_cfgError hlife _⟩⟩
  exact (eventGate_of_orchestrated _ hlife horch).trans (if_pos harmed)

/-! ## `ORCH` is not read by the updates of manual mode -/

/-- A state with another orchestrator state. -/
def State.withOrch (o : Orch) (s : State) : State := { s with orch := o }

section Commute

variable (s : State) (o : Orch)

theorem ssAdvance_withOrch : (s.withOrch o).ssAdvance = s.ssAdvance.withOrch o := by
  unfold State.ssAdvance
  rw [apply_ite (State.withOrch o)]
  rfl

theorem ssSettle_withOrch : (s.withOrch o).ssSettle = s.ssSettle.withOrch o := by
  unfold State.ssSettle
  rw [apply_ite (State.withOrch o)]
  rfl

theorem doSsStep_withOrch : (s.withOrch o).doSsStep = s.doSsStep.withOrch o := by
  by_cases h : s.ss.state = .ramping
  · rw [doSsStep_of_ramping h, doSsStep_of_ramping (s := s.withOrch o) h, ssAdvance_withOrch, ssSettle_withOrch]
  · rw [doSsStep_of_not_ramping h, doSsStep_of_not_ramping (s := s.withOrch o) h]

theorem doUpdate_withOrch : (s.withOrch o).doUpdate = s.doUpdate.withOrch o := rfl

theorem slopeRun_withOrch : (s.withOrch o).slopeRun = s.slopeRun.withOrch o := by
  rw [slopeRun_eq_ramped, slopeRun_eq_ramped]
  rfl

end Commute

/-! ## The sample event (R176) -/

@[simp] theorem doSsStep_fdbk (s : State) : s.doSsStep.fdbk = s.fdbk := by rw [doSsStep_frame]

/-- The handler is the sample stored, an update and a soft-start step, whatever `ORCH` was in between. -/
theorem sampleHandler_eq (s : State) (imm : Word) (o : Orch) :
    s.sampleHandler imm = (State.doUpdate { s with orch := o, fdbk := imm }).doSsStep.withOrch .armed := by
  let u : State := { s with fdbk := imm }
  show (u.withOrch .computeAndActuate).doUpdate.doSsStep.withOrch .armed =
    (u.withOrch o).doUpdate.doSsStep.withOrch .armed
  rw [doUpdate_withOrch, doUpdate_withOrch, doSsStep_withOrch, doSsStep_withOrch]
  rfl

/-- Settles O36: in manual mode the three operations run in turn are the handler. -/
theorem evSampleRunsTheWholeHandler : Obligations.EvSampleRunsTheWholeHandler := by
  intro s imm hlife horch
  let u : State := { s with orch := .idle, fdbk := imm }
  have hstore : exec (.wr 0x03 (BitVec.ofInt 32 imm.toInt)) { s with orch := .idle } = .next u :=
    (exec_wr_of_writable _ (by simp [hlife]) writableAt_fdbk).trans
      (congrArg Host.Outcome.next (writeReg_fdbk_signExtend { s with orch := .idle } imm))
  have hmanual : u.doUpdate.manual = true := (manual_iff _).mpr ⟨hlife, rfl⟩
  refine ⟨u.doUpdate.doSsStep, ?_, doSsStep_fdbk _, ?_⟩
  · rw [execAll_cons_of_next hstore]
    exact execAll_pair_of_next (exec_update_of_manual hlife rfl) (exec_ssStep_of_manual hmanual)
  · rw [exec_evSample_of_sampleInFlight imm hlife horch, sampleHandler_eq s imm .idle]
    rfl

/-! ## The slope event (R177) -/

theorem exec_evSlope_of_armed {s : State} (hlife : s.life = .running) (horch : s.orch ≠ .idle)
    (hcfgd : s.sl.cfgd = true) (harmed : s.sl.armed = true) : exec .evSlope s = .next s.slopeRun :=
  (eventGate_of_orchestrated _ hlife horch).trans (if_pos (by simp [hcfgd, harmed]))

/-- Settles O37: the ramp is the same in either mode, and leaves `ORCH` as it finds it. -/
theorem evSlopeRunsTheRamp : Obligations.EvSlopeRunsTheRamp := by
  intro s hlife horch hcfgd harmed
  have hmanual : (s.withOrch .idle).manual = true := (manual_iff _).mpr ⟨hlife, rfl⟩
  refine ⟨_, exec_slRun_of_armed hmanual hcfgd harmed, (exec_evSlope_of_armed hlife horch hcfgd harmed).trans ?_⟩
  show _ = Host.Outcome.next ((s.withOrch .idle).slopeRun.withOrch s.orch)
  rw [← slopeRun_withOrch]
  rfl

end Sys2Proof.Machine
end

