-- ==== Sys2Proof/Proofs/StateMachines.lean ====
section
/-!
PROOF. The arrows of `LIFE` and `ORCH` (44_control.md R179, R180). `INIT`, `SS_ARM` and `SL_CFG` act or raise as their
checks are met or not, in the terms of the arrows; then each operation's completed outcome lies on an arrow of both tables.
-/

namespace Sys2Proof.Machine

/-! ## The commands that can raise -/

section Checks

variable {s t : State}

theorem execInit_fits_or_raises (h : execInit s = .next t) :
    s.life ≠ .cfgError ∧
      ((InitFits s ∧ t = s.initialize) ∨ (¬ InitFits s ∧ ∃ code info, t = s.raiseCfgError code info)) := by
  rw [← firstUnfit_eq_none_iff]
  obtain ⟨hlife, ⟨addr, hunfit, rfl⟩ | hfits⟩ := execInit_next h
  · exact ⟨hlife, .inr ⟨by simp [hunfit], _, _, rfl⟩⟩
  · exact ⟨hlife, .inl hfits⟩

theorem ofStaging_eq_none_iff {v : BusWord} : SsDir.ofStaging v = none ↔ ¬ (v = 1 ∨ v = 2) := by
  rw [not_or]
  refine ⟨fun h => ⟨?_, ?_⟩, fun ⟨h1, h2⟩ => ofStaging_of_undefined h1 h2⟩
  · rintro rfl
    cases h
  · rintro rfl
    cases h

theorem execSsArm_fits_or_raises (h : execSsArm s = .next t) :
    (s.life = .initialized ∨ s.life = .running) ∧
      ((ArmFits s ∧ ∃ dir, t = s.armSoftStart dir) ∨
        (¬ ArmFits s ∧ ∃ code info, t = s.raiseCfgError code info)) := by
  obtain ⟨hlife, ⟨hdir, rfl⟩ | ⟨dir, hdir, ⟨hperiod, rfl⟩ | ⟨hperiod, rfl⟩⟩⟩ := execSsArm_next h
  · exact ⟨hlife, .inr ⟨fun ⟨hdefined, _⟩ => ofStaging_eq_none_iff.mp hdir hdefined, _, _, rfl⟩⟩
  · exact ⟨hlife, .inr ⟨fun ⟨_, hne⟩ => hne hperiod, _, _, rfl⟩⟩
  · have hdefined : s.stg.ssDir = 1 ∨ s.stg.ssDir = 2 :=
      not_not.mp (mt ofStaging_eq_none_iff.mpr (by simp [hdir]))
    exact ⟨hlife, .inl ⟨⟨hdefined, hperiod⟩, _, rfl⟩⟩

theorem execSlCfg_fits_or_raises (h : execSlCfg s = .next t) :
    (s.life = .uninit ∨ s.life = .initialized) ∧
      ((SlopeFits s ∧ ∃ sl, t = { s with sl := sl }) ∨
        (¬ SlopeFits s ∧ ∃ code info, t = s.raiseCfgError code info)) := by
  obtain ⟨hlife, ⟨hdelta, rfl⟩ | ⟨-, hsteps, rfl⟩ | ⟨hdelta, hsteps, rfl⟩⟩ := execSlCfg_next h
  · exact ⟨hlife, .inr ⟨fun ⟨hfits, _⟩ => hdelta hfits, _, _, rfl⟩⟩
  · exact ⟨hlife, .inr ⟨fun ⟨_, hle⟩ => absurd hle (not_le.mpr hsteps), _, _, rfl⟩⟩
  · exact ⟨hlife, .inl ⟨⟨hdelta, hsteps⟩, _, rfl⟩⟩

end Checks

/-! ## The arrows (R179, R180) -/

@[simp] theorem sampleHandler_life (s : State) (imm : Word) : (s.sampleHandler imm).life = s.life := by
  simp [State.sampleHandler]

section Events

variable {s : State} {p q : Prop}

/-- An event that acted takes its arrow. -/
theorem orchArrow_of_orchestrated (h : s.orchestrated = true) (hp : p) :
    if s.life = .running ∧ s.orch ≠ .idle then p else q := by
  rwa [if_pos ((orchestrated_iff s).mp h)]

/-- A masked event keeps `ORCH`. -/
theorem orchArrow_of_masked (h : s.orchestrated = false) (hq : q) :
    if s.life = .running ∧ s.orch ≠ .idle then p else q := by
  have hmasked : ¬ (s.life = .running ∧ s.orch ≠ .idle) := by simp [← orchestrated_iff, h]
  rwa [if_neg hmasked]

end Events

theorem exec_arrows {i : Instr} {s t : State} (h : exec i s = .next t) :
    LifeArrow i s t.life ∧ OrchArrow i s t.orch := by
  cases i with
  | init =>
    obtain ⟨hlife, ⟨hfits, rfl⟩ | ⟨hfits, code, info, rfl⟩⟩ := execInit_fits_or_raises h
    · exact ⟨⟨hlife, .inl ⟨hfits, rfl⟩⟩, .inl ⟨hfits, rfl⟩⟩
    · exact ⟨⟨hlife, .inr ⟨hfits, rfl⟩⟩, .inr ⟨hfits, rfl⟩⟩
  | start =>
    obtain ⟨hlife, rfl⟩ := execStart_next h
    exact ⟨⟨hlife, rfl⟩, rfl⟩
  | ssArm =>
    obtain ⟨hlife, ⟨hfits, dir, rfl⟩ | ⟨hfits, code, info, rfl⟩⟩ := execSsArm_fits_or_raises h
    · exact ⟨⟨hlife, .inl ⟨hfits, armSoftStart_life s dir⟩⟩, armSoftStart_orch s dir⟩
    · exact ⟨⟨hlife, .inr ⟨hfits, rfl⟩⟩, rfl⟩
  | slCfg =>
    obtain ⟨hlife, ⟨hfits, sl, rfl⟩ | ⟨hfits, code, info, rfl⟩⟩ := execSlCfg_fits_or_raises h
    · exact ⟨⟨hlife, .inl ⟨hfits, rfl⟩⟩, rfl⟩
    · exact ⟨⟨hlife, .inr ⟨hfits, rfl⟩⟩, rfl⟩
  | orchEn =>
    obtain ⟨hmanual, rfl⟩ := execOrchEn_next h
    obtain ⟨hlife, horch⟩ := (manual_iff s).mp hmanual
    exact ⟨rfl, hlife, horch, rfl⟩
  | evPeriod =>
    obtain ⟨horch, harmed, rfl⟩ | ⟨-, hmasked, rfl⟩ := execEvPeriod_next h
    · exact ⟨rfl, orchArrow_of_orchestrated horch ⟨harmed, rfl⟩⟩
    · exact ⟨rfl, orchArrow_of_masked hmasked rfl⟩
  | evSample imm =>
    obtain ⟨horch, hflight, rfl⟩ | ⟨-, hmasked, rfl⟩ := execEvSample_next h
    · exact ⟨sampleHandler_life s imm, orchArrow_of_orchestrated horch ⟨hflight, rfl⟩⟩
    · exact ⟨rfl, orchArrow_of_masked hmasked rfl⟩
  | evSlope =>
    obtain ⟨-, -, -, rfl⟩ | ⟨-, -, rfl⟩ := execEvSlope_next h
    · exact ⟨slopeRun_life s, slopeRun_orch s⟩
    · exact ⟨rfl, rfl⟩
  | rd addr =>
    obtain ⟨r, -, rfl⟩ := execRd_next h
    exact ⟨rfl, rfl⟩
  | wr addr v =>
    obtain ⟨-, r, -, rfl⟩ := execWr_next h
    exact ⟨writeReg_life s r v, writeReg_orch s r v⟩
  | update =>
    obtain ⟨-, rfl⟩ := execUpdate_next h
    exact ⟨rfl, rfl⟩
  | ssStep =>
    obtain ⟨-, rfl⟩ := execSsStep_next h
    exact ⟨doSsStep_life s, doSsStep_orch s⟩
  | slRun =>
    obtain ⟨-, -, -, rfl⟩ := execSlRun_next h
    exact ⟨slopeRun_life s, slopeRun_orch s⟩
  | fxSub | fxMul | fxMac | fxShift | fxSat | fxSatw | fxAdds =>
    cases h
    exact ⟨rfl, rfl⟩

/-- 70_reset_and_hazards.md R220: the pin `rst` puts every register at its reset value. -/
theorem step_of_rst {s : State} {rest : List Input} (h : s.inputs = .rst :: rest) :
    step s = .next (State.resetWith s.cfg rest) := by
  rw [step, fetch, h]
  rfl

/-- Settles O47: the arrows, the pin, and in `CfgError` a frame that is no read is a store or a command, which both
fault. -/
theorem lifeMovesOnlyAlongItsArrows : Obligations.LifeMovesOnlyAlongItsArrows := by
  refine ⟨fun _ _ _ h => (exec_arrows h).1, fun s t rest hinputs h => ?_, fun f i s hdecode hlife => ?_⟩
  · rw [step_of_rst hinputs] at h
    cases h
    rfl
  · obtain ⟨-, rfl⟩ | ⟨-, -, rfl⟩ | ⟨-, -, hcommand⟩ := decode_frame_eq_ok_iff.mp hdecode
    · exact .inl ⟨_, rfl⟩
    · exact .inr (exec_wr_of_cfgError hlife _ _)
    · exact .inr (exec_command_of_cfgError hlife (decodeCommand_ok hcommand))

/-- By the two tables: an arrow into `CfgError` from outside it is a raise, and for a raise `ORCH` has no arrow. -/
theorem orch_of_raise {i : Instr} {s : State} {o : Orch} (hlife : s.life ≠ .cfgError)
    (hraise : LifeArrow i s .cfgError) (horch : OrchArrow i s o) : o = s.orch := by
  cases i with
  | init =>
    obtain ⟨-, ⟨-, hl⟩ | ⟨hunfit, -⟩⟩ := hraise
    · cases hl
    · obtain ⟨hfits, -⟩ | ⟨-, ho⟩ := horch
      · exact absurd hfits hunfit
      · exact ho
  | start =>
    obtain ⟨-, hl⟩ := hraise
    cases hl
  | ssArm | slCfg => exact horch
  | rd | wr | orchEn | update | ssStep | slRun | evPeriod | evSample | evSlope
  | fxSub | fxMul | fxMac | fxShift | fxSat | fxSatw | fxAdds => exact absurd (Eq.symm hraise) hlife

/-- Settles O48: the arrows, those of a raise among them, and the pin. -/
theorem orchMovesOnlyAlongItsArrows : Obligations.OrchMovesOnlyAlongItsArrows := by
  refine ⟨fun _ _ _ h => (exec_arrows h).2, fun i s t h hlife hcfgError => ?_, fun s t rest hinputs h => ?_⟩
  · obtain ⟨hraise, horch⟩ := exec_arrows h
    rw [hcfgError] at hraise
    exact orch_of_raise hlife hraise horch
  · rw [step_of_rst hinputs] at h
    cases h
    rfl

end Sys2Proof.Machine
end

