-- ==== Sys2Proof/Proofs/Exceptions.lean ====
section
/-!
PROOF. The exceptions of 60_exceptions.md: what a masked event does (R198), which operation faults in which state (R196), and
who raises `CfgError` with what value of `ERR` (R191 to R193). The fault list is read one entry at a time: where the entry's
condition holds the operation's check or its gate gives that fault, and past the last entry it completes.
-/

namespace Sys2Proof.Machine

/-! ## Masked events (R198) -/

/-- Settles O38: the one gate of the three events. -/
theorem maskedEventsAreLost : Obligations.MaskedEventsAreLost := fun _ _ hlife hmasked =>
  ⟨eventGate_of_masked _ hlife hmasked, eventGate_of_masked _ hlife hmasked, eventGate_of_masked _ hlife hmasked⟩

/-! ## An outcome against an entry of the fault list (R196) -/

/-- The outcome is the fault that an entry names, or completes where it names none. -/
def Answers (o : Outcome) : Option Fault → Prop
  | some f => o = .fault f
  | none => ∃ t, o = .next t

theorem answers_ite {o : Outcome} {p : Prop} [Decidable p] {a b : Option Fault} (hp : p → Answers o a)
    (hnp : ¬ p → Answers o b) : Answers o (if p then a else b) := by
  split
  next h => exact hp h
  next h => exact hnp h

/-- An operation of manual mode whose body cannot fault. -/
theorem answers_manualGate (s t : State) :
    Answers (manualGate s (.next t)) (if s.life ≠ .running ∨ s.orch ≠ .idle then some .seqFault else none) := by
  refine answers_ite (manualGate_of_not_manual _) fun h => ?_
  obtain ⟨hlife, horch⟩ := not_or.mp h
  exact ⟨t, if_pos ((manual_iff s).mpr ⟨not_not.mp hlife, not_not.mp horch⟩)⟩

/-- An event whose body faults with `f` exactly when `p`: its gate adds the `SeqFault` of `CfgError` and takes `f` away
while the event is masked. -/
theorem answers_eventGate {s : State} {act : Outcome} {p : Prop} [Decidable p] {f : Fault}
    (hfault : p → act = .fault f) (hnext : ¬ p → ∃ t, act = .next t) :
    Answers (eventGate s act)
      (if s.life = .cfgError then some .seqFault
       else if s.life = .running ∧ s.orch ≠ .idle ∧ p then some f else none) := by
  refine answers_ite (fun hlife => eventGate_of_cfgError hlife act) fun hlife => answers_ite ?_ fun hno => ?_
  · rintro ⟨hrunning, horch, hp⟩
    exact (eventGate_of_orchestrated act hrunning horch).trans (hfault hp)
  · by_cases horchestrated : s.life = .running ∧ s.orch ≠ .idle
    · obtain ⟨hrunning, horch⟩ := horchestrated
      obtain ⟨t, ht⟩ := hnext fun hp => hno ⟨hrunning, horch, hp⟩
      exact ⟨t, (eventGate_of_orchestrated act hrunning horch).trans ht⟩
    · exact ⟨s, eventGate_of_masked act hlife (by tauto)⟩

/-! ## The checks behind the entries -/

theorem exists_registerAt {p : RegRow → Bool} {addr : Addr} (h : addr ∈ (regMap.filter p).map (·.addr)) :
    ∃ r, registerAt p addr = some r := by
  obtain ⟨row, hrow, haddr⟩ := List.mem_map.mp h
  obtain ⟨hmem, hp⟩ := List.mem_filter.mp hrow
  exact ⟨row.reg, registerAt_eq_some_iff.mpr ⟨row, hmem, haddr, hp, rfl⟩⟩

theorem exists_readableAt {addr : Addr} (h : addr ∈ readAddrs) : ∃ r, readableAt addr = some r :=
  exists_registerAt h

theorem exists_writableAt {addr : Addr} (h : addr ∈ storeAddrs) : ∃ r, writableAt addr = some r :=
  exists_registerAt h

/-- 43_slope.md R160: the ramp needs a configuration and an update since its last run. -/
theorem doSlRun_of_unready {s : State} (h : s.sl.cfgd = false ∨ s.sl.armed = false) :
    s.doSlRun = .fault .seqFault :=
  if_neg (by obtain h | h := h <;> simp [h])

theorem doSlRun_of_ready {s : State} (h : ¬ (s.sl.cfgd = false ∨ s.sl.armed = false)) :
    ∃ t, s.doSlRun = .next t :=
  ⟨s.slopeRun, if_pos (by simpa using h)⟩

theorem exec_init_completes {s : State} (hlife : s.life ≠ .cfgError) : ∃ t, exec .init s = .next t := by
  cases hunfit : s.stg.firstUnfit with
  | some addr => exact ⟨_, exec_init_of_firstUnfit hlife hunfit⟩
  | none => exact ⟨_, exec_init_of_initFits hlife ((firstUnfit_eq_none_iff s).mp hunfit)⟩

theorem exec_ssArm_completes {s : State} (hlife : s.life = .initialized ∨ s.life = .running) :
    ∃ t, exec .ssArm s = .next t := by
  cases hdir : SsDir.ofStaging s.stg.ssDir with
  | none => exact ⟨_, exec_ssArm_of_undefined hlife hdir⟩
  | some dir =>
    rw [exec_ssArm_of_defined hlife hdir]
    split <;> exact ⟨_, rfl⟩

theorem exec_slCfg_completes {s : State} (hlife : s.life = .uninit ∨ s.life = .initialized) :
    ∃ t, exec .slCfg s = .next t := by
  by_cases hdelta : Fits s.stg.slDelta
  · rw [exec_slCfg_of_fits hlife hdelta]
    split <;> exact ⟨_, rfl⟩
  · exact ⟨_, exec_slCfg_of_not_fits hlife hdelta⟩

/-! ## The list (R196) -/

theorem life_of_not_uninit_or_cfgError {l : Life} (h : ¬ (l = .uninit ∨ l = .cfgError)) :
    l = .initialized ∨ l = .running := by
  cases l <;> simp at h ⊢

theorem life_of_not_running_or_cfgError {l : Life} (h : ¬ (l = .running ∨ l = .cfgError)) :
    l = .uninit ∨ l = .initialized := by
  cases l <;> simp at h ⊢

/-- Every operation answers its entry, the ill-formed store to `0x00` too: no store finds `CMD` (assumption log 11). -/
theorem exec_answers_faultOf (i : Instr) (s : State) : Answers (exec i s) (faultOf i s) := by
  cases i with
  | rd addr =>
    refine answers_ite (fun haddr => ?_) fun haddr => exec_rd_of_unreadable s (readableAt_eq_none haddr)
    obtain ⟨r, hr⟩ := exists_readableAt haddr
    exact ⟨_, exec_rd_of_readable s hr⟩
  | wr addr v =>
    refine answers_ite (fun hlife => exec_wr_of_cfgError hlife addr v) fun hlife => answers_ite (fun haddr => ?_)
      fun haddr => exec_wr_of_unwritable v hlife (writableAt_eq_none haddr)
    obtain ⟨r, hr⟩ := exists_writableAt haddr
    exact ⟨_, exec_wr_of_writable v hlife hr⟩
  | init => exact answers_ite (fun hlife => if_pos hlife) exec_init_completes
  | start => exact answers_ite (fun hlife => ⟨_, if_neg (not_not.mpr hlife)⟩) fun hlife => if_pos hlife
  | ssArm =>
    refine answers_ite (fun hlife => if_pos ?_) fun hlife =>
      exec_ssArm_completes (life_of_not_uninit_or_cfgError hlife)
    obtain hlife | hlife := hlife <;> simp [hlife]
  | slCfg =>
    refine answers_ite (fun hlife => if_pos ?_) fun hlife =>
      exec_slCfg_completes (life_of_not_running_or_cfgError hlife)
    obtain hlife | hlife := hlife <;> simp [hlife]
  | orchEn | update | ssStep => exact answers_manualGate s _
  | slRun =>
    refine answers_ite (fun h => ?_) fun h => ?_
    · by_cases hmanual : s.manual = true
      · obtain ⟨hlife, horch⟩ := (manual_iff s).mp hmanual
        exact (if_pos hmanual).trans (doSlRun_of_unready (by simpa [hlife, horch] using h))
      · exact if_neg hmanual
    · obtain ⟨hlife, horch, hready⟩ : s.life = .running ∧ s.orch = .idle ∧
          ¬ (s.sl.cfgd = false ∨ s.sl.armed = false) := by tauto
      obtain ⟨t, ht⟩ := doSlRun_of_ready hready
      exact ⟨t, (if_pos ((manual_iff s).mpr ⟨hlife, horch⟩)).trans ht⟩
  | evPeriod | evSample => exact answers_eventGate (fun h => if_pos h) fun h => ⟨_, if_neg h⟩
  | evSlope => exact answers_eventGate doSlRun_of_unready doSlRun_of_ready
  | fxSub | fxMul | fxMac | fxShift | fxSat | fxSatw | fxAdds => exact ⟨_, rfl⟩

/-- Settles O46: the list entry by entry, and an undecodable frame is never run. -/
theorem operationsFaultExactlyAsListed : Obligations.OperationsFaultExactlyAsListed := by
  refine ⟨fun i s _ => ?_, fun _ _ _ => step_of_undecodable⟩
  have h := exec_answers_faultOf i s
  cases hfault : faultOf i s with
  | some f => rwa [hfault] at h
  | none => rwa [hfault] at h

/-! ## The configuration error (R191 to R193) -/

/-- R191: a raise writes `ERR` and `LIFE`, in the form of the statements. -/
theorem raiseCfgError_precise (s : State) (code info : BitVec 8) :
    s.raiseCfgError code info = { s with life := .cfgError, err := (s.raiseCfgError code info).err } := rfl

/-- R179: of all operations only the three configuration commands have an arrow into `CfgError` from outside it. -/
theorem raiser_of_lifeArrow {i : Instr} {s : State} (hlife : s.life ≠ .cfgError) (h : LifeArrow i s .cfgError) :
    i = .init ∨ i = .ssArm ∨ i = .slCfg := by
  cases i with
  | init => exact .inl rfl
  | ssArm => exact .inr (.inl rfl)
  | slCfg => exact .inr (.inr rfl)
  | start =>
    obtain ⟨-, hl⟩ := h
    cases hl
  | rd | wr | orchEn | update | ssStep | slRun | evPeriod | evSample | evSlope
  | fxSub | fxMul | fxMac | fxShift | fxSat | fxSatw | fxAdds => exact absurd (Eq.symm h) hlife

section Raises

variable {s t : State} (hlife : s.life ≠ .cfgError) (hraised : t.life = .cfgError)
include hraised

theorem execInit_raised (h : execInit s = .next t) :
    ∃ addr, s.stg.firstUnfit = some addr ∧ t = s.raiseCfgError 1 addr := by
  obtain ⟨-, hraise | ⟨-, rfl⟩⟩ := execInit_next h
  · exact hraise
  · cases hraised

include hlife

theorem execSsArm_raised (h : execSsArm s = .next t) :
    t = s.raiseCfgError 2 0x22 ∨ t = s.raiseCfgError 3 0x21 := by
  obtain ⟨-, ⟨-, hraise⟩ | ⟨dir, -, ⟨-, hraise⟩ | ⟨-, rfl⟩⟩⟩ := execSsArm_next h
  · exact .inl hraise
  · exact .inr hraise
  · exact absurd ((armSoftStart_life s dir).symm.trans hraised) hlife

theorem execSlCfg_raised (h : execSlCfg s = .next t) :
    t = s.raiseCfgError 4 0x28 ∨ t = s.raiseCfgError 4 0x29 := by
  obtain ⟨-, ⟨-, hraise⟩ | ⟨-, -, hraise⟩ | ⟨-, -, rfl⟩⟩ := execSlCfg_next h
  · exact .inl hraise
  · exact .inr hraise
  · exact absurd hraised hlife

end Raises

/-- 44_control.md R172: the nine addresses `INIT` checks are consecutive. -/
theorem firstUnfit_range {g : Staging} {addr : BitVec 8} (h : g.firstUnfit = some addr) :
    0x10 ≤ addr.toNat ∧ addr.toNat ≤ 0x18 := by
  have hall : ∀ a ∈ [0x10#8, 0x11#8, 0x12#8, 0x13#8, 0x14#8, 0x15#8, 0x16#8, 0x17#8, 0x18#8],
      0x10 ≤ a.toNat ∧ a.toNat ≤ 0x18 := by decide
  exact hall addr (firstUnfit_mem h)

/-- R192: `ERR` after a raise of `INIT`, as a number: code 1 and the address above it. -/
theorem raiseCfgError_init_err_toNat (s : State) (addr : BitVec 8) :
    (s.raiseCfgError 1 addr).err.toNat = 1 + addr.toNat * 256 := by
  have haddr := addr.isLt
  rw [raiseCfgError_err_eq, raisedErr_eq_ofNat, BitVec.toNat_ofNat]
  exact Nat.mod_eq_of_lt (by norm_num; omega)

/-- Settles O49: the arrows of `LIFE` leave the three commands, and each of their raises is one of the listed ones. -/
theorem configurationErrorIsPrecise : Obligations.ConfigurationErrorIsPrecise := by
  intro i s t h hlife hraised
  have harrow := (exec_arrows h).1
  rw [hraised] at harrow
  obtain rfl | rfl | rfl := raiser_of_lifeArrow hlife harrow
  · obtain ⟨addr, hunfit, rfl⟩ := execInit_raised hraised h
    obtain ⟨hlo, hhi⟩ := firstUnfit_range hunfit
    exact ⟨raiseCfgError_precise s 1 addr,
      .inl ⟨rfl, addr.toNat, hlo, hhi, raiseCfgError_init_err_toNat s addr⟩⟩
  · obtain rfl | rfl := execSsArm_raised hlife hraised h
    · exact ⟨raiseCfgError_precise s _ _, .inr (.inl ⟨rfl, .inl rfl⟩)⟩
    · exact ⟨raiseCfgError_precise s _ _, .inr (.inl ⟨rfl, .inr rfl⟩)⟩
  · obtain rfl | rfl := execSlCfg_raised hlife hraised h
    · exact ⟨raiseCfgError_precise s _ _, .inr (.inr ⟨rfl, .inl rfl⟩)⟩
    · exact ⟨raiseCfgError_precise s _ _, .inr (.inr ⟨rfl, .inr rfl⟩)⟩

end Sys2Proof.Machine
end

