-- ==== Sys2Proof/Proofs/Reset.lean ====
section
/-!
PROOF. The pin `rst` (70_reset_and_hazards.md R220) gives every register its value of 10_state.md R49, and the arrows of
`LIFE` (44_control.md R179) hold no way for an operation out of `CfgError`.
-/

namespace Sys2Proof.Machine

/-- R179: no arrow of an operation leaves `CfgError`. -/
theorem lifeArrow_of_cfgError {i : Instr} {s : State} {l : Life} (hlife : s.life = .cfgError)
    (h : LifeArrow i s l) : l = .cfgError := by
  cases i with
  | init =>
    obtain ⟨hne, -⟩ := h
    exact absurd hlife hne
  | start | ssArm | slCfg => simp [LifeArrow, hlife] at h
  | rd | wr | orchEn | update | ssStep | slRun | evPeriod | evSample | evSlope
  | fxSub | fxMul | fxMac | fxShift | fxSat | fxSatw | fxAdds => exact Eq.trans h hlife

/-- Settles O1: the state the pin gives, register by register, and the arrows of the operations. -/
theorem rstPinResetsEveryRegister : Obligations.RstPinResetsEveryRegister :=
  ⟨fun _ _ hinputs => ⟨_, step_of_rst hinputs, rfl, rfl, rfl, rfl, rfl, rfl, rfl, rfl, rfl, rfl, rfl, rfl, rfl, rfl⟩,
    fun _ _ _ hlife h => lifeArrow_of_cfgError hlife (exec_arrows h).1⟩

end Sys2Proof.Machine
end

