-- ==== Sys2Proof/Proofs/ReInit.lean ====
section
/-!
PROOF. A second `INIT` reproduces the outputs (70_reset_and_hazards.md R223, 41_compensator.md R132). After it two blocks
differ at most in what `INIT` leaves: `THRESH`, `SL_CUR` and the trace. No operation but a read of the two registers shows
that difference: an update rewrites both registers, a ramp runs only behind an update, and every other update of the state
commutes with replacing the three. So each operation answers both blocks alike, and a program does by induction.
-/

namespace Sys2Proof.Machine

/-! ## States that differ in what `INIT` leaves -/

/-- A state with `THRESH`, `SL_CUR` and the trace of another. -/
def State.withStaleOf (s v : State) : State :=
  { s with thresh := v.thresh, sl := { s.sl with cur := v.sl.cur }, trace := v.trace }

theorem sameButThreshold_iff {s t : State} :
    SameButThreshold s t ↔ ∃ v, t = s.withStaleOf v ∧ (s.sl.armed = true → s.sl.cur = v.sl.cur) := by
  constructor
  · rintro ⟨ht, hcur⟩
    exact ⟨t, ht, hcur⟩
  · rintro ⟨v, rfl, hcur⟩
    exact ⟨rfl, hcur⟩

/-- From two states to two that are the same but for the threshold, with the same outputs added to both traces. -/
def SameStep (s t s' t' : State) : Prop :=
  SameButThreshold s' t' ∧ ∃ new : List Output, s'.trace = s.trace ++ new ∧ t'.trace = t.trace ++ new

theorem SameStep.refl {s t : State} (h : SameButThreshold s t) : SameStep s t s t :=
  ⟨h, [], (List.append_nil _).symm, (List.append_nil _).symm⟩

theorem SameStep.trans {s t s' t' s'' t'' : State} (h : SameStep s t s' t') (h' : SameStep s' t' s'' t'') :
    SameStep s t s'' t'' := by
  obtain ⟨-, new, hs, ht⟩ := h
  obtain ⟨hsame, new', hs', ht'⟩ := h'
  exact ⟨hsame, new ++ new', by rw [hs', hs, List.append_assoc], by rw [ht', ht, List.append_assoc]⟩

/-! ## The updates -/

/-- An update that shows no difference in the threshold. -/
def ThresholdUnseen (f : State → State) : Prop := ∀ ⦃s t : State⦄, SameButThreshold s t → SameStep s t (f s) (f t)

theorem ThresholdUnseen.comp {f g : State → State} (hg : ThresholdUnseen g) (hf : ThresholdUnseen f) :
    ThresholdUnseen (g ∘ f) := fun _ _ h =>
  (hf h).trans (hg (hf h).1)

/-- An update that neither reads nor writes the three, and does not arm the slope. -/
theorem thresholdUnseen_of_commute {f : State → State} (hcommute : ∀ s v, f (s.withStaleOf v) = (f s).withStaleOf v)
    (harmed : ∀ s, (f s).sl.armed = true → s.sl.armed = true) : ThresholdUnseen f := by
  intro s t h
  obtain ⟨v, rfl, hcur⟩ := sameButThreshold_iff.mp h
  have hkept : f s = (f s).withStaleOf s := hcommute s s
  rw [hcommute]
  refine ⟨sameButThreshold_iff.mpr ⟨v, rfl, fun ha => ?_⟩, [], ?_, (List.append_nil _).symm⟩
  · rw [hkept]
    exact hcur (harmed s ha)
  · rw [hkept, List.append_nil]
    rfl

section Commute

variable (s v : State)

theorem writeReg_withStaleOf (r : Reg) (d : BusWord) :
    (s.withStaleOf v).writeReg r d = (s.writeReg r d).withStaleOf v := by
  cases r <;> rfl

theorem armSoftStart_withStaleOf (dir : SsDir) :
    (s.withStaleOf v).armSoftStart dir = (s.armSoftStart dir).withStaleOf v := by
  unfold State.armSoftStart
  dsimp only
  rw [apply_ite (fun u : State => u.withStaleOf v)]
  rfl

theorem ssAdvance_withStaleOf : (s.withStaleOf v).ssAdvance = s.ssAdvance.withStaleOf v := by
  unfold State.ssAdvance
  rw [apply_ite (fun u : State => u.withStaleOf v)]
  rfl

theorem ssSettle_withStaleOf : (s.withStaleOf v).ssSettle = s.ssSettle.withStaleOf v := by
  unfold State.ssSettle
  rw [apply_ite (fun u : State => u.withStaleOf v)]
  rfl

theorem doSsStep_withStaleOf : (s.withStaleOf v).doSsStep = s.doSsStep.withStaleOf v := by
  by_cases h : s.ss.state = .ramping
  · rw [doSsStep_of_ramping h, doSsStep_of_ramping (s := s.withStaleOf v) h, ssAdvance_withStaleOf,
      ssSettle_withStaleOf]
  · rw [doSsStep_of_not_ramping h, doSsStep_of_not_ramping (s := s.withStaleOf v) h]

end Commute

theorem thresholdUnseen_writeReg (r : Reg) (d : BusWord) : ThresholdUnseen (fun s => s.writeReg r d) :=
  thresholdUnseen_of_commute (fun s v => writeReg_withStaleOf s v r d) (by simp)

theorem thresholdUnseen_raiseCfgError (code info : BitVec 8) :
    ThresholdUnseen (fun s => s.raiseCfgError code info) :=
  thresholdUnseen_of_commute (fun _ _ => rfl) (by simp)

theorem thresholdUnseen_initialize : ThresholdUnseen State.initialize :=
  thresholdUnseen_of_commute (fun _ _ => rfl) (by simp)

theorem thresholdUnseen_armSoftStart (dir : SsDir) : ThresholdUnseen (fun s => s.armSoftStart dir) :=
  thresholdUnseen_of_commute (fun s v => armSoftStart_withStaleOf s v dir) (by simp)

theorem thresholdUnseen_doSsStep : ThresholdUnseen State.doSsStep :=
  thresholdUnseen_of_commute doSsStep_withStaleOf (by simp)

theorem thresholdUnseen_setAluResult (r : Int) : ThresholdUnseen (fun s => s.setAluResult r) :=
  thresholdUnseen_of_commute (fun _ _ => rfl) (by simp)

theorem thresholdUnseen_returnRead (d : BusWord) : ThresholdUnseen (fun s => s.returnRead d) := by
  intro s t h
  obtain ⟨v, rfl, hcur⟩ := sameButThreshold_iff.mp h
  exact ⟨⟨rfl, hcur⟩, [.readResult d], rfl, rfl⟩

theorem thresholdUnseen_emit (e : OutEvent) : ThresholdUnseen (fun s => s.emit e) := by
  intro s t h
  obtain ⟨v, rfl, hcur⟩ := sameButThreshold_iff.mp h
  exact ⟨⟨rfl, hcur⟩, [.event e], rfl, rfl⟩

/-- An update rewrites `THRESH` and `SL_CUR`, and reads neither. -/
theorem thresholdUnseen_doUpdate : ThresholdUnseen State.doUpdate := by
  intro s t h
  obtain ⟨v, rfl, -⟩ := sameButThreshold_iff.mp h
  exact ⟨⟨rfl, fun _ => rfl⟩, _, doUpdate_trace s, rfl⟩

theorem thresholdUnseen_sampleHandler (imm : Word) : ThresholdUnseen (fun s => s.sampleHandler imm) :=
  have hbefore : ThresholdUnseen (fun s => { s with orch := .computeAndActuate, fdbk := imm }) :=
    thresholdUnseen_of_commute (fun _ _ => rfl) (fun _ => id)
  have hafter : ThresholdUnseen (State.withOrch .armed) := thresholdUnseen_of_commute (fun _ _ => rfl) (fun _ => id)
  hafter.comp (thresholdUnseen_doSsStep.comp (thresholdUnseen_doUpdate.comp hbefore))

/-- A ramp that is armed starts from the same `SL_CUR`, so it writes the same line. -/
theorem sameStep_slopeRun {s t : State} (h : SameButThreshold s t) (harmed : s.sl.armed = true) :
    SameStep s t s.slopeRun t.slopeRun := by
  obtain ⟨v, rfl, hcur⟩ := sameButThreshold_iff.mp h
  have hsl : (s.withStaleOf v).sl = s.sl := by rw [State.withStaleOf, ← hcur harmed]
  rw [slopeRun_eq_ramped, slopeRun_eq_ramped, hsl]
  exact ⟨⟨rfl, fun ha => by cases ha⟩, _, rfl, rfl⟩

/-! ## Reads -/

theorem readReg_withStaleOf (s v : State) {r : Reg} (hthresh : r ≠ .thresh) (hcur : r ≠ .slCur) :
    (s.withStaleOf v).readReg r = s.readReg r := by
  cases r with
  | thresh => exact absurd rfl hthresh
  | slCur => exact absurd rfl hcur
  | _ => rfl

/-- 20_memory.md R61: a register that the map has in one row only is read at no other address. -/
theorem addr_of_readableAt {addr a : Addr} {r : Reg} (hrow : ∀ row ∈ regMap, row.reg = r → row.addr = a)
    (h : readableAt addr = some r) : addr = a := by
  obtain ⟨row, hmem, rfl, -, hreg⟩ := registerAt_eq_some_iff.mp h
  exact hrow row hmem hreg

/-! ## The operations -/

/-- Two outcomes from two states: a step of both, or the same fault. -/
inductive SameAnswers (s t : State) : Outcome → Outcome → Prop
  | next {s' t' : State} (h : SameStep s t s' t') : SameAnswers s t (.next s') (.next t')
  | fault (f : Fault) : SameAnswers s t (.fault f) (.fault f)

section Answers

variable {s t : State} {act act' : Outcome}

theorem SameAnswers.after {s' t' : State} (h : SameAnswers s' t' act act') (hstep : SameStep s t s' t') :
    SameAnswers s t act act' := by
  cases h with
  | next h => exact .next (hstep.trans h)
  | fault f => exact .fault f

/-- A check that reads the same in both states. -/
theorem sameAnswers_ite {p : Prop} [Decidable p] {a b a' b' : Outcome} (hp : p → SameAnswers s t a a')
    (hnp : ¬ p → SameAnswers s t b b') : SameAnswers s t (if p then a else b) (if p then a' else b') := by
  split
  next h => exact hp h
  next h => exact hnp h

variable (h : SameButThreshold s t)
include h

theorem sameAnswers_manualGate (hact : SameAnswers s t act act') :
    SameAnswers s t (manualGate s act) (manualGate t act') := by
  obtain ⟨v, rfl, -⟩ := sameButThreshold_iff.mp h
  exact sameAnswers_ite (fun _ => hact) fun _ => .fault _

theorem sameAnswers_eventGate (hact : SameAnswers s t act act') :
    SameAnswers s t (eventGate s act) (eventGate t act') := by
  obtain ⟨v, rfl, -⟩ := sameButThreshold_iff.mp h
  exact sameAnswers_ite (fun _ => .fault _) fun _ => sameAnswers_ite (fun _ => hact) fun _ => .next (.refl h)

theorem sameAnswers_doSlRun : SameAnswers s t s.doSlRun t.doSlRun := by
  obtain ⟨v, rfl, -⟩ := sameButThreshold_iff.mp h
  exact sameAnswers_ite (fun hready => .next (sameStep_slopeRun h (Bool.and_eq_true_iff.mp hready).2)) fun _ => .fault _

theorem execRd_sameAnswers {addr : Addr} (hthresh : addr ≠ 0x05) (hcur : addr ≠ 0x5A) :
    SameAnswers s t (execRd addr s) (execRd addr t) := by
  unfold execRd
  cases hr : readableAt addr with
  | none => exact .fault _
  | some r =>
    have hne : r ≠ .thresh := fun hreg => hthresh (addr_of_readableAt (by decide) (hreg ▸ hr))
    have hne' : r ≠ .slCur := fun hreg => hcur (addr_of_readableAt (by decide) (hreg ▸ hr))
    obtain ⟨v, rfl, -⟩ := sameButThreshold_iff.mp h
    dsimp only
    rw [readReg_withStaleOf s v hne hne']
    exact .next (thresholdUnseen_returnRead _ h)

/-- Every operation but a read of `THRESH` or `SL_CUR` answers both states alike. -/
theorem exec_sameAnswers {i : Instr} (hthresh : i ≠ .rd 0x05) (hcur : i ≠ .rd 0x5A) :
    SameAnswers s t (exec i s) (exec i t) := by
  obtain ⟨v, rfl, -⟩ := sameButThreshold_iff.mp h
  have hstg : (s.withStaleOf v).stg = s.stg := rfl
  cases i with
  | rd addr =>
    exact execRd_sameAnswers h (fun ha => hthresh (congrArg Instr.rd ha)) (fun ha => hcur (congrArg Instr.rd ha))
  | wr addr d =>
    refine sameAnswers_ite (fun _ => .fault _) fun _ => ?_
    cases writableAt addr with
    | none => exact .fault _
    | some r => exact .next (thresholdUnseen_writeReg r d h)
  | init =>
    refine sameAnswers_ite (fun _ => .fault _) fun _ => ?_
    rw [hstg]
    cases s.stg.firstUnfit with
    | some addr => exact .next (thresholdUnseen_raiseCfgError 1 addr h)
    | none => exact .next (thresholdUnseen_initialize h)
  | start =>
    exact sameAnswers_ite (fun _ => .fault _) fun _ => .next
      (thresholdUnseen_of_commute (f := fun u => { u with life := .running }) (fun _ _ => rfl) (fun _ => id) h)
  | ssArm =>
    refine sameAnswers_ite (fun _ => .fault _) fun _ => ?_
    rw [hstg]
    cases SsDir.ofStaging s.stg.ssDir with
    | none => exact .next (thresholdUnseen_raiseCfgError 2 0x22 h)
    | some dir =>
      exact sameAnswers_ite (fun _ => .next (thresholdUnseen_raiseCfgError 3 0x21 h))
        fun _ => .next (thresholdUnseen_armSoftStart dir h)
  | slCfg =>
    refine sameAnswers_ite (fun _ => .fault _) fun _ => sameAnswers_ite
      (fun _ => .next (thresholdUnseen_raiseCfgError 4 0x28 h)) fun _ => sameAnswers_ite
      (fun _ => .next (thresholdUnseen_raiseCfgError 4 0x29 h)) fun _ => .next ?_
    exact thresholdUnseen_of_commute (f := fun u => { u with sl := { u.sl with
      delta := toWord u.stg.slDelta.toInt, steps := u.stg.slSteps.setWidth 16, cfgd := true } })
      (fun _ _ => rfl) (fun _ => id) h
  | orchEn =>
    exact sameAnswers_manualGate h (.next
      (thresholdUnseen_of_commute (f := State.withOrch .armed) (fun _ _ => rfl) (fun _ => id) h))
  | update => exact sameAnswers_manualGate h (.next (thresholdUnseen_doUpdate h))
  | ssStep => exact sameAnswers_manualGate h (.next (thresholdUnseen_doSsStep h))
  | slRun => exact sameAnswers_manualGate h (sameAnswers_doSlRun h)
  | evPeriod =>
    refine sameAnswers_eventGate h (sameAnswers_ite (fun _ => .fault _) fun _ => .next ?_)
    exact (thresholdUnseen_emit .sampleTrigger).comp (thresholdUnseen_of_commute
      (f := State.withOrch .sampleInFlight) (fun _ _ => rfl) (fun _ => id)) h
  | evSample imm =>
    exact sameAnswers_eventGate h
      (sameAnswers_ite (fun _ => .fault _) fun _ => .next (thresholdUnseen_sampleHandler imm h))
  | evSlope => exact sameAnswers_eventGate h (sameAnswers_doSlRun h)
  | fxSub | fxMul | fxMac | fxShift | fxSat | fxSatw | fxAdds => exact .next (thresholdUnseen_setAluResult _ h)

end Answers

/-! ## Programs -/

theorem execAll_sameAnswers {prog : List Instr} {s t : State} (h : SameButThreshold s t)
    (hthresh : .rd 0x05 ∉ prog) (hcur : .rd 0x5A ∉ prog) :
    SameAnswers s t (execAll prog s) (execAll prog t) := by
  induction prog generalizing s t with
  | nil => exact .next (.refl h)
  | cons i is ih =>
    obtain ⟨hthresh, hthreshRest⟩ := List.ne_and_not_mem_of_not_mem_cons hthresh
    obtain ⟨hcur, hcurRest⟩ := List.ne_and_not_mem_of_not_mem_cons hcur
    have hfirst := exec_sameAnswers h hthresh.symm hcur.symm
    rw [execAll, execAll]
    generalize exec i s = act at hfirst ⊢
    generalize exec i t = act' at hfirst ⊢
    cases hfirst with
    | next hstep => exact (ih hstep.1 hthreshRest hcurRest).after hstep
    | fault f => exact .fault f

/-- An `INIT` that did not raise left the named state. -/
theorem exec_init_initialized {s t : State} (h : exec .init s = .next t) (hlife : t.life = .initialized) :
    s.stg.firstUnfit = none ∧ t = s.initialize := by
  obtain ⟨-, ⟨addr, -, rfl⟩ | hfits⟩ := execInit_next h
  · cases hlife
  · exact hfits

/-- `INIT` overwrites every register that is not in the list of equal ones, but for `THRESH` and `SL_CUR`. -/
theorem sameButThreshold_initialize {s t : State} (hcfg : s.cfg = t.cfg) (hstg : s.stg = t.stg)
    (hdelta : s.sl.delta = t.sl.delta) (hsteps : s.sl.steps = t.sl.steps) (hcfgd : s.sl.cfgd = t.sl.cfgd)
    (herr : s.err = t.err) (halu : s.alu = t.alu) (hinputs : s.inputs = t.inputs) :
    SameButThreshold s.initialize t.initialize := by
  refine ⟨?_, fun ha => by cases ha⟩
  simp only [State.initialize, hcfg, hstg, hdelta, hsteps, hcfgd, herr, halu, hinputs]

/-- Settles O58: the two states after `INIT` are the same but for the threshold, so the program answers alike. -/
theorem reInitReproducesOutputs : Obligations.ReInitReproducesOutputs := by
  intro s1 s2 t1 t2 prog hcfg hstg hdelta hsteps hcfgd herr halu hinputs h1 h2 hlife hthresh hcur
  obtain ⟨hfits, rfl⟩ := exec_init_initialized h1 hlife
  obtain ⟨-, ⟨addr, hunfit, -⟩ | ⟨-, rfl⟩⟩ := execInit_next h2
  · rw [← hstg, hfits] at hunfit
    cases hunfit
  · have hanswers := execAll_sameAnswers
      (sameButThreshold_initialize hcfg hstg hdelta hsteps hcfgd herr halu hinputs) hthresh hcur
    generalize execAll prog s1.initialize = act at hanswers ⊢
    generalize execAll prog s2.initialize = act' at hanswers ⊢
    cases hanswers with
    | next h => exact h
    | fault f => rfl

end Sys2Proof.Machine
end
